-- ==== Sys2Proof/Word.lean ====
section
/-! DEFINITION. The one word type of the block: a bit vector that travels with its width. -/

namespace Sys2Proof

/-- A value's flat bit vector with its width, as it crosses the block's interface: bit 0 is the least
significant (R11, R51, R57). Operand patterns, result patterns and `AUX.MANT` are of this type. -/
structure Bits where
  /-- The number of bits of the vector. -/
  width : Nat
  /-- The bits. -/
  val : BitVec width
  deriving DecidableEq, Repr

end Sys2Proof
end

