-- ==== Sys2Proof/Config.lean ====
section
/-! DEFINITION. What an instance of the block fixes: the parameters the spec leaves OPEN, each with the
default the spec states (R9, R37; decisions D9, D10, D12, D13, D16, D18, D20). A state carries one such
record and no step ever changes it (log 6), so that a statement about every state is about every instance. -/

namespace Sys2Proof

/-- `FTZ_RULE` (R215): the point at which `NOSUB` flushes a result. -/
inductive FtzRule where
  /-- Flushed iff the rounded mantissa is below the smallest normal one (the default). -/
  | afterRounding
  /-- Flushed iff the exact magnitude is below the smallest normal value. -/
  | beforeRounding
  deriving DecidableEq, Repr

/-- `NAN_POLICY` (R208): which pattern a NaN result carries. -/
inductive NanPolicy where
  /-- The one pattern `QNaN` (the default). -/
  | canonical
  /-- The first NaN operand with its top mantissa bit set. -/
  | propagate
  deriving DecidableEq, Repr

/-- The open parameters of an instance. -/
structure Config where
  /-- `WMAX` (R9, D12): the largest width the instance accepts; `none` is unbounded. -/
  wmax : Option Nat
  /-- `FTZ_RULE` (R215, D18). -/
  ftzRule : FtzRule
  /-- `NAN_POLICY` (R208, D13). -/
  nanPolicy : NanPolicy
  /-- Switch `LITERAL_ROUND_TABLE` (R115, D9, D10). -/
  literalRoundTable : Bool
  /-- Switch `DIV0_SIGN_OF_DIVIDEND` (R256, D16). -/
  div0SignOfDividend : Bool
  /-- Switch `NE_FALSE_ON_NAN` (R304, D20). -/
  neFalseOnNan : Bool
  deriving DecidableEq, Repr

/-- The defaults the spec states: unbounded width, `after_rounding`, `canonical`, every switch off
(R9, R208, R215; "Switches named in a row are off by default", 92_eei_decisions.md). -/
def Config.specDefault : Config where
  wmax := none
  ftzRule := .afterRounding
  nanPolicy := .canonical
  literalRoundTable := false
  div0SignOfDividend := false
  neFalseOnNan := false

end Sys2Proof
end

