-- ==== Sys2Proof/Machine/State.lean ====
section
/-! DEFINITION. The state of the machine as plain data: the halt state, which is all the block keeps between
requests (R26, R38); the instance's parameters (R37, log 6); and the interface of R24, the request being
served, what the host presents next and what it has received (log 1, 2, 4). -/

namespace Sys2Proof.Machine

/-- A spec record as the request carries it (R24, R79): mathematical integers, and no tag. A format that reads
a fixed spec reads `w`, `i`, `s`; one that reads a float spec reads `w`, `e` (log 8). -/
structure SpecRecord where
  /-- Total bits `W`. -/
  w : Int
  /-- Integer bits `I` of a fixed spec. -/
  i : Int
  /-- Signedness `S` of a fixed spec. -/
  s : Bool
  /-- Exponent bits `E` of a float spec. -/
  e : Int
  deriving DecidableEq, Repr

/-- A request (R24). `xm` is an integer, so that the condition `XM < 0` of R372 (h) can be met (log 10). -/
structure Request where
  /-- The operation-select word. -/
  opsel : BitVec 16
  /-- Spec of `A`. -/
  srcA : SpecRecord
  /-- Spec of `B`. -/
  srcB : SpecRecord
  /-- Spec of `C`. -/
  srcC : SpecRecord
  /-- Spec of the result. -/
  dst : SpecRecord
  /-- Operand pattern `A`. -/
  a : Bits
  /-- Operand pattern `B`. -/
  b : Bits
  /-- Operand pattern `C`. -/
  c : Bits
  /-- Shift amount or slice width `N`. -/
  n : Int
  /-- Slice start `LSB`. -/
  lsb : Int
  /-- The rounder's wide intermediate `T` (FXQ.OVF). -/
  t : Int
  /-- Sign `XS` (FP.RNDASM). -/
  xs : Bool
  /-- Exponent `XE` (FP.RNDASM). -/
  xe : Int
  /-- Mantissa `XM` (FP.RNDASM). -/
  xm : Int
  /-- Sticky bit `XK` (FP.RNDASM). -/
  xk : Bool
  deriving DecidableEq, Repr

/-- A response (R24): a field the operation does not name is absent. -/
structure Response where
  /-- The result pattern `R`. -/
  r : Option Bits := none
  /-- `AUX.T`. -/
  auxT : Option Int := none
  /-- `AUX.INC`. -/
  auxInc : Option Bool := none
  /-- `AUX.OVF`. -/
  auxOvf : Option Bool := none
  /-- `AUX.CLASS`, a 3-bit code (R201). -/
  auxClass : Option (BitVec 3) := none
  /-- `AUX.SIGN`. -/
  auxSign : Option Bool := none
  /-- `AUX.EXP`. -/
  auxExp : Option Int := none
  /-- `AUX.MANT`, a vector of `M + 1` bits (R202). -/
  auxMant : Option Bits := none
  deriving DecidableEq, Repr

/-- The causes of a contract violation (R371), without the code 0 (`None`), which is never raised. -/
inductive Cause where
  /-- `OP` outside the table, or reserved bits set. -/
  | illegalOperation
  /-- A rounding mode the operation does not support. -/
  | unsupportedRoundingMode
  /-- A spec or integer field outside its legal range (R372). -/
  | malformedSpec
  /-- A slice outside the operand (R178). -/
  | sliceOutOfRange
  /-- An Infinity or NaN into a fixed destination without `MAPINF` (R342). -/
  | nonFiniteToFixed
  /-- A fixed-point division by zero (R158). -/
  | fixedDivideByZero
  deriving DecidableEq, Repr

/-- What the host receives for one request: a response, a contract violation and no response (R375), or, from
a halted block, `Halted` and no response (R375). -/
inductive Delivery where
  /-- Served, with its response. -/
  | done (response : Response)
  /-- A contract violation with its cause. -/
  | contractViolation (cause : Cause)
  /-- Not served: the block was halted. -/
  | halted
  deriving DecidableEq, Repr

/-- One act of the host at the block's interface: it presents a request (R24, R58), or it asserts the reset
input, possibly while presenting a request, which is then not served (R410). -/
inductive HostInput where
  /-- A request presented. -/
  | request (r : Request)
  /-- Reset asserted, with the request presented meanwhile, if any. -/
  | reset (presented : Option Request)
  deriving DecidableEq, Repr

/-- The reasons a step stops with a fault: none. R375 describes what a contract violation does to the block, so
the model takes it as a next state (log 7), and the spec gives no other way to stop. Safe: nothing that
the spec lets go on is stopped. -/
inductive Fault where
  deriving DecidableEq, Repr

/-- The reasons a step is refused. -/
inductive Refusal where
  /-- Raised by an arm of `exec` whose operation has no meaning yet; no arm is such. Safe: the step stops. -/
  | notModelled (mnemonic : String)
  deriving DecidableEq, Repr

/-- The state. `halted` and `haltCause` are the block's only architectural state (R26). -/
structure State where
  /-- `HALTED` (R26). -/
  halted : Bool
  /-- `HALT_CAUSE` (R26), a cause code of R371. -/
  haltCause : BitVec 4
  /-- The instance's parameters, never written (R37; log 6). -/
  cfg : Config
  /-- The model's own: the request being served (R24; log 1). -/
  request : Request
  /-- The model's own: what the host does next at the interface, in order (R58; log 2). -/
  inbox : List HostInput
  /-- The model's own: what the host has received, oldest first (log 4). -/
  delivered : List Delivery
  deriving DecidableEq, Repr

/-- The spec record the model holds where no request has been presented: the least width and exponent width
that are legal under either reading of the record (R9: `W > 0`, `E ≥ 2`, `W ≥ E + 2`), `I = 0`, unsigned.
DESIGN CHOICE (log 5): the spec gives none. -/
def SpecRecord.blank : SpecRecord where
  w := 4
  i := 0
  s := false
  e := 2

/-- The request the model holds where none has been presented: blank specs, patterns of zeros of their width,
every integer 0. DESIGN CHOICE (log 5): the spec gives none (R38, R411). -/
def Request.blank : Request where
  opsel := 0#16
  srcA := .blank
  srcB := .blank
  srcC := .blank
  dst := .blank
  a := ⟨4, 0#4⟩
  b := ⟨4, 0#4⟩
  c := ⟨4, 0#4⟩
  n := 0
  lsb := 0
  t := 0
  xs := false
  xe := 0
  xm := 0
  xk := false

/-- The state right after reset: `HALTED = 0`, `HALT_CAUSE = 0` (R38, R410), the parameters at the defaults the
spec states (R9), nothing presented and nothing delivered (log 2, log 4). -/
def State.reset : State where
  halted := false
  haltCause := 0#4
  cfg := .specDefault
  request := .blank
  inbox := []
  delivered := []

end Sys2Proof.Machine
end

