-- ==== Sys2Proof/Machine/Ops.lean ====
section
/-! DEFINITION. The named operations over the state: what the host receives, taking a contract violation and
leaving the halt by reset, the input the block takes next, and `serve`, which every meaning ends in. The block
has no memory and no registers to operate on (R22, R29, R50). -/

namespace Sys2Proof.Machine

/-- The 4-bit cause code (R371). -/
def Cause.code : Cause → BitVec 4
  | .illegalOperation => 1#4
  | .unsupportedRoundingMode => 2#4
  | .malformedSpec => 3#4
  | .sliceOutOfRange => 4#4
  | .nonFiniteToFixed => 5#4
  | .fixedDivideByZero => 6#4

/-- The host receives one outcome more. -/
def State.deliver (s : State) (d : Delivery) : State := { s with delivered := s.delivered ++ [d] }

/-- Taking a contract violation (R375): no response; if the block is not halted it halts and records the cause;
nothing else changes. No state is saved, and control goes nowhere. -/
def State.raise (s : State) (c : Cause) : State :=
  { s with
    halted := true
    haltCause := if s.halted then s.haltCause else c.code
    delivered := s.delivered ++ [.contractViolation c] }

/-- The reset input (R410), the only way out of the halt (R376, R377): `HALTED` and `HALT_CAUSE` become 0 and
nothing else is touched. -/
def State.assertReset (s : State) : State := { s with halted := false, haltCause := 0#4 }

/-- The host's input is taken: what it still has to present is `rest`. -/
def State.withInbox (s : State) (rest : List HostInput) : State := { s with inbox := rest }

/-- The block reads a request (R20, R53): whole, before any result exists. -/
def State.present (s : State) (r : Request) : State := { s with request := r }

/-- The response that has `R` alone (R24). -/
def Response.ofR (r : Bits) : Response := { r := some r }

/-- Serving one request whose outcome, as a function of the request alone (R21), is `result`: a halted block
serves nothing (R375); otherwise the host receives the response, or the block takes the violation. -/
def serve (s : State) (result : Except Cause Response) : Host.Outcome State Fault Refusal :=
  if s.halted then .next (s.deliver .halted)
  else
    match result with
    | .ok resp => .next (s.deliver (.done resp))
    | .error c => .next (s.raise c)

end Sys2Proof.Machine
end

