-- ==== Sys2Proof/Machine/Numbers.lean ====
section
/-! DEFINITION. The notation of 00_scope.md: bit vectors and their integers (R11), the bits of an integer's
infinite two's-complement expansion, `ilog2` and the integer square root (R12, R276), and the bitwise operators
on such expansions (R159). Every exact intermediate is an integer or a rational (R12). -/

namespace Sys2Proof.Machine

/-- `uint(v)` (R11). -/
def uint (v : Bits) : Nat := v.val.toNat

/-- `sint(v)` (R11): two's complement. -/
def sint (v : Bits) : Int := v.val.toInt

/-- `bits_N(k)` (R11): the `N` low bits of the two's-complement expansion of `k`, "bit_adjust". -/
def bitsOf (n : Nat) (k : Int) : Bits := ⟨n, BitVec.ofInt n k⟩

/-- A one-bit result (R170, R300). -/
def bitOf (p : Bool) : Bits := ⟨1, BitVec.ofBool p⟩

/-- `bit(k, i)` (R12): bit `i` of the infinite two's-complement expansion of `k`. -/
def bitAt (k : Int) (i : Nat) : Bool := k / 2 ^ i % 2 = 1

/-- `ilog2(x)` for a rational `x > 0` (R12): the `e` with `2^e ≤ x < 2^(e+1)`. The bit lengths of numerator and
denominator fix `e` up to one place, and a comparison decides it. -/
def ilog2 (x : ℚ) : Int :=
  let e : Int := (Nat.log2 x.num.toNat : Int) - (Nat.log2 x.den : Int)
  if (2 : ℚ) ^ e ≤ x then e else e - 1

/-- The digit-by-digit root: extends a partial root `t` by the bits `k - 1` down to 0, keeping each bit whose
square still fits below `n`. -/
def isqrtFrom : Nat → Nat → Nat → Nat
  | 0, _, t => t
  | k + 1, n, t => if (t + 2 ^ k) * (t + 2 ^ k) ≤ n then isqrtFrom k n (t + 2 ^ k) else isqrtFrom k n t

/-- The largest integer whose square is at most `n` (R276). -/
def isqrt (n : Nat) : Nat := isqrtFrom (Nat.log2 n / 2 + 1) n 0

/-- The complement of every bit of the expansion of `k` (R167). -/
def bitNot (k : Int) : Int := -k - 1

/-- Bitwise and of two infinite expansions (R159, R160). A negative number is the complement of the natural
number its constructor holds, and `m ^^^ (m &&& n)` is `m` without the bits of `n`. -/
def bitAnd : Int → Int → Int
  | .ofNat m, .ofNat n => .ofNat (m &&& n)
  | .ofNat m, .negSucc n => .ofNat (m ^^^ (m &&& n))
  | .negSucc m, .ofNat n => .ofNat (n ^^^ (n &&& m))
  | .negSucc m, .negSucc n => .negSucc (m ||| n)

/-- Bitwise or of two infinite expansions (R159, R161), by De Morgan's law. -/
def bitOr (a b : Int) : Int := bitNot (bitAnd (bitNot a) (bitNot b))

/-- Bitwise exclusive or of two infinite expansions (R159, R162). -/
def bitXor : Int → Int → Int
  | .ofNat m, .ofNat n => .ofNat (m ^^^ n)
  | .ofNat m, .negSucc n => .negSucc (m ^^^ n)
  | .negSucc m, .ofNat n => .negSucc (m ^^^ n)
  | .negSucc m, .negSucc n => .ofNat (m ^^^ n)

end Sys2Proof.Machine
end

