-- ==== Sys2Proof/Syntax.lean ====
section
/-! DEFINITION. The instructions of the block: one constructor per row of spec/opcode_table.json (R78), each
carrying the fields of `OPSEL` that its format reads (R77, R80) and no other. The operands are not part of an
instruction: they are fields of the request (R24, R81; log 1). -/

namespace Sys2Proof

/-- Overflow mode, field `O` of `OPSEL` (R83, R120). All four codes are legal. -/
inductive OverflowMode where
  /-- Code 0: keep the low bits. -/
  | wrap
  /-- Code 1: clamp to the largest or the smallest value. -/
  | saturate
  /-- Code 2: store zero on overflow. -/
  | saturateToZero
  /-- Code 3: clamp, and never the most-negative value. -/
  | saturateSymmetric
  deriving DecidableEq, Repr

/-- The 47 operations of R78. `q` is the 3-bit field `Q` as the word carries it: whether it names a mode the
operation supports is checked after the specs (R373), so it is kept whole; `o` is the overflow mode, `nosub`,
`mapinf`, `norm` the flags of R85. -/
inductive Instr where
  /-- FXQ.CVT, `OP = 0x00` (R124). -/
  | fxqCvt (q : BitVec 3) (o : OverflowMode)
  /-- FXQ.RND, `OP = 0x01` (R118). -/
  | fxqRnd (q : BitVec 3)
  /-- FXQ.OVF, `OP = 0x02` (R121). -/
  | fxqOvf (o : OverflowMode)
  /-- FX.ADD, `OP = 0x08` (R155). -/
  | fxAdd (q : BitVec 3) (o : OverflowMode)
  /-- FX.SUB, `OP = 0x09` (R156). -/
  | fxSub (q : BitVec 3) (o : OverflowMode)
  /-- FX.MUL, `OP = 0x0A` (R157). -/
  | fxMul (q : BitVec 3) (o : OverflowMode)
  /-- FX.DIV, `OP = 0x0B` (R158). -/
  | fxDiv (q : BitVec 3) (o : OverflowMode)
  /-- FX.AND, `OP = 0x0C` (R160). -/
  | fxAnd (q : BitVec 3) (o : OverflowMode)
  /-- FX.OR, `OP = 0x0D` (R161). -/
  | fxOr (q : BitVec 3) (o : OverflowMode)
  /-- FX.XOR, `OP = 0x0E` (R162). -/
  | fxXor (q : BitVec 3) (o : OverflowMode)
  /-- FX.SHL, `OP = 0x0F` (R164). -/
  | fxShl (q : BitVec 3) (o : OverflowMode)
  /-- FX.SHR, `OP = 0x10` (R165). -/
  | fxShr (q : BitVec 3) (o : OverflowMode)
  /-- FX.NEG, `OP = 0x11` (R166). -/
  | fxNeg (q : BitVec 3) (o : OverflowMode)
  /-- FX.NOT, `OP = 0x12` (R167). -/
  | fxNot (q : BitVec 3) (o : OverflowMode)
  /-- FX.INC, `OP = 0x13` (R168). -/
  | fxInc (q : BitVec 3) (o : OverflowMode)
  /-- FX.DEC, `OP = 0x14` (R169). -/
  | fxDec (q : BitVec 3) (o : OverflowMode)
  /-- FX.EQ, `OP = 0x15` (R172). -/
  | fxEq
  /-- FX.NE, `OP = 0x16` (R173). -/
  | fxNe
  /-- FX.LT, `OP = 0x17` (R174). -/
  | fxLt
  /-- FX.LE, `OP = 0x18` (R175). -/
  | fxLe
  /-- FX.GT, `OP = 0x19` (R176). -/
  | fxGt
  /-- FX.GE, `OP = 0x1A` (R177). -/
  | fxGe
  /-- FX.SLC, `OP = 0x1B` (R180). -/
  | fxSlc
  /-- FX.SETSLC, `OP = 0x1C` (R181). -/
  | fxSetslc
  /-- FX.TOINT, `OP = 0x1D` (R184). -/
  | fxToint
  /-- FX.FROMINT, `OP = 0x1E` (R185). -/
  | fxFromint (q : BitVec 3) (o : OverflowMode)
  /-- FP.EXTRACT, `OP = 0x20` (R204). -/
  | fpExtract (nosub : Bool) (norm : Bool)
  /-- FP.RNDASM, `OP = 0x21` (R216). -/
  | fpRndasm (q : BitVec 3) (nosub : Bool)
  /-- FP.ADD, `OP = 0x22` (R244). -/
  | fpAdd (q : BitVec 3) (nosub : Bool)
  /-- FP.SUB, `OP = 0x23` (R245). -/
  | fpSub (q : BitVec 3) (nosub : Bool)
  /-- FP.MUL, `OP = 0x24` (R252). -/
  | fpMul (q : BitVec 3) (nosub : Bool)
  /-- FP.DIV, `OP = 0x25` (R259). -/
  | fpDiv (q : BitVec 3) (nosub : Bool)
  /-- FP.FMA, `OP = 0x26` (R267). -/
  | fpFma (q : BitVec 3) (nosub : Bool)
  /-- FP.SQRT, `OP = 0x27` (R274). -/
  | fpSqrt (q : BitVec 3) (nosub : Bool)
  /-- FP.EQ, `OP = 0x28` (R303). -/
  | fpEq
  /-- FP.NE, `OP = 0x29` (R304). -/
  | fpNe
  /-- FP.LT, `OP = 0x2A` (R306). -/
  | fpLt
  /-- FP.LE, `OP = 0x2B` (R307). -/
  | fpLe
  /-- FP.GT, `OP = 0x2C` (R308). -/
  | fpGt
  /-- FP.GE, `OP = 0x2D` (R309). -/
  | fpGe
  /-- FP.CEIL, `OP = 0x2E` (R314). -/
  | fpCeil
  /-- FP.FLOOR, `OP = 0x2F` (R315). -/
  | fpFloor
  /-- FP.TRUNC, `OP = 0x30` (R316). -/
  | fpTrunc
  /-- FP.ROUND, `OP = 0x31` (R317). -/
  | fpRound
  /-- CV.FX2F, `OP = 0x38` (R333). -/
  | cvFx2f (q : BitVec 3) (nosub : Bool)
  /-- CV.F2FX, `OP = 0x39` (R341). -/
  | cvF2fx (q : BitVec 3) (o : OverflowMode) (mapinf : Bool)
  /-- CV.F2F, `OP = 0x3A` (R351). -/
  | cvF2f (q : BitVec 3) (nosub : Bool)
  deriving DecidableEq, Repr

end Sys2Proof
end

