-- ==== Sys2Proof/Machine/Flags.lean ====
section
/-! DEFINITION. The one-bit decisions of the block. It has no status flags (R25); what it computes in their
place are the guard, round and sticky bits of a discarded fraction (R113, R123, R209), the increment decisions of
the two rounding tables (R115, R210) and the overflow test (R119). -/

namespace Sys2Proof.Machine

/-- The fixed-point rounding modes (R82). -/
inductive FixedMode where
  /-- Code 0: toward minus infinity. -/
  | truncate
  /-- Code 1: nearest, ties toward zero. -/
  | roundZero
  /-- Code 2: nearest, ties toward minus infinity. -/
  | roundMinInf
  /-- Code 3: nearest, ties away from zero. -/
  | roundInf
  /-- Code 4: nearest, ties to even. -/
  | roundConvergent
  /-- Code 5: nearest, ties to odd. -/
  | roundConvergentOdd
  /-- Code 6: toward zero. -/
  | truncateTowardZero
  deriving DecidableEq, Repr

/-- The floating-point rounding modes (R84). -/
inductive FloatMode where
  /-- Code 6. -/
  | truncateTowardZero
  /-- Code 4. -/
  | roundNearestEven
  /-- Code 3. -/
  | roundNearestAwayFromZero
  /-- Code 5. -/
  | roundNearestOdd
  deriving DecidableEq, Repr

/-- The fixed-point mode of a code of field `Q`; 7 is reserved (R82). -/
def fixedModeOf (q : BitVec 3) : Option FixedMode :=
  match q.toNat with
  | 0 => some .truncate
  | 1 => some .roundZero
  | 2 => some .roundMinInf
  | 3 => some .roundInf
  | 4 => some .roundConvergent
  | 5 => some .roundConvergentOdd
  | 6 => some .truncateTowardZero
  | _ => none

/-- The floating-point mode of a code of field `Q`; 0, 1, 2 and 7 name none (R84). -/
def floatModeOf (q : BitVec 3) : Option FloatMode :=
  match q.toNat with
  | 3 => some .roundNearestAwayFromZero
  | 4 => some .roundNearestEven
  | 5 => some .roundNearestOdd
  | 6 => some .truncateTowardZero
  | _ => none

/-- The code of a floating-point mode in field `Q` (R84). -/
def FloatMode.code : FloatMode → BitVec 3
  | .truncateTowardZero => 6#3
  | .roundNearestEven => 4#3
  | .roundNearestAwayFromZero => 3#3
  | .roundNearestOdd => 5#3

/-- The guard bit of a fraction in `[0, 1)`: `f ≥ 1/2` (R113, R123, R214). -/
def guardBit (f : ℚ) : Bool := 1 / 2 ≤ f

/-- The round or sticky bit of a fraction in `[0, 1)`: neither nothing nor exactly a half is discarded
(R113, R123, R214). -/
def stickyBit (f : ℚ) : Bool := f ≠ 0 && f ≠ 1 / 2

/-- The least significant bit of a truncated candidate (R113, R116). -/
def lsbOf (t0 : Int) : Bool := t0 % 2 = 1

/-- `RoundUp(Qd, qb, r, s, lsb)` (R115): whether a quantum is added to the truncated candidate. The rows of
RoundZero and TruncateTowardZero are the corrected ones, or, with the switch `LITERAL_ROUND_TABLE`, the printed
ones (90_conflicts.md C1, C2; D9, D10). -/
def roundUp (literal : Bool) (mode : FixedMode) (qb r s lsb : Bool) : Bool :=
  match mode with
  | .truncate => false
  | .roundZero => if literal then qb && (!s || r) else qb && (s || r)
  | .roundMinInf => qb && r
  | .roundInf => qb && (!s || r)
  | .roundConvergent => qb && (lsb || r)
  | .roundConvergentOdd => qb && (!lsb || r)
  | .truncateTowardZero => if literal then false else s && (qb || r)

/-- The increment of the kept magnitude in the shared float rounding step (R210). -/
def floatRoundUp (rm : FloatMode) (g st lsb : Bool) : Bool :=
  match rm with
  | .truncateTowardZero => false
  | .roundNearestEven => g && (st || lsb)
  | .roundNearestAwayFromZero => g
  | .roundNearestOdd => g && (st || !lsb)

/-- The overflow test of the handler (R119): the rounded integer is outside `kmin … kmax`. -/
def overflows (kmin kmax t : Int) : Bool := t < kmin || kmax < t

end Sys2Proof.Machine
end

