-- ==== Sys2Proof/Machine/Operands.lean ====
section
/-! DEFINITION. The operand forms: specs checked once against their legal ranges (R9, R10, R372), the value a
pattern stands for under its spec (R70 to R76), and the extract record of a float operand (R201 to R206). -/

namespace Sys2Proof.Machine

/-- A legal fixed spec `(W, I, S)` (R9, R70). -/
structure FixedSpec where
  /-- Total bits. -/
  w : Nat
  /-- Integer bits, any integer. -/
  i : Int
  /-- Two's complement when set. -/
  s : Bool
  deriving DecidableEq, Repr

/-- A legal float spec `(W, E)` (R9, R73). -/
structure FloatSpec where
  /-- Total bits. -/
  w : Nat
  /-- Exponent bits. -/
  e : Nat
  deriving DecidableEq, Repr

/-- A fixed operand: its spec and its integer `k` (R70, R81). -/
structure FixedOperand where
  /-- The spec. -/
  spec : FixedSpec
  /-- The decoded integer. -/
  k : Int
  deriving DecidableEq, Repr

/-- A float operand: its spec and its pattern as an unsigned integer (R73). -/
structure FloatOperand where
  /-- The spec. -/
  spec : FloatSpec
  /-- `uint` of the pattern. -/
  p : Nat
  deriving DecidableEq, Repr

/-- The five classes of a float pattern (R74). -/
inductive FpClass where
  /-- Exponent and mantissa all zeros. -/
  | zero
  /-- Exponent all zeros, mantissa not. -/
  | subnormal
  /-- Exponent neither all zeros nor all ones. -/
  | normal
  /-- Exponent all ones, mantissa zero. -/
  | infinity
  /-- Exponent all ones, mantissa not zero. -/
  | nan
  deriving DecidableEq, Repr

/-- The extract record (R202). -/
structure Extracted where
  /-- The class. -/
  cls : FpClass
  /-- The sign bit. -/
  sign : Bool
  /-- The unbiased exponent. -/
  exp : Int
  /-- The explicit mantissa, of `M + 1` bits. -/
  mant : Nat
  deriving DecidableEq, Repr

/-! ## Checks of stage 2 (R372) -/

/-- A condition whose failure is the contract violation `cause`. -/
def require (p : Bool) (cause : Cause) : Except Cause Unit := if p then .ok () else .error cause

/-- `W ≤ WMAX` when the instance has a `WMAX` (R372 (c)). -/
def withinMax (cfg : Config) (w : Int) : Bool :=
  match cfg.wmax with
  | none => true
  | some m => w ≤ m

/-- A fixed spec read by the operation: `W ≥ 1`, `I` unrestricted (R372 (a), (c)). -/
def fixedSpec (cfg : Config) (rec : SpecRecord) : Except Cause FixedSpec :=
  if 1 ≤ rec.w && withinMax cfg rec.w then .ok ⟨rec.w.toNat, rec.i, rec.s⟩ else .error .malformedSpec

/-- A float spec read by the operation: `E ≥ 2` and `W ≥ E + 2` (R372 (b), (c)). -/
def floatSpec (cfg : Config) (rec : SpecRecord) : Except Cause FloatSpec :=
  if 2 ≤ rec.e && rec.e + 2 ≤ rec.w && withinMax cfg rec.w then .ok ⟨rec.w.toNat, rec.e.toNat⟩
  else .error .malformedSpec

/-- The integer of a fixed pattern: `sint` if signed, `uint` if not (R70). -/
def fixedInt (signed : Bool) (p : Bits) : Int := if signed then sint p else uint p

/-- A fixed operand: a legal spec and a pattern of its width (R372 (a), (c), (i)), decoded (R81). -/
def fixedOperand (cfg : Config) (rec : SpecRecord) (p : Bits) : Except Cause FixedOperand :=
  match fixedSpec cfg rec with
  | .error c => .error c
  | .ok sp => if p.width = sp.w then .ok ⟨sp, fixedInt sp.s p⟩ else .error .malformedSpec

/-- A float operand: a legal spec and a pattern of its width (R372 (b), (c), (i)). -/
def floatOperand (cfg : Config) (rec : SpecRecord) (p : Bits) : Except Cause FloatOperand :=
  match floatSpec cfg rec with
  | .error c => .error c
  | .ok sp => if p.width = sp.w then .ok ⟨sp, uint p⟩ else .error .malformedSpec

/-- Stage 3 of R373 for a fixed-mode format: the fixed-point mode, or `UnsupportedRoundingMode` (R82). -/
def needFixedMode (q : BitVec 3) : Except Cause FixedMode :=
  match fixedModeOf q with
  | some m => .ok m
  | none => .error .unsupportedRoundingMode

/-- Stage 3 of R373 for a float-mode format: the floating-point mode, or `UnsupportedRoundingMode` (R84). -/
def needFloatMode (q : BitVec 3) : Except Cause FloatMode :=
  match floatModeOf q with
  | some m => .ok m
  | none => .error .unsupportedRoundingMode

/-! ## Fixed-point values -/

/-- The number `F = W − I` of fractional bits (R70). -/
def FixedSpec.f (d : FixedSpec) : Int := d.w - d.i

/-- The least integer of the spec (R72). -/
def FixedSpec.kmin (d : FixedSpec) : Int := if d.s then -2 ^ (d.w - 1) else 0

/-- The greatest integer of the spec (R72). -/
def FixedSpec.kmax (d : FixedSpec) : Int := if d.s then 2 ^ (d.w - 1) - 1 else 2 ^ d.w - 1

/-- `FxVal`: the exact value `k · 2^(−F)` (R71). -/
def FixedOperand.val (a : FixedOperand) : ℚ := a.k * (2 : ℚ) ^ (-a.spec.f)

/-- One quantum of the operand's spec, `2^(−F)` (R71). -/
def FixedOperand.quantum (a : FixedOperand) : ℚ := (2 : ℚ) ^ (-a.spec.f)

/-- The common number of fractional bits of two operands (R159, R170). -/
def commonF (a b : FixedOperand) : Int := max a.spec.f b.spec.f

/-- The operand's integer on a grid of `f ≥ F` fractional bits: `k · 2^(f − F)` (R159, R170). -/
def FixedOperand.aligned (a : FixedOperand) (f : Int) : Int := a.k * 2 ^ (f - a.spec.f).toNat

/-! ## Float patterns -/

/-- Mantissa bits `M = W − E − 1` (R73). -/
def FloatSpec.m (f : FloatSpec) : Nat := f.w - f.e - 1

/-- Bias `B = 2^(E−1) − 1` (R73). -/
def FloatSpec.bias (f : FloatSpec) : Int := 2 ^ (f.e - 1) - 1

/-- Minimum normalized exponent `1 − B` (R73). -/
def FloatSpec.emin (f : FloatSpec) : Int := 1 - f.bias

/-- Maximum normalized exponent `2^E − 2 − B` (R73). -/
def FloatSpec.emax (f : FloatSpec) : Int := 2 ^ f.e - 2 - f.bias

/-- The all-ones exponent field. -/
def FloatSpec.efMax (f : FloatSpec) : Nat := 2 ^ f.e - 1

/-- The pattern with fields `{sign, ef, mf}` (R73, R76). -/
def FloatSpec.pack (f : FloatSpec) (sign : Bool) (ef mf : Nat) : Bits :=
  ⟨f.w, BitVec.ofNat f.w (sign.toNat * 2 ^ (f.w - 1) + ef * 2 ^ f.m + mf)⟩

/-- `Zero(s)` (R76). -/
def FloatSpec.zero (f : FloatSpec) (s : Bool) : Bits := f.pack s 0 0
/-- `Inf(s)` (R76). -/
def FloatSpec.inf (f : FloatSpec) (s : Bool) : Bits := f.pack s f.efMax 0
/-- `QNaN` (R76, D13). -/
def FloatSpec.qnan (f : FloatSpec) : Bits := f.pack false f.efMax (2 ^ (f.m - 1))
/-- `MaxFinite(s)` (R76). -/
def FloatSpec.maxFinite (f : FloatSpec) (s : Bool) : Bits := f.pack s (f.efMax - 1) (2 ^ f.m - 1)
/-- `MinNormal(s)` (R76). -/
def FloatSpec.minNormal (f : FloatSpec) (s : Bool) : Bits := f.pack s 1 0
/-- `MinSubnormal(s)` (R76). -/
def FloatSpec.minSubnormal (f : FloatSpec) (s : Bool) : Bits := f.pack s 0 1

/-- The sign field, bit `W − 1` (R73). -/
def FloatOperand.sign (a : FloatOperand) : Bool := a.p / 2 ^ (a.spec.w - 1) % 2 = 1
/-- The biased exponent field (R73). -/
def FloatOperand.ef (a : FloatOperand) : Nat := a.p / 2 ^ a.spec.m % 2 ^ a.spec.e
/-- The mantissa field (R73). -/
def FloatOperand.mf (a : FloatOperand) : Nat := a.p % 2 ^ a.spec.m
/-- `mag(p)`: the pattern without its sign bit (R301). -/
def FloatOperand.mag (a : FloatOperand) : Nat := a.p % 2 ^ (a.spec.w - 1)
/-- The operand's own pattern. -/
def FloatOperand.pattern (a : FloatOperand) : Bits := ⟨a.spec.w, BitVec.ofNat a.spec.w a.p⟩

/-- `FpClass` (R74). -/
def FloatOperand.cls (a : FloatOperand) : FpClass :=
  if a.ef = 0 then (if a.mf = 0 then .zero else .subnormal)
  else if a.ef = a.spec.efMax then (if a.mf = 0 then .infinity else .nan)
  else .normal

/-- `(−1)^sign` (R75). -/
def signOf (s : Bool) : ℚ := if s then -1 else 1

/-- `FpVal` (R75), defined for Zero, Subnormal and Normal; 0 is written for the two classes without a value and
no rule reads it there. -/
def FloatOperand.val (a : FloatOperand) : ℚ :=
  match a.cls with
  | .zero => 0
  | .subnormal => signOf a.sign * a.mf * (2 : ℚ) ^ (a.spec.emin - a.spec.m)
  | .normal => signOf a.sign * (2 ^ a.spec.m + a.mf : ℕ) * (2 : ℚ) ^ (a.ef - a.spec.bias - a.spec.m)
  | .infinity => 0
  | .nan => 0

/-! ## Extract -/

/-- The 3-bit code of a class (R201). -/
def FpClass.code : FpClass → BitVec 3
  | .zero => 0#3
  | .subnormal => 1#3
  | .normal => 2#3
  | .infinity => 3#3
  | .nan => 4#3

/-- `Extract(p, W, E)` (R202). -/
def FloatOperand.extract (a : FloatOperand) : Extracted where
  cls := a.cls
  sign := a.sign
  exp := if a.ef ≠ 0 then a.ef - a.spec.bias else a.spec.emin
  mant := if a.ef ≠ 0 then 2 ^ a.spec.m + a.mf else a.mf

/-- The `NOSUB` flush of an input (R204, R205): a subnormal becomes the zero of its sign. -/
def Extracted.flush (f : FloatSpec) (nosub : Bool) (x : Extracted) : Extracted :=
  if nosub && x.cls = .subnormal then ⟨.zero, x.sign, f.emin, 0⟩ else x

/-- Normalization of a subnormal (R204, R206): leading zeros shifted out, the class kept. -/
def Extracted.normalize (f : FloatSpec) (norm : Bool) (x : Extracted) : Extracted :=
  if norm && x.cls = .subnormal then
    let lz := f.m - Nat.log2 x.mant
    { x with mant := x.mant * 2 ^ lz, exp := x.exp - lz }
  else x

/-- The value of a finite record, `(−1)^sign · mant · 2^(exp − M)` (R203). -/
def Extracted.val (f : FloatSpec) (x : Extracted) : ℚ :=
  signOf x.sign * x.mant * (2 : ℚ) ^ (x.exp - f.m)

/-- The record is a NaN. -/
def Extracted.isNan (x : Extracted) : Bool := x.cls = .nan
/-- The record is an Infinity. -/
def Extracted.isInf (x : Extracted) : Bool := x.cls = .infinity
/-- The record is a Zero. -/
def Extracted.isZero (x : Extracted) : Bool := x.cls = .zero

/-- The record with its sign inverted, a NaN excepted (R243, R245). -/
def Extracted.negate (x : Extracted) : Extracted := if x.isNan then x else { x with sign := !x.sign }

end Sys2Proof.Machine
end

