-- ==== Sys2Proof/Machine/Rounding.lean ====
section
/-! DEFINITION. The two cores every other operation calls: the Quantization/Overflow Engine of the fixed-point
side (R110 to R126) and the round-and-assemble step of the float side (R208 to R215, R276). -/

namespace Sys2Proof.Machine

/-! ## The fixed-point engine -/

/-- What the rounder hands to the overflow handler (R35, R118): the integer with the increment in it, and the
increment. -/
structure Rounded where
  /-- `AUX.T`, never truncated. -/
  t : Int
  /-- `AUX.INC`. -/
  inc : Bool
  deriving DecidableEq, Repr

/-- What the overflow handler produces (R121). -/
structure Fitted where
  /-- The integer to be stored, before it is cut to `Wd` bits. -/
  v : Int
  /-- `AUX.OVF`. -/
  ovf : Bool
  deriving DecidableEq, Repr

/-- The rounder on bits (R112, R113, R118): the source integer `ks` with `fs` fractional bits aligned to `fd`. -/
def roundInt (cfg : Config) (mode : FixedMode) (ks fs fd : Int) : Rounded :=
  let s : Bool := ks < 0
  if fs ≤ fd then
    let t0 := ks * 2 ^ (fd - fs).toNat
    let inc := roundUp cfg.literalRoundTable mode false false s (lsbOf t0)
    ⟨t0 + inc.toNat, inc⟩
  else
    let n := (fs - fd).toNat
    let t0 := ks / 2 ^ n
    let inc := roundUp cfg.literalRoundTable mode (bitAt ks (n - 1)) (ks % 2 ^ (n - 1) ≠ 0) s (lsbOf t0)
    ⟨t0 + inc.toNat, inc⟩

/-- The rounder on a rational (R123): `x` in units of `2^(−fd)`. -/
def roundRat (cfg : Config) (mode : FixedMode) (x : ℚ) (fd : Int) : Rounded :=
  let y := x * (2 : ℚ) ^ fd
  let t0 := ⌊y⌋
  let f := y - t0
  let inc := roundUp cfg.literalRoundTable mode (guardBit f) (stickyBit f) (x < 0) (lsbOf t0)
  ⟨t0 + inc.toNat, inc⟩

/-- The value stored for a `kmin` that SaturateSymmetric excludes (R120, R122): one quantum less negative in a
signed spec. -/
def FixedSpec.symmetricMin (d : FixedSpec) : Int := if d.s then d.kmin + 1 else d.kmin

/-- The overflow handler (R120, R121, R122). -/
def fitInt (d : FixedSpec) (o : OverflowMode) (t : Int) : Fitted :=
  let ovf := overflows d.kmin d.kmax t
  let v :=
    if ovf then
      match o with
      | .wrap => t
      | .saturate => if d.kmax < t then d.kmax else d.kmin
      | .saturateToZero => 0
      | .saturateSymmetric => if d.kmax < t then d.kmax else d.symmetricMin
    else t
  ⟨if o = .saturateSymmetric && d.s && v = d.kmin then d.kmin + 1 else v, ovf⟩

/-- The result pattern of the overflow handler, `bits_Wd` of the stored integer (R120). -/
def fitBits (d : FixedSpec) (o : OverflowMode) (t : Int) : Bits := bitsOf d.w (fitInt d o t).v

/-- `Quantize(x, dst, Q, O)` (R123): one rounding, then one overflow decision on the rounded integer. -/
def quantize (cfg : Config) (x : ℚ) (d : FixedSpec) (mode : FixedMode) (o : OverflowMode) : Bits :=
  fitBits d o (roundRat cfg mode x d.f).t

/-! ## The float back end -/

/-- The NaN a NaN result carries (R208): `QNaN`, or, under `NAN_POLICY = propagate`, the first NaN operand with
its top mantissa bit set, and `QNaN` when no operand is a NaN. -/
def nanResult (cfg : Config) (f : FloatSpec) (operands : List Extracted) : Bits :=
  match cfg.nanPolicy with
  | .canonical => f.qnan
  | .propagate =>
    match operands.find? Extracted.isNan with
    | none => f.qnan
    | some x => f.pack x.sign f.efMax ((x.mant - 2 ^ f.m) ||| 2 ^ (f.m - 1))

/-- The end of `RoundAssemble` (R210 to R215), from the exponent `e` of the magnitude, its truncated mantissa
`t0` and the guard and sticky bits below it. -/
def assemble (cfg : Config) (f : FloatSpec) (rm : FloatMode) (nosub s : Bool) (e : Int) (t0 : Nat)
    (g st : Bool) : Bits :=
  if nosub && cfg.ftzRule = .beforeRounding && e < f.emin then f.zero s
  else
    let t1 := t0 + (floatRoundUp rm g st (lsbOf t0)).toNat
    let carry : Bool := t1 = 2 ^ (f.m + 1)
    let t := if carry then 2 ^ f.m else t1
    let er := max e f.emin + carry.toNat
    if 2 ^ f.m ≤ t then
      if f.emax < er then (if rm = .truncateTowardZero then f.maxFinite s else f.inf s)
      else f.pack s (er + f.bias).toNat (t - 2 ^ f.m)
    else if nosub then f.zero s
    else f.pack s 0 t

/-- `RoundAssemble(s, x, (W,E), RM, NOSUB)` (R214) for an exact magnitude `x ≥ 0`. -/
def roundAssemble (cfg : Config) (f : FloatSpec) (rm : FloatMode) (nosub s : Bool) (x : ℚ) : Bits :=
  if x = 0 then f.zero s
  else
    let e := ilog2 x
    let y := x / (2 : ℚ) ^ (max e f.emin - f.m)
    let t0 := ⌊y⌋
    let fr := y - t0
    assemble cfg f rm nosub s e t0.toNat (guardBit fr) (stickyBit fr)

/-- `RoundAssemble(0, √x, …)` for a rational `x > 0` (R276): the exponent, the truncated mantissa and the guard
and sticky bits of the root by comparing squares. The weight of the last mantissa bit is that of
R214, `max(e, emin) − M`; R276 writes `e − M`, which is the same unless the root lies below `2^emin`, as it can in
specs with `emin + M > 0` (log 18). -/
def rootAssemble (cfg : Config) (f : FloatSpec) (rm : FloatMode) (nosub : Bool) (x : ℚ) : Bits :=
  let e := ilog2 x / 2
  let r := x / (2 : ℚ) ^ (2 * (max e f.emin - f.m))
  let t0 := isqrt ⌊r⌋.toNat
  let odd : ℚ := (2 * t0 + 1 : ℕ)
  assemble cfg f rm nosub false e t0 (odd ^ 2 ≤ 4 * r) ((t0 : ℚ) ^ 2 ≠ r && odd ^ 2 ≠ 4 * r)

/-- The end of an addition (R244, R267): an exact zero sum is `+0` (R247), any other is rounded once. -/
def sumAssemble (cfg : Config) (f : FloatSpec) (rm : FloatMode) (nosub : Bool) (x : ℚ) : Bits :=
  if x = 0 then f.zero false else roundAssemble cfg f rm nosub (x < 0) |x|

end Sys2Proof.Machine
end

