-- ==== Sys2Proof/Machine/Formats.lean ====
section
/-! DEFINITION. The formats of R80: for each, the fields it reads and its checks in the order of R373, and then
the one thing in which the operations of the format differ. A field that a format does not read is not looked
at (R24, R80, U4, U5). Operand-dependent violations (stage 4) come from the operation itself. -/

namespace Sys2Proof.Machine

/-- Equal float specs where R80 requires them (R372 (d)). -/
def sameSpec (f g : FloatSpec) : Except Cause Unit := require (f = g) .malformedSpec

/-- Formats XB (R80, R150): two fixed operands, the exact result `x`, quantized once. -/
def fixedBinary (cfg : Config) (rq : Request) (q : BitVec 3) (o : OverflowMode)
    (x : FixedOperand → FixedOperand → Except Cause ℚ) : Except Cause Response := do
  let a ← fixedOperand cfg rq.srcA rq.a
  let b ← fixedOperand cfg rq.srcB rq.b
  let d ← fixedSpec cfg rq.dst
  let mode ← needFixedMode q
  let y ← x a b
  return .ofR (quantize cfg y d mode o)

/-- Format XU with modes (R80, R150): one fixed operand, the exact result `x`, quantized once. `extra` is the
operation's own condition on the specs (R372 (e)). -/
def fixedUnary (cfg : Config) (rq : Request) (q : BitVec 3) (o : OverflowMode)
    (extra : FixedOperand → FixedSpec → Bool) (x : FixedOperand → ℚ) : Except Cause Response := do
  let a ← fixedOperand cfg rq.srcA rq.a
  let d ← fixedSpec cfg rq.dst
  require (extra a d) .malformedSpec
  let mode ← needFixedMode q
  return .ofR (quantize cfg (x a) d mode o)

/-- Format XN (R80, R163): one fixed operand and a shift amount `N ≥ 0` (R372 (f)). -/
def fixedShift (cfg : Config) (rq : Request) (q : BitVec 3) (o : OverflowMode)
    (x : FixedOperand → Int → ℚ) : Except Cause Response := do
  let a ← fixedOperand cfg rq.srcA rq.a
  let d ← fixedSpec cfg rq.dst
  require (0 ≤ rq.n) .malformedSpec
  let mode ← needFixedMode q
  return .ofR (quantize cfg (x a rq.n) d mode o)

/-- The exact intermediate of a bitwise operator (R159): the operands' integers on their common grid. -/
def bitwiseValue (op : Int → Int → Int) (a b : FixedOperand) : ℚ :=
  op (a.aligned (commonF a b)) (b.aligned (commonF a b)) * (2 : ℚ) ^ (-commonF a b)

/-- Format XC (R80, R170): the operands aligned and compared as unbounded integers. -/
def fixedCompare (cfg : Config) (rq : Request) (p : Int → Int → Bool) : Except Cause Response := do
  let a ← fixedOperand cfg rq.srcA rq.a
  let b ← fixedOperand cfg rq.srcB rq.b
  return .ofR (bitOf (p (a.aligned (commonF a b)) (b.aligned (commonF a b))))

/-- The range rule of a slice (R178). -/
def sliceInRange (w : Nat) (lsb n : Int) : Bool := 0 ≤ lsb && 1 ≤ n && lsb + n ≤ w

/-- The slice `p[lsb + n − 1 : lsb]` (R11, R180). -/
def sliceOf (p : Bits) (lsb n : Nat) : Bits := ⟨n, BitVec.ofNat n (uint p / 2 ^ lsb)⟩

/-- `p` with its bits `lsb + n − 1 … lsb` replaced by the low `n` bits of `v` (R11, R181). -/
def withSlice (p : Bits) (lsb n v : Nat) : Bits :=
  ⟨p.width, BitVec.ofNat p.width
    (uint p / 2 ^ (lsb + n) * 2 ^ (lsb + n) + v % 2 ^ n * 2 ^ lsb + uint p % 2 ^ lsb)⟩

/-- Format PB (R80, R240): two float operands of the spec of the result, flushed at extraction (R205). -/
def floatBinary (cfg : Config) (rq : Request) (q : BitVec 3) (nosub : Bool)
    (x : FloatSpec → FloatMode → Extracted → Extracted → Bits) : Except Cause Response := do
  let a ← floatOperand cfg rq.srcA rq.a
  let b ← floatOperand cfg rq.srcB rq.b
  let d ← floatSpec cfg rq.dst
  sameSpec a.spec b.spec
  sameSpec a.spec d
  let rm ← needFloatMode q
  return .ofR (x d rm (a.extract.flush d nosub) (b.extract.flush d nosub))

/-- Format PT (R80, R240): three float operands of the spec of the result, flushed at extraction (R205). -/
def floatTernary (cfg : Config) (rq : Request) (q : BitVec 3) (nosub : Bool)
    (x : FloatSpec → FloatMode → Extracted → Extracted → Extracted → Bits) : Except Cause Response := do
  let a ← floatOperand cfg rq.srcA rq.a
  let b ← floatOperand cfg rq.srcB rq.b
  let c ← floatOperand cfg rq.srcC rq.c
  let d ← floatSpec cfg rq.dst
  sameSpec a.spec b.spec
  sameSpec a.spec c.spec
  sameSpec a.spec d
  let rm ← needFloatMode q
  return .ofR (x d rm (a.extract.flush d nosub) (b.extract.flush d nosub) (c.extract.flush d nosub))

/-- Format PU (R80, R240): one float operand of the spec of the result, flushed at extraction (R205). -/
def floatUnary (cfg : Config) (rq : Request) (q : BitVec 3) (nosub : Bool)
    (x : FloatSpec → FloatMode → Extracted → Bits) : Except Cause Response := do
  let a ← floatOperand cfg rq.srcA rq.a
  let d ← floatSpec cfg rq.dst
  sameSpec a.spec d
  let rm ← needFloatMode q
  return .ofR (x d rm (a.extract.flush d nosub))

/-- Format PC (R80, R300): two float operands of one spec; no mode and no flag is read. -/
def floatCompare (cfg : Config) (rq : Request) (p : FloatOperand → FloatOperand → Bool) :
    Except Cause Response := do
  let a ← floatOperand cfg rq.srcA rq.a
  let b ← floatOperand cfg rq.srcB rq.b
  sameSpec a.spec b.spec
  return .ofR (bitOf (p a b))

/-- The common pseudocode of the integral helpers (R311): a NaN gives a NaN, an Infinity or a Zero comes back,
and any other operand gives the integer `fn` of its value, with the operand's sign. -/
def integralOf (cfg : Config) (fn : ℚ → Int) (a : FloatOperand) : Bits :=
  match a.cls with
  | .nan => nanResult cfg a.spec [a.extract]
  | .infinity => a.pattern
  | .zero => a.pattern
  | .subnormal | .normal =>
    if fn a.val = 0 then a.spec.zero a.sign
    else roundAssemble cfg a.spec .roundNearestEven false a.sign |(fn a.val : ℚ)|

/-- Format PI (R80, R311): one float operand of the spec of the result; no mode and no flag is read. -/
def floatIntegral (cfg : Config) (rq : Request) (fn : ℚ → Int) : Except Cause Response := do
  let a ← floatOperand cfg rq.srcA rq.a
  let d ← floatSpec cfg rq.dst
  sameSpec a.spec d
  return .ofR (integralOf cfg fn a)

end Sys2Proof.Machine
end

