-- ==== Sys2Proof/Machine/Conversions.lean ====
section
/-! DEFINITION. The converters fixed_to_float_converter, float_to_fixed_converter and float_format_converter:
CV.FX2F, CV.F2FX, CV.F2F (45_conversions.md). Each makes one call of `RoundAssemble` or of `Quantize` (R330). -/

namespace Sys2Proof.Machine

/-- The generic part of CV.FX2F (R333): a fixed zero is `+0`. -/
def fixedToFloat (cfg : Config) (f : FloatSpec) (rm : FloatMode) (nosub : Bool) (x : ℚ) : Bits :=
  if x = 0 then f.zero false else roundAssemble cfg f rm nosub (x < 0) |x|

/-- CV.FX2F (R333). -/
def fx2fResult (q : BitVec 3) (nosub : Bool) (cfg : Config) (rq : Request) : Except Cause Response := do
  let a ← fixedOperand cfg rq.srcA rq.a
  let d ← floatSpec cfg rq.dst
  let rm ← needFloatMode q
  return .ofR (fixedToFloat cfg d rm nosub a.val)

/-- CV.FX2F (R333). -/
def execCvFx2f (q : BitVec 3) (nosub : Bool) (s : State) : Host.Outcome State Fault Refusal :=
  serve s (fx2fResult q nosub s.cfg s.request)

/-- `MapNonFinite` (R343): an Infinity or a NaN by its sign to `kmax` or `kmin`, and to `kmin + 1` where the
destination excludes `kmin`. -/
def mapNonFinite (d : FixedSpec) (o : OverflowMode) (sign : Bool) : Bits :=
  bitsOf d.w (if sign then (if o = .saturateSymmetric then d.symmetricMin else d.kmin) else d.kmax)

/-- CV.F2FX (R341): a non-finite source asserts (R342) unless `MAPINF` is set. -/
def f2fxResult (q : BitVec 3) (o : OverflowMode) (mapinf : Bool) (cfg : Config) (rq : Request) :
    Except Cause Response := do
  let a ← floatOperand cfg rq.srcA rq.a
  let d ← fixedSpec cfg rq.dst
  let mode ← needFixedMode q
  if a.cls = .nan ∨ a.cls = .infinity then
    require mapinf .nonFiniteToFixed
    return .ofR (mapNonFinite d o a.sign)
  else
    return .ofR (quantize cfg a.val d mode o)

/-- CV.F2FX (R341). -/
def execCvF2fx (q : BitVec 3) (o : OverflowMode) (mapinf : Bool) (s : State) :
    Host.Outcome State Fault Refusal :=
  serve s (f2fxResult q o mapinf s.cfg s.request)

/-- The result of CV.F2F on a flushed record of spec `f`, in the spec `d` (R351). A NaN is `QNaN` of the
destination under either `NAN_POLICY` (log 11). -/
def floatToFloat (cfg : Config) (f d : FloatSpec) (rm : FloatMode) (nosub : Bool) (x : Extracted) : Bits :=
  match x.cls with
  | .nan => d.qnan
  | .infinity => d.inf x.sign
  | .zero => d.zero x.sign
  | .subnormal | .normal => roundAssemble cfg d rm nosub x.sign |x.val f|

/-- CV.F2F (R351). -/
def f2fResult (q : BitVec 3) (nosub : Bool) (cfg : Config) (rq : Request) : Except Cause Response := do
  let a ← floatOperand cfg rq.srcA rq.a
  let d ← floatSpec cfg rq.dst
  let rm ← needFloatMode q
  return .ofR (floatToFloat cfg a.spec d rm nosub (a.extract.flush a.spec nosub))

/-- CV.F2F (R351). -/
def execCvF2f (q : BitVec 3) (nosub : Bool) (s : State) : Host.Outcome State Fault Refusal :=
  serve s (f2fResult q nosub s.cfg s.request)

end Sys2Proof.Machine
end

