-- ==== Sys2Proof/Machine/FixedOperators.lean ====
section
/-! DEFINITION. The fixed-point operators, comparisons, slices and integer conversions, FX.*
(41_fixed_operators.md). Each arithmetic operator forms its exact result in the rationals and quantizes it once
(R150). -/

namespace Sys2Proof.Machine

/-! ## Arithmetic -/

/-- FX.ADD (R155). -/
def execFxAdd (q : BitVec 3) (o : OverflowMode) (s : State) : Host.Outcome State Fault Refusal :=
  serve s (fixedBinary s.cfg s.request q o fun a b => .ok (a.val + b.val))

/-- FX.SUB (R156). -/
def execFxSub (q : BitVec 3) (o : OverflowMode) (s : State) : Host.Outcome State Fault Refusal :=
  serve s (fixedBinary s.cfg s.request q o fun a b => .ok (a.val - b.val))

/-- FX.MUL (R157). -/
def execFxMul (q : BitVec 3) (o : OverflowMode) (s : State) : Host.Outcome State Fault Refusal :=
  serve s (fixedBinary s.cfg s.request q o fun a b => .ok (a.val * b.val))

/-- FX.DIV (R158): the exact rational quotient; a zero divisor is `FixedDivideByZero`, after every other check
(R373). -/
def execFxDiv (q : BitVec 3) (o : OverflowMode) (s : State) : Host.Outcome State Fault Refusal :=
  serve s (fixedBinary s.cfg s.request q o fun a b =>
    if b.val = 0 then .error .fixedDivideByZero else .ok (a.val / b.val))

/-! ## Bitwise operators -/

/-- FX.AND (R160). -/
def execFxAnd (q : BitVec 3) (o : OverflowMode) (s : State) : Host.Outcome State Fault Refusal :=
  serve s (fixedBinary s.cfg s.request q o fun a b => .ok (bitwiseValue bitAnd a b))

/-- FX.OR (R161). -/
def execFxOr (q : BitVec 3) (o : OverflowMode) (s : State) : Host.Outcome State Fault Refusal :=
  serve s (fixedBinary s.cfg s.request q o fun a b => .ok (bitwiseValue bitOr a b))

/-- FX.XOR (R162). -/
def execFxXor (q : BitVec 3) (o : OverflowMode) (s : State) : Host.Outcome State Fault Refusal :=
  serve s (fixedBinary s.cfg s.request q o fun a b => .ok (bitwiseValue bitXor a b))

/-! ## Shifts, negate, complement, increment, decrement -/

/-- FX.SHL (R164): `x = FxVal(A) · 2^N`. -/
def execFxShl (q : BitVec 3) (o : OverflowMode) (s : State) : Host.Outcome State Fault Refusal :=
  serve s (fixedShift s.cfg s.request q o fun a n => a.val * (2 : ℚ) ^ n)

/-- FX.SHR (R165): `x = FxVal(A) · 2^(−N)`. -/
def execFxShr (q : BitVec 3) (o : OverflowMode) (s : State) : Host.Outcome State Fault Refusal :=
  serve s (fixedShift s.cfg s.request q o fun a n => a.val * (2 : ℚ) ^ (-n))

/-- FX.NEG (R166). -/
def execFxNeg (q : BitVec 3) (o : OverflowMode) (s : State) : Host.Outcome State Fault Refusal :=
  serve s (fixedUnary s.cfg s.request q o (fun _ _ => true) fun a => -a.val)

/-- FX.NOT (R167): every bit of the infinite expansion complemented. -/
def execFxNot (q : BitVec 3) (o : OverflowMode) (s : State) : Host.Outcome State Fault Refusal :=
  serve s (fixedUnary s.cfg s.request q o (fun _ _ => true) fun a => bitNot a.k * (2 : ℚ) ^ (-a.spec.f))

/-- FX.INC (R168). -/
def execFxInc (q : BitVec 3) (o : OverflowMode) (s : State) : Host.Outcome State Fault Refusal :=
  serve s (fixedUnary s.cfg s.request q o (fun _ _ => true) fun a => a.val + a.quantum)

/-- FX.DEC (R169). -/
def execFxDec (q : BitVec 3) (o : OverflowMode) (s : State) : Host.Outcome State Fault Refusal :=
  serve s (fixedUnary s.cfg s.request q o (fun _ _ => true) fun a => a.val - a.quantum)

/-! ## Comparisons -/

/-- FX.EQ (R172). -/
def execFxEq (s : State) : Host.Outcome State Fault Refusal :=
  serve s (fixedCompare s.cfg s.request fun ka kb => ka = kb)

/-- FX.NE (R173). -/
def execFxNe (s : State) : Host.Outcome State Fault Refusal :=
  serve s (fixedCompare s.cfg s.request fun ka kb => ka ≠ kb)

/-- FX.LT (R174). -/
def execFxLt (s : State) : Host.Outcome State Fault Refusal :=
  serve s (fixedCompare s.cfg s.request fun ka kb => ka < kb)

/-- FX.LE (R175). -/
def execFxLe (s : State) : Host.Outcome State Fault Refusal :=
  serve s (fixedCompare s.cfg s.request fun ka kb => ka ≤ kb)

/-- FX.GT (R176). -/
def execFxGt (s : State) : Host.Outcome State Fault Refusal :=
  serve s (fixedCompare s.cfg s.request fun ka kb => kb < ka)

/-- FX.GE (R177). -/
def execFxGe (s : State) : Host.Outcome State Fault Refusal :=
  serve s (fixedCompare s.cfg s.request fun ka kb => kb ≤ ka)

/-! ## Slices -/

/-- FX.SLC (R180): `N` raw bits of the pattern, or `SliceOutOfRange` (R178). -/
def slcResult (cfg : Config) (rq : Request) : Except Cause Response := do
  let a ← fixedOperand cfg rq.srcA rq.a
  require (sliceInRange a.spec.w rq.lsb rq.n) .sliceOutOfRange
  return .ofR (sliceOf rq.a rq.lsb.toNat rq.n.toNat)

/-- FX.SLC (R180). -/
def execFxSlc (s : State) : Host.Outcome State Fault Refusal :=
  serve s (slcResult s.cfg s.request)

/-- FX.SETSLC (R181): the slice replaced by `B`, whose width must be `N` (R372 (g)), or `SliceOutOfRange`
(R178). -/
def setslcResult (cfg : Config) (rq : Request) : Except Cause Response := do
  let a ← fixedOperand cfg rq.srcA rq.a
  let b ← fixedOperand cfg rq.srcB rq.b
  require ((b.spec.w : Int) = rq.n) .malformedSpec
  require (sliceInRange a.spec.w rq.lsb rq.n) .sliceOutOfRange
  return .ofR (withSlice rq.a rq.lsb.toNat rq.n.toNat (uint rq.b))

/-- FX.SETSLC (R181). -/
def execFxSetslc (s : State) : Host.Outcome State Fault Refusal :=
  serve s (setslcResult s.cfg s.request)

/-! ## Conversion to and from integers -/

/-- FX.TOINT (R184): into `(n, n, S)` under Truncate and Wrap; the request's `Q` and `O` are not read. -/
def tointResult (cfg : Config) (rq : Request) : Except Cause Response := do
  let a ← fixedOperand cfg rq.srcA rq.a
  let d ← fixedSpec cfg rq.dst
  require (d.i = d.w) .malformedSpec
  return .ofR (quantize cfg a.val d .truncate .wrap)

/-- FX.TOINT (R184). -/
def execFxToint (s : State) : Host.Outcome State Fault Refusal :=
  serve s (tointResult s.cfg s.request)

/-- FX.FROMINT (R185): the integer of `(n, n, S)`, quantized into the destination. -/
def execFxFromint (q : BitVec 3) (o : OverflowMode) (s : State) : Host.Outcome State Fault Refusal :=
  serve s (fixedUnary s.cfg s.request q o (fun a _ => a.spec.i = a.spec.w) fun a => a.k)

end Sys2Proof.Machine
end

