-- ==== Sys2Proof/Machine/FloatArith.lean ====
section
/-! DEFINITION. The floating-point arithmetic units: FP.ADD, FP.SUB, FP.MUL, FP.DIV, FP.FMA, FP.SQRT
(43_float_arith.md). Each takes its special-case table first, row by row, and then its exact result, rounded
once (R207, R241). -/

namespace Sys2Proof.Machine

/-! ## Special-case tables; `none` is the generic path -/

/-- The table of R242. -/
def addSpecial (cfg : Config) (f : FloatSpec) (a b : Extracted) : Option Bits :=
  if a.isNan || b.isNan then some (nanResult cfg f [a, b])
  else if a.isInf && b.isInf then
    if a.sign = b.sign then some (f.inf a.sign) else some (nanResult cfg f [a, b])
  else if a.isInf then some (f.inf a.sign)
  else if b.isInf then some (f.inf b.sign)
  else if a.isZero && b.isZero then
    if a.sign = b.sign then some (f.zero a.sign) else some (f.zero false)
  else none

/-- The table of R250. -/
def mulSpecial (cfg : Config) (f : FloatSpec) (a b : Extracted) : Option Bits :=
  if a.isNan || b.isNan then some (nanResult cfg f [a, b])
  else if a.isZero && b.isInf || a.isInf && b.isZero then some (nanResult cfg f [a, b])
  else if a.isInf || b.isInf then some (f.inf (a.sign ^^ b.sign))
  else if a.isZero || b.isZero then some (f.zero (a.sign ^^ b.sign))
  else none

/-- The table of R255. Row 6 takes the sign of the dividend under the switch `DIV0_SIGN_OF_DIVIDEND` (R256). -/
def divSpecial (cfg : Config) (f : FloatSpec) (a b : Extracted) : Option Bits :=
  if a.isNan || b.isNan then some (nanResult cfg f [a, b])
  else if a.isInf && b.isInf then some (nanResult cfg f [a, b])
  else if a.isZero && b.isZero then some (nanResult cfg f [a, b])
  else if a.isInf then some (f.inf (a.sign ^^ b.sign))
  else if b.isInf then some (f.zero (a.sign ^^ b.sign))
  else if b.isZero then some (f.inf (if cfg.div0SignOfDividend then a.sign else a.sign ^^ b.sign))
  else if a.isZero then some (f.zero (a.sign ^^ b.sign))
  else none

/-- The pattern of a finite record that was not normalized (R202, R264 row 7). -/
def Extracted.pattern (f : FloatSpec) (x : Extracted) : Bits :=
  if 2 ^ f.m ≤ x.mant then f.pack x.sign (x.exp + f.bias).toNat (x.mant - 2 ^ f.m) else f.pack x.sign 0 x.mant

/-- The table of R264. -/
def fmaSpecial (cfg : Config) (f : FloatSpec) (a b c : Extracted) : Option Bits :=
  let sp := a.sign ^^ b.sign
  if a.isNan || b.isNan || c.isNan then some (nanResult cfg f [a, b, c])
  else if a.isZero && b.isInf || a.isInf && b.isZero then some (nanResult cfg f [a, b, c])
  else if (a.isInf || b.isInf) && c.isInf && c.sign != sp then some (nanResult cfg f [a, b, c])
  else if a.isInf || b.isInf then some (f.inf sp)
  else if c.isInf then some (f.inf c.sign)
  else if (a.isZero || b.isZero) && c.isZero then
    if sp = c.sign then some (f.zero sp) else some (f.zero false)
  else if a.isZero || b.isZero then some (c.pattern f)
  else none

/-- The table of R270. -/
def sqrtSpecial (cfg : Config) (f : FloatSpec) (a : Extracted) : Option Bits :=
  if a.isNan then some (nanResult cfg f [a])
  else if a.isZero then some (f.zero a.sign)
  else if a.sign then some (nanResult cfg f [a])
  else if a.isInf then some (f.inf false)
  else none

/-! ## The units -/

/-- fp_adder_normalizer on extracted operands (R244). -/
def addUnit (cfg : Config) (nosub : Bool) (f : FloatSpec) (rm : FloatMode) (a b : Extracted) : Bits :=
  match addSpecial cfg f a b with
  | some r => r
  | none => sumAssemble cfg f rm nosub (a.val f + b.val f)

/-- fp_multiplier_pipeline (R252). -/
def mulUnit (cfg : Config) (nosub : Bool) (f : FloatSpec) (rm : FloatMode) (a b : Extracted) : Bits :=
  match mulSpecial cfg f a b with
  | some r => r
  | none => roundAssemble cfg f rm nosub (a.sign ^^ b.sign) (|a.val f| * |b.val f|)

/-- fp_divider_pipeline (R259). -/
def divUnit (cfg : Config) (nosub : Bool) (f : FloatSpec) (rm : FloatMode) (a b : Extracted) : Bits :=
  match divSpecial cfg f a b with
  | some r => r
  | none => roundAssemble cfg f rm nosub (a.sign ^^ b.sign) (|a.val f| / |b.val f|)

/-- fp_fma_engine (R267): the product is not rounded before the add. -/
def fmaUnit (cfg : Config) (nosub : Bool) (f : FloatSpec) (rm : FloatMode) (a b c : Extracted) : Bits :=
  match fmaSpecial cfg f a b c with
  | some r => r
  | none => sumAssemble cfg f rm nosub (a.val f * b.val f + c.val f)

/-- fp_sqrt_engine (R274). -/
def sqrtUnit (cfg : Config) (nosub : Bool) (f : FloatSpec) (rm : FloatMode) (a : Extracted) : Bits :=
  match sqrtSpecial cfg f a with
  | some r => r
  | none => rootAssemble cfg f rm nosub (a.val f)

/-! ## The operations -/

/-- FP.ADD (R244). -/
def execFpAdd (q : BitVec 3) (nosub : Bool) (s : State) : Host.Outcome State Fault Refusal :=
  serve s (floatBinary s.cfg s.request q nosub fun f rm a b => addUnit s.cfg nosub f rm a b)

/-- FP.SUB (R245): the adder on `B` with its sign inverted after extraction (R243). -/
def execFpSub (q : BitVec 3) (nosub : Bool) (s : State) : Host.Outcome State Fault Refusal :=
  serve s (floatBinary s.cfg s.request q nosub fun f rm a b => addUnit s.cfg nosub f rm a b.negate)

/-- FP.MUL (R252). -/
def execFpMul (q : BitVec 3) (nosub : Bool) (s : State) : Host.Outcome State Fault Refusal :=
  serve s (floatBinary s.cfg s.request q nosub fun f rm a b => mulUnit s.cfg nosub f rm a b)

/-- FP.DIV (R259). -/
def execFpDiv (q : BitVec 3) (nosub : Bool) (s : State) : Host.Outcome State Fault Refusal :=
  serve s (floatBinary s.cfg s.request q nosub fun f rm a b => divUnit s.cfg nosub f rm a b)

/-- FP.FMA (R267). -/
def execFpFma (q : BitVec 3) (nosub : Bool) (s : State) : Host.Outcome State Fault Refusal :=
  serve s (floatTernary s.cfg s.request q nosub fun f rm a b c => fmaUnit s.cfg nosub f rm a b c)

/-- FP.SQRT (R274). -/
def execFpSqrt (q : BitVec 3) (nosub : Bool) (s : State) : Host.Outcome State Fault Refusal :=
  serve s (floatUnary s.cfg s.request q nosub fun f rm a => sqrtUnit s.cfg nosub f rm a)

end Sys2Proof.Machine
end

