-- ==== Sys2Proof/Machine/FloatCompare.lean ====
section
/-! DEFINITION. Floating-point comparisons and the round-to-integral helpers: FP.EQ to FP.GE, FP.CEIL, FP.FLOOR,
FP.TRUNC, FP.ROUND (44_float_compare_integral.md). -/

namespace Sys2Proof.Machine

/-- The predicate `eq` of R302. -/
def floatEq (a b : FloatOperand) : Bool :=
  a.cls ≠ .nan && b.cls ≠ .nan && (a.p = b.p || (a.cls = .zero && b.cls = .zero))

/-- The predicate `lt` of R302, from the sign and the magnitude as an unsigned pattern (R301). -/
def floatLt (a b : FloatOperand) : Bool :=
  a.cls ≠ .nan && b.cls ≠ .nan && !(a.cls = .zero && b.cls = .zero) &&
    ((a.sign && !b.sign) || (!a.sign && !b.sign && a.mag < b.mag) || (a.sign && b.sign && b.mag < a.mag))

/-- The result of FP.NE (R304): the negation of `eq`, or, under the switch `NE_FALSE_ON_NAN`, 0 with a NaN
operand (D20). -/
def floatNe (cfg : Config) (a b : FloatOperand) : Bool :=
  if cfg.neFalseOnNan && (a.cls = .nan || b.cls = .nan) then false else !floatEq a b

/-- FP.EQ (R303). -/
def execFpEq (s : State) : Host.Outcome State Fault Refusal :=
  serve s (floatCompare s.cfg s.request fun a b => floatEq a b)

/-- FP.NE (R304). -/
def execFpNe (s : State) : Host.Outcome State Fault Refusal :=
  serve s (floatCompare s.cfg s.request fun a b => floatNe s.cfg a b)

/-- FP.LT (R306). -/
def execFpLt (s : State) : Host.Outcome State Fault Refusal :=
  serve s (floatCompare s.cfg s.request fun a b => floatLt a b)

/-- FP.LE (R307). -/
def execFpLe (s : State) : Host.Outcome State Fault Refusal :=
  serve s (floatCompare s.cfg s.request fun a b => floatLt a b || floatEq a b)

/-- FP.GT (R308). -/
def execFpGt (s : State) : Host.Outcome State Fault Refusal :=
  serve s (floatCompare s.cfg s.request fun a b => floatLt b a)

/-- FP.GE (R309). -/
def execFpGe (s : State) : Host.Outcome State Fault Refusal :=
  serve s (floatCompare s.cfg s.request fun a b => floatLt b a || floatEq a b)

/-- The integer of the magnitude with the sign of `x`: `sgn(x) · n` (R316, R317). -/
def withSignOf (x : ℚ) (n : Int) : Int := if x < 0 then -n else n

/-- FP.CEIL (R314): the least integer `≥ x`. -/
def execFpCeil (s : State) : Host.Outcome State Fault Refusal :=
  serve s (floatIntegral s.cfg s.request fun x => ⌈x⌉)

/-- FP.FLOOR (R315): the greatest integer `≤ x`. -/
def execFpFloor (s : State) : Host.Outcome State Fault Refusal :=
  serve s (floatIntegral s.cfg s.request fun x => ⌊x⌋)

/-- FP.TRUNC (R316): `sgn(x) · ⌊|x|⌋`. -/
def execFpTrunc (s : State) : Host.Outcome State Fault Refusal :=
  serve s (floatIntegral s.cfg s.request fun x => withSignOf x ⌊|x|⌋)

/-- FP.ROUND (R317): `sgn(x) · ⌊|x| + 1/2⌋`, ties away from zero. -/
def execFpRound (s : State) : Host.Outcome State Fault Refusal :=
  serve s (floatIntegral s.cfg s.request fun x => withSignOf x ⌊|x| + 1 / 2⌋)

end Sys2Proof.Machine
end

