-- ==== Sys2Proof/Machine/FloatFrontBack.lean ====
section
/-! DEFINITION. The units fp_extract_normalize and fp_round_assemble: FP.EXTRACT, FP.RNDASM
(42_float_extract_round.md). -/

namespace Sys2Proof.Machine

/-- FP.EXTRACT (R204): the extract record, flushed under `NOSUB` (R205), then normalized under `NORM` (R206). -/
def extractResult (nosub norm : Bool) (cfg : Config) (rq : Request) : Except Cause Response := do
  let a ← floatOperand cfg rq.srcA rq.a
  let x := (a.extract.flush a.spec nosub).normalize a.spec norm
  return { auxClass := some x.cls.code, auxSign := some x.sign, auxExp := some x.exp,
           auxMant := some (bitsOf (a.spec.m + 1) x.mant) }

/-- FP.EXTRACT (R204). -/
def execFpExtract (nosub norm : Bool) (s : State) : Host.Outcome State Fault Refusal :=
  serve s (extractResult nosub norm s.cfg s.request)

/-- Condition (h) of R372: the sticky bit needs a true guard bit below the kept mantissa, and `XM` is not
negative (R216). -/
def rndasmLegal (f : FloatSpec) (xm : Int) (xk : Bool) : Bool := 0 ≤ xm && (!xk || 2 ^ (f.m + 1) ≤ xm)

/-- FP.RNDASM (R216): the sticky bit appended as one more low bit, then `RoundAssemble`. -/
def rndasmResult (q : BitVec 3) (nosub : Bool) (cfg : Config) (rq : Request) : Except Cause Response := do
  let d ← floatSpec cfg rq.dst
  let rm ← needFloatMode q
  require (rndasmLegal d rq.xm rq.xk) .malformedSpec
  let x : ℚ := (2 * rq.xm + rq.xk.toNat : ℤ) * (2 : ℚ) ^ (rq.xe - 1)
  return .ofR (roundAssemble cfg d rm nosub rq.xs x)

/-- FP.RNDASM (R216). -/
def execFpRndasm (q : BitVec 3) (nosub : Bool) (s : State) : Host.Outcome State Fault Refusal :=
  serve s (rndasmResult q nosub s.cfg s.request)

end Sys2Proof.Machine
end

