-- ==== Sys2Proof/Machine/Quantizer.lean ====
section
/-! DEFINITION. The units fixed_point_rounder, fixed_point_overflow_handler and fixed_point_quantizer:
FXQ.CVT, FXQ.RND, FXQ.OVF (40_fixed_quantizer.md). -/

namespace Sys2Proof.Machine

/-- FXQ.CVT (R124): the rounder, then the overflow handler on the rounded integer with its carry (R125). -/
def cvtResult (q : BitVec 3) (o : OverflowMode) (cfg : Config) (rq : Request) : Except Cause Response := do
  let a ← fixedOperand cfg rq.srcA rq.a
  let d ← fixedSpec cfg rq.dst
  let mode ← needFixedMode q
  let rnd := roundInt cfg mode a.k a.spec.f d.f
  return { r := some (fitBits d o rnd.t), auxT := some rnd.t, auxInc := some rnd.inc,
           auxOvf := some (fitInt d o rnd.t).ovf }

/-- FXQ.CVT (R124). -/
def execFxqCvt (q : BitVec 3) (o : OverflowMode) (s : State) : Host.Outcome State Fault Refusal :=
  serve s (cvtResult q o s.cfg s.request)

/-- FXQ.RND (R118): the rounder alone; of `DST` only `Fd` is used, but the whole spec is checked. -/
def rndResult (q : BitVec 3) (cfg : Config) (rq : Request) : Except Cause Response := do
  let a ← fixedOperand cfg rq.srcA rq.a
  let d ← fixedSpec cfg rq.dst
  let mode ← needFixedMode q
  let rnd := roundInt cfg mode a.k a.spec.f d.f
  return { auxT := some rnd.t, auxInc := some rnd.inc }

/-- FXQ.RND (R118). -/
def execFxqRnd (q : BitVec 3) (s : State) : Host.Outcome State Fault Refusal :=
  serve s (rndResult q s.cfg s.request)

/-- FXQ.OVF (R121): the overflow handler alone, on the request's `T`. -/
def ovfResult (o : OverflowMode) (cfg : Config) (rq : Request) : Except Cause Response := do
  let d ← fixedSpec cfg rq.dst
  return { r := some (fitBits d o rq.t), auxOvf := some (fitInt d o rq.t).ovf }

/-- FXQ.OVF (R121). -/
def execFxqOvf (o : OverflowMode) (s : State) : Host.Outcome State Fault Refusal :=
  serve s (ovfResult o s.cfg s.request)

end Sys2Proof.Machine
end

