-- ==== Sys2Proof/Machine/Dispatch.lean ====
section
/-! DEFINITION. One arm per operation of R78, in the table's order, each one direct call of its meaning. -/

namespace Sys2Proof.Machine

/-- Serves the request held in the state as the operation `i` (R21, R24). -/
def exec (i : Instr) (s : State) : Host.Outcome State Fault Refusal :=
  match i with
  | .fxqCvt q o => Sys2Proof.Machine.execFxqCvt q o s
  | .fxqRnd q => Sys2Proof.Machine.execFxqRnd q s
  | .fxqOvf o => Sys2Proof.Machine.execFxqOvf o s
  | .fxAdd q o => Sys2Proof.Machine.execFxAdd q o s
  | .fxSub q o => Sys2Proof.Machine.execFxSub q o s
  | .fxMul q o => Sys2Proof.Machine.execFxMul q o s
  | .fxDiv q o => Sys2Proof.Machine.execFxDiv q o s
  | .fxAnd q o => Sys2Proof.Machine.execFxAnd q o s
  | .fxOr q o => Sys2Proof.Machine.execFxOr q o s
  | .fxXor q o => Sys2Proof.Machine.execFxXor q o s
  | .fxShl q o => Sys2Proof.Machine.execFxShl q o s
  | .fxShr q o => Sys2Proof.Machine.execFxShr q o s
  | .fxNeg q o => Sys2Proof.Machine.execFxNeg q o s
  | .fxNot q o => Sys2Proof.Machine.execFxNot q o s
  | .fxInc q o => Sys2Proof.Machine.execFxInc q o s
  | .fxDec q o => Sys2Proof.Machine.execFxDec q o s
  | .fxEq => Sys2Proof.Machine.execFxEq s
  | .fxNe => Sys2Proof.Machine.execFxNe s
  | .fxLt => Sys2Proof.Machine.execFxLt s
  | .fxLe => Sys2Proof.Machine.execFxLe s
  | .fxGt => Sys2Proof.Machine.execFxGt s
  | .fxGe => Sys2Proof.Machine.execFxGe s
  | .fxSlc => Sys2Proof.Machine.execFxSlc s
  | .fxSetslc => Sys2Proof.Machine.execFxSetslc s
  | .fxToint => Sys2Proof.Machine.execFxToint s
  | .fxFromint q o => Sys2Proof.Machine.execFxFromint q o s
  | .fpExtract nosub norm => Sys2Proof.Machine.execFpExtract nosub norm s
  | .fpRndasm q nosub => Sys2Proof.Machine.execFpRndasm q nosub s
  | .fpAdd q nosub => Sys2Proof.Machine.execFpAdd q nosub s
  | .fpSub q nosub => Sys2Proof.Machine.execFpSub q nosub s
  | .fpMul q nosub => Sys2Proof.Machine.execFpMul q nosub s
  | .fpDiv q nosub => Sys2Proof.Machine.execFpDiv q nosub s
  | .fpFma q nosub => Sys2Proof.Machine.execFpFma q nosub s
  | .fpSqrt q nosub => Sys2Proof.Machine.execFpSqrt q nosub s
  | .fpEq => Sys2Proof.Machine.execFpEq s
  | .fpNe => Sys2Proof.Machine.execFpNe s
  | .fpLt => Sys2Proof.Machine.execFpLt s
  | .fpLe => Sys2Proof.Machine.execFpLe s
  | .fpGt => Sys2Proof.Machine.execFpGt s
  | .fpGe => Sys2Proof.Machine.execFpGe s
  | .fpCeil => Sys2Proof.Machine.execFpCeil s
  | .fpFloor => Sys2Proof.Machine.execFpFloor s
  | .fpTrunc => Sys2Proof.Machine.execFpTrunc s
  | .fpRound => Sys2Proof.Machine.execFpRound s
  | .cvFx2f q nosub => Sys2Proof.Machine.execCvFx2f q nosub s
  | .cvF2fx q o mapinf => Sys2Proof.Machine.execCvF2fx q o mapinf s
  | .cvF2f q nosub => Sys2Proof.Machine.execCvF2f q nosub s

end Sys2Proof.Machine
end

