-- ==== Sys2Proof/Decode.lean ====
section
/-! DEFINITION. The decoder of the operation-select word `OPSEL` (R77, R78, R86, R87) and, after it, the
encoder written from the same table. The decoder is total: it refuses by name what R86 calls illegal. A field
that the operation's format does not read is ignored whatever its value (R80, U4); the encoder writes 0 there
(log 9). -/

namespace Sys2Proof

/-- Why a word names no operation (R86); each is the contract violation `IllegalOperation`. -/
inductive DecodeError where
  /-- `OPSEL[15:14]` is not 0. -/
  | reservedBits
  /-- `OP` is not a code of the table of R78. -/
  | unknownOperation
  deriving DecidableEq, Repr

/-- The overflow mode of a 2-bit code (R83). -/
def overflowModeOf (c : BitVec 2) : OverflowMode :=
  match c.toNat with
  | 0 => .wrap
  | 1 => .saturate
  | 2 => .saturateToZero
  | _ => .saturateSymmetric

/-- The 2-bit code of an overflow mode (R83). -/
def overflowCode : OverflowMode → BitVec 2
  | .wrap => 0#2
  | .saturate => 1#2
  | .saturateToZero => 2#2
  | .saturateSymmetric => 3#2

/-- Field `OP`, bits 5 to 0 (R77). -/
def fieldOp (w : BitVec 16) : BitVec 6 := w.extractLsb' 0 6
/-- Field `Q`, bits 8 to 6 (R77). -/
def fieldQ (w : BitVec 16) : BitVec 3 := w.extractLsb' 6 3
/-- Field `O`, bits 10 and 9 (R77). -/
def fieldO (w : BitVec 16) : OverflowMode := overflowModeOf (w.extractLsb' 9 2)
/-- Flag `NOSUB`, bit 11 (R77). -/
def fieldNosub (w : BitVec 16) : Bool := w.getLsbD 11
/-- Flag `MAPINF`, bit 12 (R77). -/
def fieldMapinf (w : BitVec 16) : Bool := w.getLsbD 12
/-- Flag `NORM`, bit 13 (R77). -/
def fieldNorm (w : BitVec 16) : Bool := w.getLsbD 13
/-- The reserved bits 15 and 14 (R77). -/
def fieldReserved (w : BitVec 16) : BitVec 2 := w.extractLsb' 14 2

/-- The operation a word `OPSEL` names, or the reason it names none (R77, R78, R80, R86). -/
def decode (w : BitVec 16) : Except DecodeError Instr :=
  if fieldReserved w ≠ 0#2 then .error .reservedBits else
    let q := fieldQ w
    let o := fieldO w
    let nosub := fieldNosub w
    let mapinf := fieldMapinf w
    let norm := fieldNorm w
    match (fieldOp w).toNat with
    | 0x00 => .ok (.fxqCvt q o)
    | 0x01 => .ok (.fxqRnd q)
    | 0x02 => .ok (.fxqOvf o)
    | 0x08 => .ok (.fxAdd q o)
    | 0x09 => .ok (.fxSub q o)
    | 0x0A => .ok (.fxMul q o)
    | 0x0B => .ok (.fxDiv q o)
    | 0x0C => .ok (.fxAnd q o)
    | 0x0D => .ok (.fxOr q o)
    | 0x0E => .ok (.fxXor q o)
    | 0x0F => .ok (.fxShl q o)
    | 0x10 => .ok (.fxShr q o)
    | 0x11 => .ok (.fxNeg q o)
    | 0x12 => .ok (.fxNot q o)
    | 0x13 => .ok (.fxInc q o)
    | 0x14 => .ok (.fxDec q o)
    | 0x15 => .ok .fxEq
    | 0x16 => .ok .fxNe
    | 0x17 => .ok .fxLt
    | 0x18 => .ok .fxLe
    | 0x19 => .ok .fxGt
    | 0x1A => .ok .fxGe
    | 0x1B => .ok .fxSlc
    | 0x1C => .ok .fxSetslc
    | 0x1D => .ok .fxToint
    | 0x1E => .ok (.fxFromint q o)
    | 0x20 => .ok (.fpExtract nosub norm)
    | 0x21 => .ok (.fpRndasm q nosub)
    | 0x22 => .ok (.fpAdd q nosub)
    | 0x23 => .ok (.fpSub q nosub)
    | 0x24 => .ok (.fpMul q nosub)
    | 0x25 => .ok (.fpDiv q nosub)
    | 0x26 => .ok (.fpFma q nosub)
    | 0x27 => .ok (.fpSqrt q nosub)
    | 0x28 => .ok .fpEq
    | 0x29 => .ok .fpNe
    | 0x2A => .ok .fpLt
    | 0x2B => .ok .fpLe
    | 0x2C => .ok .fpGt
    | 0x2D => .ok .fpGe
    | 0x2E => .ok .fpCeil
    | 0x2F => .ok .fpFloor
    | 0x30 => .ok .fpTrunc
    | 0x31 => .ok .fpRound
    | 0x38 => .ok (.cvFx2f q nosub)
    | 0x39 => .ok (.cvF2fx q o mapinf)
    | 0x3A => .ok (.cvF2f q nosub)
    | _ => .error .unknownOperation

/-- `OPSEL` assembled from its fields, the reserved bits 0 (R77). -/
def opselWord (op : BitVec 6) (q : BitVec 3) (o : OverflowMode) (nosub mapinf norm : Bool) : BitVec 16 :=
  0#2 ++ BitVec.ofBool norm ++ BitVec.ofBool mapinf ++ BitVec.ofBool nosub ++ overflowCode o ++ q ++ op

/-- The word of an instruction (R77, R78), with 0 in every field its format does not read (R80). -/
def encode : Instr → BitVec 16
  | .fxqCvt q o => opselWord 0x00#6 q o false false false
  | .fxqRnd q => opselWord 0x01#6 q .wrap false false false
  | .fxqOvf o => opselWord 0x02#6 0#3 o false false false
  | .fxAdd q o => opselWord 0x08#6 q o false false false
  | .fxSub q o => opselWord 0x09#6 q o false false false
  | .fxMul q o => opselWord 0x0A#6 q o false false false
  | .fxDiv q o => opselWord 0x0B#6 q o false false false
  | .fxAnd q o => opselWord 0x0C#6 q o false false false
  | .fxOr q o => opselWord 0x0D#6 q o false false false
  | .fxXor q o => opselWord 0x0E#6 q o false false false
  | .fxShl q o => opselWord 0x0F#6 q o false false false
  | .fxShr q o => opselWord 0x10#6 q o false false false
  | .fxNeg q o => opselWord 0x11#6 q o false false false
  | .fxNot q o => opselWord 0x12#6 q o false false false
  | .fxInc q o => opselWord 0x13#6 q o false false false
  | .fxDec q o => opselWord 0x14#6 q o false false false
  | .fxEq => opselWord 0x15#6 0#3 .wrap false false false
  | .fxNe => opselWord 0x16#6 0#3 .wrap false false false
  | .fxLt => opselWord 0x17#6 0#3 .wrap false false false
  | .fxLe => opselWord 0x18#6 0#3 .wrap false false false
  | .fxGt => opselWord 0x19#6 0#3 .wrap false false false
  | .fxGe => opselWord 0x1A#6 0#3 .wrap false false false
  | .fxSlc => opselWord 0x1B#6 0#3 .wrap false false false
  | .fxSetslc => opselWord 0x1C#6 0#3 .wrap false false false
  | .fxToint => opselWord 0x1D#6 0#3 .wrap false false false
  | .fxFromint q o => opselWord 0x1E#6 q o false false false
  | .fpExtract nosub norm => opselWord 0x20#6 0#3 .wrap nosub false norm
  | .fpRndasm q nosub => opselWord 0x21#6 q .wrap nosub false false
  | .fpAdd q nosub => opselWord 0x22#6 q .wrap nosub false false
  | .fpSub q nosub => opselWord 0x23#6 q .wrap nosub false false
  | .fpMul q nosub => opselWord 0x24#6 q .wrap nosub false false
  | .fpDiv q nosub => opselWord 0x25#6 q .wrap nosub false false
  | .fpFma q nosub => opselWord 0x26#6 q .wrap nosub false false
  | .fpSqrt q nosub => opselWord 0x27#6 q .wrap nosub false false
  | .fpEq => opselWord 0x28#6 0#3 .wrap false false false
  | .fpNe => opselWord 0x29#6 0#3 .wrap false false false
  | .fpLt => opselWord 0x2A#6 0#3 .wrap false false false
  | .fpLe => opselWord 0x2B#6 0#3 .wrap false false false
  | .fpGt => opselWord 0x2C#6 0#3 .wrap false false false
  | .fpGe => opselWord 0x2D#6 0#3 .wrap false false false
  | .fpCeil => opselWord 0x2E#6 0#3 .wrap false false false
  | .fpFloor => opselWord 0x2F#6 0#3 .wrap false false false
  | .fpTrunc => opselWord 0x30#6 0#3 .wrap false false false
  | .fpRound => opselWord 0x31#6 0#3 .wrap false false false
  | .cvFx2f q nosub => opselWord 0x38#6 q .wrap nosub false false
  | .cvF2fx q o mapinf => opselWord 0x39#6 q o false mapinf false
  | .cvF2f q nosub => opselWord 0x3A#6 q .wrap nosub false false

/-- The instruction read from a word of `nbits` bits as spec/opcode_table.json numbers them, every bit above
`nbits` being 0; `none` where the decoder refuses. -/
def decodeTableWord (nbits w : Nat) : Option Instr :=
  match decode (BitVec.ofNat 16 (w % 2 ^ nbits)) with
  | .ok i => some i
  | .error _ => none

end Sys2Proof
end

