-- ==== Sys2Proof/Machine/Fetch.lean ====
section
/-! DEFINITION. What the block does with the host's next input (R20, R58): which of the cases of a step it is,
and the state the block serves the request from. The block fetches nothing from a memory (R23, R62). -/

namespace Sys2Proof.Machine

/-- The cases of a step. -/
inductive Fetched where
  /-- Nothing is presented (log 3). -/
  | idle
  /-- Reset was asserted: the state after it. -/
  | reset (s : State)
  /-- A request whose `OPSEL` names no operation: the state it is refused from. -/
  | illegal (s : State)
  /-- A request for the operation `i`: the state it is served from. -/
  | run (i : Instr) (s : State)
  deriving DecidableEq, Repr

/-- The case of the next step: reset drops a request presented with it (R410); a request is read whole, its
operands with it (R53), and its `OPSEL` decoded (R77). -/
def fetch (s : State) : Fetched :=
  match s.inbox with
  | [] => .idle
  | .reset _ :: rest => .reset (s.withInbox rest).assertReset
  | .request r :: rest =>
    match decode r.opsel with
    | .ok i => .run i ((s.withInbox rest).present r)
    | .error _ => .illegal ((s.withInbox rest).present r)

/-- The outcome of a request that decodes to no operation (R86, R371): `IllegalOperation`, the first check of
R373, or `Halted` from a halted block (R375). -/
def refuseIllegal (s : State) : Host.Outcome State Fault Refusal := serve s (.error .illegalOperation)

/-- The host's request for the table word `w`: `OPSEL` is the word, and every other field is as the request
last held leaves it (log 2). -/
def requestOfWord (s : State) (nbits w : Nat) : Request :=
  { s.request with opsel := BitVec.ofNat 16 (w % 2 ^ nbits) }

end Sys2Proof.Machine
end

