-- ==== Sys2Proof/Machine/Step.lean ====
section
/-! DEFINITION. One step: the block takes what the host does next at its interface and, if that is a request,
serves it whole (R20, R58). -/

namespace Sys2Proof.Machine

/-- One step of the block. -/
def step (s : State) : Host.Outcome State Fault Refusal :=
  match fetch s with
  | .idle => .next s
  | .reset t => .next t
  | .illegal t => refuseIllegal t
  | .run i t => exec i t

/-- `s` with the instruction of the table word `w` presented as the host's next request, so that the very next
step serves it (log 2). The operand fields are those of the request last held. -/
def State.withFetchWord (s : State) (nbits w : Nat) : State :=
  s.withInbox (.request (requestOfWord s nbits w) :: s.inbox)

end Sys2Proof.Machine
end

