-- ==== Sys2Proof/Machine/Promotion.lean ====
section
/-! DEFINITION. The result specs of R152, by which the surrounding software chooses `DST` when the user writes no
cast (R151). The block itself takes `DST` from the request (U26): no meaning reads these formulas. -/

namespace Sys2Proof.Machine

/-- `Ip` of R152: the integer bits that hold both operands under a common signedness. -/
def promotedI (a b : FixedSpec) : Int :=
  max (a.i + (b.s && !a.s).toNat) (b.i + (a.s && !b.s).toNat)

/-- The spec of `I` integer and `F` fractional bits. -/
def specOfParts (i f : Int) (s : Bool) : FixedSpec := ⟨(i + f).toNat, i, s⟩

/-- Result spec of `+` (R152). -/
def promotedAdd (a b : FixedSpec) : FixedSpec := specOfParts (promotedI a b + 1) (max a.f b.f) (a.s || b.s)

/-- Result spec of `−` (R152). -/
def promotedSub (a b : FixedSpec) : FixedSpec := specOfParts (promotedI a b + 1) (max a.f b.f) true

/-- Result spec of `*` (R152). -/
def promotedMul (a b : FixedSpec) : FixedSpec := ⟨a.w + b.w, a.i + b.i, a.s || b.s⟩

/-- Result spec of the bitwise operators (R152). -/
def promotedBitwise (a b : FixedSpec) : FixedSpec := specOfParts (promotedI a b) (max a.f b.f) (a.s || b.s)

/-- Result spec of unary `−` (R152). -/
def promotedNeg (a : FixedSpec) : FixedSpec := ⟨a.w + 1, a.i + 1, true⟩

/-- Result spec of `~` (R152). -/
def promotedNot (a : FixedSpec) : FixedSpec := ⟨a.w + (!a.s).toNat, a.i + (!a.s).toNat, true⟩

/-- Result spec of shifts, increment and decrement (R152). -/
def promotedSame (a : FixedSpec) : FixedSpec := a

end Sys2Proof.Machine
end

