-- ==== Sys2Proof/WellFormed.lean ====
section
/-! DEFINITION. Well-formedness of an instruction as syntax: its field `Q` names a mode that its operation
supports (R82, R84, R86). An ill-formed instruction still decodes and is still served: the block answers it
with the contract violation `UnsupportedRoundingMode`, after the specs have been checked (R373). -/

namespace Sys2Proof

/-- `Q` names one of the seven fixed-point rounding modes: 7 is reserved (R82). -/
def fixedModeCode (q : BitVec 3) : Bool := q ≠ 7#3

/-- `Q` names one of the four floating-point rounding modes, codes 3, 4, 5 and 6 (R84). -/
def floatModeCode (q : BitVec 3) : Bool := q = 3#3 || q = 4#3 || q = 5#3 || q = 6#3

/-- The mode field of the instruction, where its format reads one, is a supported mode (R80, R86). -/
def WellFormed : Instr → Bool
  | .fxqCvt q _ => fixedModeCode q
  | .fxqRnd q => fixedModeCode q
  | .fxqOvf _ => true
  | .fxAdd q _ => fixedModeCode q
  | .fxSub q _ => fixedModeCode q
  | .fxMul q _ => fixedModeCode q
  | .fxDiv q _ => fixedModeCode q
  | .fxAnd q _ => fixedModeCode q
  | .fxOr q _ => fixedModeCode q
  | .fxXor q _ => fixedModeCode q
  | .fxShl q _ => fixedModeCode q
  | .fxShr q _ => fixedModeCode q
  | .fxNeg q _ => fixedModeCode q
  | .fxNot q _ => fixedModeCode q
  | .fxInc q _ => fixedModeCode q
  | .fxDec q _ => fixedModeCode q
  | .fxEq => true
  | .fxNe => true
  | .fxLt => true
  | .fxLe => true
  | .fxGt => true
  | .fxGe => true
  | .fxSlc => true
  | .fxSetslc => true
  | .fxToint => true
  | .fxFromint q _ => fixedModeCode q
  | .fpExtract _ _ => true
  | .fpRndasm q _ => floatModeCode q
  | .fpAdd q _ => floatModeCode q
  | .fpSub q _ => floatModeCode q
  | .fpMul q _ => floatModeCode q
  | .fpDiv q _ => floatModeCode q
  | .fpFma q _ => floatModeCode q
  | .fpSqrt q _ => floatModeCode q
  | .fpEq => true
  | .fpNe => true
  | .fpLt => true
  | .fpLe => true
  | .fpGt => true
  | .fpGe => true
  | .fpCeil => true
  | .fpFloor => true
  | .fpTrunc => true
  | .fpRound => true
  | .cvFx2f q _ => floatModeCode q
  | .cvF2fx q _ _ => fixedModeCode q
  | .cvF2f q _ => floatModeCode q

end Sys2Proof
end

