-- ==== Sys2Proof/Safety.lean ====
section
/-! DEFINITION. The terms in which claims are stated: what a legal operand is, the operands of a request, the
value of a result pattern, and what the halt state is like in every state a run can reach. -/

namespace Sys2Proof.Machine

/-! ## Legal operands -/

/-- The record is a legal fixed spec of the instance (R9, R372 (a), (c)). -/
abbrev SpecRecord.FixedLegal (rec : SpecRecord) (cfg : Config) : Prop :=
  1 ≤ rec.w ∧ withinMax cfg rec.w = true

/-- The record is a legal float spec of the instance (R9, R372 (b), (c)). -/
abbrev SpecRecord.FloatLegal (rec : SpecRecord) (cfg : Config) : Prop :=
  2 ≤ rec.e ∧ rec.e + 2 ≤ rec.w ∧ withinMax cfg rec.w = true

/-- The pattern has the width its spec record names (R372 (i)). -/
abbrev SpecRecord.Fits (rec : SpecRecord) (p : Bits) : Prop := (p.width : Int) = rec.w

/-- The fixed spec a record stands for. -/
def SpecRecord.fixed (rec : SpecRecord) : FixedSpec := ⟨rec.w.toNat, rec.i, rec.s⟩

/-- The float spec a record stands for. -/
def SpecRecord.float (rec : SpecRecord) : FloatSpec := ⟨rec.w.toNat, rec.e.toNat⟩

/-- The fixed operand of a record and a pattern (R81). -/
def SpecRecord.fixedOf (rec : SpecRecord) (p : Bits) : FixedOperand := ⟨rec.fixed, fixedInt rec.s p⟩

/-- The float operand of a record and a pattern (R81). -/
def SpecRecord.floatOf (rec : SpecRecord) (p : Bits) : FloatOperand := ⟨rec.float, uint p⟩

/-- The block serves the request held in `s` as a fixed operation on one operand: not halted, and specs and
pattern legal. -/
abbrev FixedReady1 (s : State) : Prop :=
  s.halted = false ∧ s.request.srcA.FixedLegal s.cfg ∧ s.request.srcA.Fits s.request.a ∧
    s.request.dst.FixedLegal s.cfg

/-- As `FixedReady1`, with two operands and no destination (a comparison reads none). -/
abbrev FixedReadyPair (s : State) : Prop :=
  s.halted = false ∧ s.request.srcA.FixedLegal s.cfg ∧ s.request.srcA.Fits s.request.a ∧
    s.request.srcB.FixedLegal s.cfg ∧ s.request.srcB.Fits s.request.b

/-- As `FixedReadyPair`, with a destination. -/
abbrev FixedReady2 (s : State) : Prop := FixedReadyPair s ∧ s.request.dst.FixedLegal s.cfg

/-- The block serves the request held in `s` as a float operation on one operand of the spec of the result. -/
abbrev FloatReady1 (s : State) : Prop :=
  s.halted = false ∧ s.request.srcA.FloatLegal s.cfg ∧ s.request.srcA.Fits s.request.a ∧
    s.request.dst.FloatLegal s.cfg ∧ s.request.dst.float = s.request.srcA.float

/-- As a float operation on two operands of one spec, with no destination (a comparison reads none). -/
abbrev FloatReadyPair (s : State) : Prop :=
  s.halted = false ∧ s.request.srcA.FloatLegal s.cfg ∧ s.request.srcA.Fits s.request.a ∧
    s.request.srcB.FloatLegal s.cfg ∧ s.request.srcB.Fits s.request.b ∧
    s.request.srcB.float = s.request.srcA.float

/-- As a float operation on two operands of the spec of the result. -/
abbrev FloatReady2 (s : State) : Prop :=
  FloatReadyPair s ∧ s.request.dst.FloatLegal s.cfg ∧ s.request.dst.float = s.request.srcA.float

/-- As a float operation on three operands of the spec of the result. -/
abbrev FloatReady3 (s : State) : Prop :=
  FloatReady2 s ∧ s.request.srcC.FloatLegal s.cfg ∧ s.request.srcC.Fits s.request.c ∧
    s.request.srcC.float = s.request.srcA.float

/-- Operand `A` as a fixed operand. -/
def Request.fixedA (r : Request) : FixedOperand := r.srcA.fixedOf r.a
/-- Operand `B` as a fixed operand. -/
def Request.fixedB (r : Request) : FixedOperand := r.srcB.fixedOf r.b
/-- Operand `A` as a float operand. -/
def Request.floatA (r : Request) : FloatOperand := r.srcA.floatOf r.a
/-- Operand `B` as a float operand. -/
def Request.floatB (r : Request) : FloatOperand := r.srcB.floatOf r.b
/-- Operand `C` as a float operand. -/
def Request.floatC (r : Request) : FloatOperand := r.srcC.floatOf r.c

/-- The value a result pattern stands for under a fixed spec (R71). -/
def fxVal (d : FixedSpec) (p : Bits) : ℚ := fixedInt d.s p * (2 : ℚ) ^ (-d.f)

/-- The extract record of an operand after the `NOSUB` flush (R202, R205). -/
def FloatOperand.input (a : FloatOperand) (nosub : Bool) : Extracted := a.extract.flush a.spec nosub

/-- A float spec within R9, for claims about the units alone. -/
abbrev FloatSpec.Legal (f : FloatSpec) : Prop := 2 ≤ f.e ∧ f.e + 2 ≤ f.w

/-- A record of class Zero, Subnormal or Normal: one with a value (R75). -/
abbrev Extracted.Finite (x : Extracted) : Prop := x.cls ≠ .nan ∧ x.cls ≠ .infinity

/-- The state after a request is served with the response that has `R` alone: the host has it, and nothing else
has changed. -/
def State.answer (s : State) (r : Bits) : State := s.deliver (.done (.ofR r))

/-! ## When a request is served (R372, R373) -/

/-- Stage 2 of R373, condition by condition of R372 (a) to (g) and (i), for the fields the operation reads. -/
def SpecsLegal (i : Instr) (cfg : Config) (r : Request) : Prop :=
  let fixedA := r.srcA.FixedLegal cfg ∧ r.srcA.Fits r.a
  let fixedB := r.srcB.FixedLegal cfg ∧ r.srcB.Fits r.b
  let fixedD := r.dst.FixedLegal cfg
  let floatA := r.srcA.FloatLegal cfg ∧ r.srcA.Fits r.a
  let floatB := r.srcB.FloatLegal cfg ∧ r.srcB.Fits r.b ∧ r.srcB.float = r.srcA.float
  let floatC := r.srcC.FloatLegal cfg ∧ r.srcC.Fits r.c ∧ r.srcC.float = r.srcA.float
  let floatD := r.dst.FloatLegal cfg
  let sameD := r.dst.float = r.srcA.float
  match i with
  | .fxqCvt _ _ | .fxqRnd _ | .fxNeg _ _ | .fxNot _ _ | .fxInc _ _ | .fxDec _ _ => fixedA ∧ fixedD
  | .fxqOvf _ => fixedD
  | .fxAdd _ _ | .fxSub _ _ | .fxMul _ _ | .fxDiv _ _ | .fxAnd _ _ | .fxOr _ _ | .fxXor _ _ =>
    fixedA ∧ fixedB ∧ fixedD
  | .fxShl _ _ | .fxShr _ _ => fixedA ∧ fixedD ∧ 0 ≤ r.n
  | .fxEq | .fxNe | .fxLt | .fxLe | .fxGt | .fxGe => fixedA ∧ fixedB
  | .fxSlc => fixedA
  | .fxSetslc => fixedA ∧ fixedB ∧ r.srcB.w = r.n
  | .fxToint => fixedA ∧ fixedD ∧ r.dst.i = r.dst.w
  | .fxFromint _ _ => fixedA ∧ fixedD ∧ r.srcA.i = r.srcA.w
  | .fpExtract _ _ => floatA
  | .fpRndasm _ _ => floatD
  | .fpAdd _ _ | .fpSub _ _ | .fpMul _ _ | .fpDiv _ _ => floatA ∧ floatB ∧ floatD ∧ sameD
  | .fpFma _ _ => floatA ∧ floatB ∧ floatC ∧ floatD ∧ sameD
  | .fpSqrt _ _ | .fpCeil | .fpFloor | .fpTrunc | .fpRound => floatA ∧ floatD ∧ sameD
  | .fpEq | .fpNe | .fpLt | .fpLe | .fpGt | .fpGe => floatA ∧ floatB
  | .cvFx2f _ _ => fixedA ∧ floatD
  | .cvF2fx _ _ _ => floatA ∧ fixedD
  | .cvF2f _ _ => floatA ∧ floatD

/-- Stage 4 of R373: the operand-dependent conditions. Only five operations have one (R371, R372 (h)). -/
def OperandsLegal (i : Instr) (r : Request) : Prop :=
  match i with
  | .fxDiv _ _ => fixedInt r.srcB.s r.b ≠ 0
  | .fxSlc | .fxSetslc => 0 ≤ r.lsb ∧ 1 ≤ r.n ∧ r.lsb + r.n ≤ r.srcA.w
  | .fpRndasm _ _ => 0 ≤ r.xm ∧ (r.xk = true → 2 ^ (r.dst.float.m + 1) ≤ r.xm)
  | .cvF2fx _ _ mapinf => mapinf = true ∨ (r.floatA.cls ≠ .nan ∧ r.floatA.cls ≠ .infinity)
  | .fxqCvt _ _ | .fxqRnd _ | .fxqOvf _ | .fxAdd _ _ | .fxSub _ _ | .fxMul _ _ | .fxAnd _ _ | .fxOr _ _
  | .fxXor _ _ | .fxShl _ _ | .fxShr _ _ | .fxNeg _ _ | .fxNot _ _ | .fxInc _ _ | .fxDec _ _ | .fxEq | .fxNe
  | .fxLt | .fxLe | .fxGt | .fxGe | .fxToint | .fxFromint _ _ | .fpExtract _ _ | .fpAdd _ _ | .fpSub _ _
  | .fpMul _ _ | .fpDiv _ _ | .fpFma _ _ | .fpSqrt _ _ | .fpEq | .fpNe | .fpLt | .fpLe | .fpGt | .fpGe
  | .fpCeil | .fpFloor | .fpTrunc | .fpRound | .cvFx2f _ _ | .cvF2f _ _ => True

/-- The cause an operation's operand-dependent violation records (R371); the operations that have none are
given the code of a slice, which nothing reads. -/
def operandCause : Instr → Cause
  | .fxDiv _ _ => .fixedDivideByZero
  | .fpRndasm _ _ => .malformedSpec
  | .cvF2fx _ _ _ => .nonFiniteToFixed
  | .fxSlc | .fxSetslc | .fxqCvt _ _ | .fxqRnd _ | .fxqOvf _ | .fxAdd _ _ | .fxSub _ _ | .fxMul _ _
  | .fxAnd _ _ | .fxOr _ _ | .fxXor _ _ | .fxShl _ _ | .fxShr _ _ | .fxNeg _ _ | .fxNot _ _ | .fxInc _ _
  | .fxDec _ _ | .fxEq | .fxNe | .fxLt | .fxLe | .fxGt | .fxGe | .fxToint | .fxFromint _ _ | .fpExtract _ _
  | .fpAdd _ _ | .fpSub _ _ | .fpMul _ _ | .fpDiv _ _ | .fpFma _ _ | .fpSqrt _ _ | .fpEq | .fpNe | .fpLt
  | .fpLe | .fpGt | .fpGe | .fpCeil | .fpFloor | .fpTrunc | .fpRound | .cvFx2f _ _ | .cvF2f _ _ =>
    .sliceOutOfRange

/-! ## What an operation reads of a request (R24, R80) -/

/-- A record with the field a fixed spec has not made blank. -/
def SpecRecord.asFixed (rec : SpecRecord) : SpecRecord := { rec with e := SpecRecord.blank.e }

/-- A record with the fields a float spec has not made blank. -/
def SpecRecord.asFloat (rec : SpecRecord) : SpecRecord :=
  { rec with i := SpecRecord.blank.i, s := SpecRecord.blank.s }

/-- The request with every field that the operation does not name made blank (R24, R80). -/
def Request.readBy (i : Instr) (r : Request) : Request :=
  match i with
  | .fxqCvt _ _ | .fxqRnd _ | .fxNeg _ _ | .fxNot _ _ | .fxInc _ _ | .fxDec _ _ | .fxToint | .fxFromint _ _ =>
    { Request.blank with srcA := r.srcA.asFixed, a := r.a, dst := r.dst.asFixed }
  | .fxqOvf _ => { Request.blank with dst := r.dst.asFixed, t := r.t }
  | .fxAdd _ _ | .fxSub _ _ | .fxMul _ _ | .fxDiv _ _ | .fxAnd _ _ | .fxOr _ _ | .fxXor _ _ =>
    { Request.blank with
      srcA := r.srcA.asFixed, a := r.a, srcB := r.srcB.asFixed, b := r.b, dst := r.dst.asFixed }
  | .fxShl _ _ | .fxShr _ _ =>
    { Request.blank with srcA := r.srcA.asFixed, a := r.a, dst := r.dst.asFixed, n := r.n }
  | .fxEq | .fxNe | .fxLt | .fxLe | .fxGt | .fxGe =>
    { Request.blank with srcA := r.srcA.asFixed, a := r.a, srcB := r.srcB.asFixed, b := r.b }
  | .fxSlc => { Request.blank with srcA := r.srcA.asFixed, a := r.a, n := r.n, lsb := r.lsb }
  | .fxSetslc =>
    { Request.blank with
      srcA := r.srcA.asFixed, a := r.a, srcB := r.srcB.asFixed, b := r.b, n := r.n, lsb := r.lsb }
  | .fpExtract _ _ => { Request.blank with srcA := r.srcA.asFloat, a := r.a }
  | .fpRndasm _ _ =>
    { Request.blank with dst := r.dst.asFloat, xs := r.xs, xe := r.xe, xm := r.xm, xk := r.xk }
  | .fpAdd _ _ | .fpSub _ _ | .fpMul _ _ | .fpDiv _ _ =>
    { Request.blank with
      srcA := r.srcA.asFloat, a := r.a, srcB := r.srcB.asFloat, b := r.b, dst := r.dst.asFloat }
  | .fpFma _ _ =>
    { Request.blank with
      srcA := r.srcA.asFloat, a := r.a, srcB := r.srcB.asFloat, b := r.b, srcC := r.srcC.asFloat, c := r.c,
      dst := r.dst.asFloat }
  | .fpSqrt _ _ | .fpCeil | .fpFloor | .fpTrunc | .fpRound =>
    { Request.blank with srcA := r.srcA.asFloat, a := r.a, dst := r.dst.asFloat }
  | .fpEq | .fpNe | .fpLt | .fpLe | .fpGt | .fpGe =>
    { Request.blank with srcA := r.srcA.asFloat, a := r.a, srcB := r.srcB.asFloat, b := r.b }
  | .cvFx2f _ _ => { Request.blank with srcA := r.srcA.asFixed, a := r.a, dst := r.dst.asFloat }
  | .cvF2fx _ _ _ => { Request.blank with srcA := r.srcA.asFloat, a := r.a, dst := r.dst.asFixed }
  | .cvF2f _ _ => { Request.blank with srcA := r.srcA.asFloat, a := r.a, dst := r.dst.asFloat }

/-- The width of the result `R` of an operation, where it has one (R24, R80): the destination's, 1 for a
comparison, `N` for a slice, the operand's where a slice of it is replaced. -/
def resultWidth (i : Instr) (r : Request) : Option Int :=
  match i with
  | .fxqRnd _ | .fpExtract _ _ => none
  | .fxEq | .fxNe | .fxLt | .fxLe | .fxGt | .fxGe | .fpEq | .fpNe | .fpLt | .fpLe | .fpGt | .fpGe => some 1
  | .fxSlc => some r.n
  | .fxSetslc => some r.srcA.w
  | .fxqCvt _ _ | .fxqOvf _ | .fxAdd _ _ | .fxSub _ _ | .fxMul _ _ | .fxDiv _ _ | .fxAnd _ _ | .fxOr _ _
  | .fxXor _ _ | .fxShl _ _ | .fxShr _ _ | .fxNeg _ _ | .fxNot _ _ | .fxInc _ _ | .fxDec _ _ | .fxToint
  | .fxFromint _ _ | .fpRndasm _ _ | .fpAdd _ _ | .fpSub _ _ | .fpMul _ _ | .fpDiv _ _ | .fpFma _ _
  | .fpSqrt _ _ | .fpCeil | .fpFloor | .fpTrunc | .fpRound | .cvFx2f _ _ | .cvF2fx _ _ _ | .cvF2f _ _ =>
    some r.dst.w

/-! ## The results of the float units, row by row -/

/-- What R242 and R244 say of the result `r` of an addition of the flushed operands `a` and `b`. -/
def AddRows (cfg : Config) (f : FloatSpec) (rm : FloatMode) (nosub : Bool) (a b : Extracted) (r : Bits) :
    Prop :=
  (a.cls = .nan ∨ b.cls = .nan → r = nanResult cfg f [a, b]) ∧
  (a.cls = .infinity → b.cls = .infinity → a.sign = b.sign → r = f.inf a.sign) ∧
  (a.cls = .infinity → b.cls = .infinity → a.sign ≠ b.sign → r = nanResult cfg f [a, b]) ∧
  (a.cls = .infinity → b.Finite → r = f.inf a.sign) ∧
  (a.Finite → b.cls = .infinity → r = f.inf b.sign) ∧
  (a.cls = .zero → b.cls = .zero → r = f.zero (a.sign && b.sign)) ∧
  (a.Finite → b.Finite → ¬ (a.cls = .zero ∧ b.cls = .zero) →
    (a.val f + b.val f = 0 → r = f.zero false) ∧
    (a.val f + b.val f ≠ 0 → r = roundAssemble cfg f rm nosub (a.val f + b.val f < 0) |a.val f + b.val f|))

/-- What R250 and R252 say of the result `r` of a multiplication. -/
def MulRows (cfg : Config) (f : FloatSpec) (rm : FloatMode) (nosub : Bool) (a b : Extracted) (r : Bits) :
    Prop :=
  (a.cls = .nan ∨ b.cls = .nan → r = nanResult cfg f [a, b]) ∧
  (a.cls = .zero ∧ b.cls = .infinity ∨ a.cls = .infinity ∧ b.cls = .zero → r = nanResult cfg f [a, b]) ∧
  (a.cls = .infinity → b.cls ≠ .nan → b.cls ≠ .zero → r = f.inf (a.sign ^^ b.sign)) ∧
  (b.cls = .infinity → a.cls ≠ .nan → a.cls ≠ .zero → r = f.inf (a.sign ^^ b.sign)) ∧
  (a.cls = .zero → b.Finite → r = f.zero (a.sign ^^ b.sign)) ∧
  (b.cls = .zero → a.Finite → r = f.zero (a.sign ^^ b.sign)) ∧
  (a.Finite → b.Finite → a.cls ≠ .zero → b.cls ≠ .zero →
    r = roundAssemble cfg f rm nosub (a.sign ^^ b.sign) (|a.val f| * |b.val f|))

/-- What R255, R256 and R259 say of the result `r` of a division. -/
def DivRows (cfg : Config) (f : FloatSpec) (rm : FloatMode) (nosub : Bool) (a b : Extracted) (r : Bits) :
    Prop :=
  (a.cls = .nan ∨ b.cls = .nan → r = nanResult cfg f [a, b]) ∧
  (a.cls = .infinity → b.cls = .infinity → r = nanResult cfg f [a, b]) ∧
  (a.cls = .zero → b.cls = .zero → r = nanResult cfg f [a, b]) ∧
  (a.cls = .infinity → b.Finite → r = f.inf (a.sign ^^ b.sign)) ∧
  (a.Finite → b.cls = .infinity → r = f.zero (a.sign ^^ b.sign)) ∧
  (a.Finite → a.cls ≠ .zero → b.cls = .zero →
    r = f.inf (if cfg.div0SignOfDividend then a.sign else a.sign ^^ b.sign)) ∧
  (a.cls = .zero → b.Finite → b.cls ≠ .zero → r = f.zero (a.sign ^^ b.sign)) ∧
  (a.Finite → b.Finite → a.cls ≠ .zero → b.cls ≠ .zero →
    r = roundAssemble cfg f rm nosub (a.sign ^^ b.sign) (|a.val f| / |b.val f|))

/-- What R264 and R267 say of the result `r` of a fused multiply-add; `c` is the pattern of the addend. -/
def FmaRows (cfg : Config) (f : FloatSpec) (rm : FloatMode) (nosub : Bool) (a b c : Extracted) (pc r : Bits) :
    Prop :=
  (a.cls = .nan ∨ b.cls = .nan ∨ c.cls = .nan → r = nanResult cfg f [a, b, c]) ∧
  (a.cls = .zero ∧ b.cls = .infinity ∨ a.cls = .infinity ∧ b.cls = .zero → r = nanResult cfg f [a, b, c]) ∧
  (a.cls ≠ .nan → b.cls ≠ .nan → a.cls ≠ .zero → b.cls ≠ .zero → a.cls = .infinity ∨ b.cls = .infinity →
    (c.cls = .infinity → c.sign ≠ (a.sign ^^ b.sign) → r = nanResult cfg f [a, b, c]) ∧
    (c.cls ≠ .nan → ¬ (c.cls = .infinity ∧ c.sign ≠ (a.sign ^^ b.sign)) → r = f.inf (a.sign ^^ b.sign))) ∧
  (a.Finite → b.Finite → c.cls = .infinity → r = f.inf c.sign) ∧
  (a.Finite → b.Finite → a.cls = .zero ∨ b.cls = .zero →
    (c.cls = .zero → r = f.zero ((a.sign ^^ b.sign) && c.sign)) ∧ (c.Finite → c.cls ≠ .zero → r = pc)) ∧
  (a.Finite → b.Finite → c.Finite → a.cls ≠ .zero → b.cls ≠ .zero →
    (a.val f * b.val f + c.val f = 0 → r = f.zero false) ∧
    (a.val f * b.val f + c.val f ≠ 0 →
      r = roundAssemble cfg f rm nosub (a.val f * b.val f + c.val f < 0) |a.val f * b.val f + c.val f|))

/-- The value of a non-NaN pattern on the line extended by the two Infinities (R310). -/
def FloatOperand.extVal (a : FloatOperand) : WithBot (WithTop ℚ) :=
  if a.cls = .infinity then (if a.sign then ⊥ else ((⊤ : WithTop ℚ) : WithBot (WithTop ℚ)))
  else ((a.val : WithTop ℚ) : WithBot (WithTop ℚ))

/-- A result pattern read as a float operand of spec `f`. -/
def FloatSpec.read (f : FloatSpec) (r : Bits) : FloatOperand := ⟨f, uint r⟩

/-- A pattern of class Zero, Subnormal or Normal: one with a value (R75). -/
abbrev FloatOperand.Finite (a : FloatOperand) : Prop := a.cls ≠ .nan ∧ a.cls ≠ .infinity

/-! ## What rounding once gives -/

/-- The tie above `MaxFinite`, half way between it and `2^(emax+1)` (R214). -/
def FloatSpec.overflowTie (f : FloatSpec) : ℚ := (2 ^ (f.m + 1) - 1 / 2) * 2 ^ (f.emax - f.m)

/-- A magnitude overflows under a nearest mode iff its rounded magnitude exceeds `MaxFinite`: above the tie, and at
it too unless the mode takes a tie to the odd mantissa, which is that of `MaxFinite` (R210, R212, R214). -/
abbrev FloatSpec.Overflows (f : FloatSpec) (rm : FloatMode) (x : ℚ) : Prop :=
  f.overflowTie < x ∨ x = f.overflowTie ∧ rm ≠ .roundNearestOdd

/-- What R210 says of the value `r` that a nearest mode takes from a tie between `r` and `p`: the even mantissa, the
larger magnitude, or the odd mantissa. -/
def TieRule (rm : FloatMode) (r p : FloatOperand) : Prop :=
  match rm with
  | .truncateTowardZero => True
  | .roundNearestEven => r.mf % 2 = 0
  | .roundNearestAwayFromZero => |p.val| < |r.val|
  | .roundNearestOdd => r.mf % 2 = 1

/-- What R215 makes of the unflushed result `u` with sign `s`: under `NOSUB` the zero of that sign, where `u` is
Subnormal (`after_rounding`) or where the exact magnitude lies below `2^emin`, which `tiny` says
(`before_rounding`). -/
def flushOutput (cfg : Config) (f : FloatSpec) (nosub s : Bool) (tiny : Prop) [Decidable tiny] (u : Bits) : Bits :=
  if nosub = true ∧
      (match cfg.ftzRule with
        | .afterRounding => (f.read u).cls == .subnormal
        | .beforeRounding => decide tiny) = true
  then f.zero s
  else u

/-- `u` is the real square root of `x` correctly rounded: the largest representable value not above it under
TruncateTowardZero, a nearest one otherwise; never negative and never an Infinity (R271, R274, R276). -/
def RootRounded (f : FloatSpec) (rm : FloatMode) (x : ℚ) (u : Bits) : Prop :=
  u.width = f.w ∧ (f.read u).Finite ∧ (f.read u).sign = false ∧
  (rm = .truncateTowardZero →
    (f.read u).val ^ 2 ≤ x ∧
    ∀ p : FloatOperand, p.spec = f → p.Finite → 0 ≤ p.val → p.val ^ 2 ≤ x → p.val ≤ (f.read u).val) ∧
  (rm ≠ .truncateTowardZero →
    ∀ p : FloatOperand, p.spec = f → p.Finite →
      |Real.sqrt x - (f.read u).val| ≤ |Real.sqrt x - p.val|)

/-! ## The halt state -/

/-- What holds of the halt state in every state a run can reach (R26, R371, R375): `HALT_CAUSE` is 0 while the
block is not halted, and one of the six causes while it is; the codes 7 to 15 never appear. -/
abbrev HaltInv (s : State) : Prop :=
  if s.halted then 1 ≤ s.haltCause.toNat ∧ s.haltCause.toNat ≤ 6 else s.haltCause = 0#4

/-- The bits of `OPSEL` that the format of an instruction reads (R77, R80). -/
def readMask : Instr → BitVec 16
  | .fxqCvt _ _ | .fxAdd _ _ | .fxSub _ _ | .fxMul _ _ | .fxDiv _ _ | .fxAnd _ _ | .fxOr _ _ | .fxXor _ _
  | .fxShl _ _ | .fxShr _ _ | .fxNeg _ _ | .fxNot _ _ | .fxInc _ _ | .fxDec _ _ | .fxFromint _ _ => 0xC7FF#16
  | .fxqRnd _ => 0xC1FF#16
  | .fxqOvf _ => 0xC63F#16
  | .fxEq | .fxNe | .fxLt | .fxLe | .fxGt | .fxGe | .fxSlc | .fxSetslc | .fxToint
  | .fpEq | .fpNe | .fpLt | .fpLe | .fpGt | .fpGe | .fpCeil | .fpFloor | .fpTrunc | .fpRound => 0xC03F#16
  | .fpExtract _ _ => 0xE83F#16
  | .fpRndasm _ _ | .fpAdd _ _ | .fpSub _ _ | .fpMul _ _ | .fpDiv _ _ | .fpFma _ _ | .fpSqrt _ _
  | .cvFx2f _ _ | .cvF2f _ _ => 0xC9FF#16
  | .cvF2fx _ _ _ => 0xD7FF#16

end Sys2Proof.Machine
end

