-- ==== Sys2Proof/Certificates/Slice0/Obligations.lean ====
section
/-! DEFINITION. The statements for the provers, in the order of the spec's files: encoding, the step and the halt,
the quantization engine, the fixed-point operators, the float front and back end, the float units, comparisons and
integral helpers, conversions. A statement that holds of a model's choice names the log entry. -/

section
open Sys2Proof Sys2Proof.Machine

/-! ## Encoding -/

/-- Decoding the word of an instruction gives the instruction, for every field at every value (R77, R78, R80). -/
def Obligations.DecodeEncodeRoundTrip : Prop :=
  ∀ i : Instr, decode (encode i) = .ok i

/-- A word names an instruction iff the bits that the instruction's format reads are those of its encoding; every
other bit is ignored (R77, R80; U4). -/
def Obligations.DecoderReadsExactlyItsFields : Prop :=
  ∀ (w : BitVec 16) (i : Instr), decode w = .ok i ↔ w &&& readMask i = encode i

/-- The words that name no operation are those with a reserved bit set or an `OP` outside the table (R86). -/
def Obligations.IllegalWordsAreRefused : Prop :=
  ∀ w : BitVec 16,
    (∃ e, decode w = .error e) ↔
      fieldReserved w ≠ 0#2 ∨ (3 ≤ (fieldOp w).toNat ∧ (fieldOp w).toNat ≤ 7) ∨ (fieldOp w).toNat = 0x1F ∨
        (0x32 ≤ (fieldOp w).toNat ∧ (fieldOp w).toNat ≤ 0x37) ∨ 0x3B ≤ (fieldOp w).toNat

/-- Words written out from the tables of R77, R78, R82 to R85, one for each family. -/
def Obligations.SampleWordsDecode : Prop :=
  decode 0b00_0_0_0_01_100_000000#16 = .ok (.fxqCvt 4#3 .saturate) ∧
  decode 0b00_0_0_0_11_001_001000#16 = .ok (.fxAdd 1#3 .saturateSymmetric) ∧
  decode 0b00_0_0_0_00_000_010101#16 = .ok .fxEq ∧
  decode 0b00_1_0_1_00_000_100000#16 = .ok (.fpExtract true true) ∧
  decode 0b00_0_0_1_00_011_100010#16 = .ok (.fpAdd 3#3 true) ∧
  decode 0b00_0_0_0_00_000_101110#16 = .ok .fpCeil ∧
  decode 0b00_0_1_0_10_110_111001#16 = .ok (.cvF2fx 6#3 .saturateToZero true)

/-! ## The step, reset and the halt -/

/-- A step on a presented request runs the instruction its word decodes to, from the state that holds the request
(R20, R53, R58). The step adds nothing around it: there is no program counter (R23). -/
def Obligations.StepRunsTheDecodedInstruction : Prop :=
  ∀ (s : State) (r : Request) (rest : List HostInput) (i : Instr),
    s.inbox = .request r :: rest → decode r.opsel = .ok i →
      step s = exec i ((s.withInbox rest).present r)

/-- With nothing presented a step leaves the state as it is: the model's choice (log 3). -/
def Obligations.StepWithNothingPresented : Prop :=
  ∀ s : State, s.inbox = [] → step s = .next s

/-- Reset clears the halt and touches nothing else, a request presented with it is dropped, and nothing else leaves
the halt (R410). -/
def Obligations.ResetIsTheOnlyWayOutOfTheHalt : Prop :=
  (∀ (s : State) (p : Option Request) (rest : List HostInput), s.inbox = .reset p :: rest →
    step s = .next { s with halted := false, haltCause := 0#4, inbox := rest }) ∧
  ∀ s t : State, s.halted = true → step s = .next t → t.halted = false →
    ∃ (p : Option Request) (rest : List HostInput), s.inbox = .reset p :: rest

/-- Serving a request: a halted block delivers `Halted` and nothing else changes; one that is not halted delivers
a response and nothing else changes, or takes one violation and nothing else changes (R375). -/
def Obligations.ServingDeliversOrHalts : Prop :=
  ∀ (s : State) (r : Request) (rest : List HostInput), s.inbox = .request r :: rest →
    (s.halted = true →
      step s = .next { s with inbox := rest, request := r, delivered := s.delivered ++ [.halted] }) ∧
    (s.halted = false →
      (∃ resp, step s =
        .next { s with inbox := rest, request := r, delivered := s.delivered ++ [.done resp] }) ∨
      (∃ c : Cause, step s =
        .next { s with
          inbox := rest, request := r, halted := true, haltCause := c.code,
          delivered := s.delivered ++ [.contractViolation c] }))

/-- Every step answers a next state: no request, legal or not, and no state ends the machine (R375, R421). -/
def Obligations.EveryStepAnswersANextState : Prop :=
  ∀ s : State, ∃ t, step s = .next t

/-- Every step keeps the invariant of the halt state: a cause of the table while halted, 0 otherwise, never a
reserved code (R26, R371). -/
def Obligations.HaltInvariantIsKept : Prop :=
  ∀ s t : State, HaltInv s → step s = .next t → HaltInv t

/-- The state after reset: not halted, cause `None`, and the invariant of the halt state (R38, R410). -/
def Obligations.ResetStateIsNotHalted : Prop :=
  State.reset.halted = false ∧ State.reset.haltCause = 0#4 ∧ HaltInv State.reset

/-- However many steps a halted block runs without a reset, it serves no request: each yields `Halted`, and the
first cause stays (R375, R376). -/
def Obligations.HaltedRunServesNothing : Prop :=
  ∀ (n : ℕ) (s : State), s.halted = true → (∀ x ∈ s.inbox, ∃ r, x = .request r) →
    ∃ t, Host.Core.run core n s = .next t ∧ t.halted = true ∧ t.haltCause = s.haltCause ∧
      t.inbox = s.inbox.drop n ∧
      t.delivered = s.delivered ++ List.replicate (min n s.inbox.length) .halted

/-- What a request yields depends on the request, the instance's parameters and `HALTED` alone: not on earlier
requests, on what was delivered, on the request last held or on what comes next (R21, R58 (a)). -/
def Obligations.OutcomeDependsOnTheRequestAlone : Prop :=
  ∀ (s₁ s₂ : State) (r : Request) (rest₁ rest₂ : List HostInput),
    s₁.cfg = s₂.cfg → s₁.halted = s₂.halted →
    s₁.inbox = .request r :: rest₁ → s₂.inbox = .request r :: rest₂ →
      ∃ t₁ t₂ d, step s₁ = .next t₁ ∧ step s₂ = .next t₂ ∧
        t₁.delivered = s₁.delivered ++ [d] ∧ t₂.delivered = s₂.delivered ++ [d] ∧ t₁.halted = t₂.halted ∧
        (s₁.halted = false → s₁.haltCause = s₂.haltCause → t₁.haltCause = t₂.haltCause)

/-- A field of the request that the operation does not name is ignored: serving the request with those fields blank
gives the same state, but for the request held (R24, R80). -/
def Obligations.UnreadFieldsAreIgnored : Prop :=
  ∀ (i : Instr) (s t : State), exec i s = .next t →
    exec i (s.present (s.request.readBy i)) = .next (t.present (s.request.readBy i))

/-- Requests are served one at a time in the order presented, each completing before the next: what is presented
later changes nothing of what the earlier ones yield, and each request yields exactly one outcome (R58 (b)). -/
def Obligations.RequestsAreServedInOrder : Prop :=
  ∀ (s : State) (later : List HostInput),
    ∃ t, Host.Core.run core s.inbox.length s = .next t ∧ t.inbox = [] ∧
      s.delivered <+: t.delivered ∧
      t.delivered.length = s.delivered.length +
        s.inbox.countP (fun x => match x with | .request _ => true | .reset _ => false) ∧
      Host.Core.run core s.inbox.length { s with inbox := s.inbox ++ later } =
        .next { t with inbox := later }

/-- The frame of every instruction: it leaves the parameters, the request held and what is presented next as they
are, adds one outcome after those delivered, and changes the halt state only in taking a violation
(R24, R26, R34, R375). -/
def Obligations.ExecFrame : Prop :=
  ∀ (i : Instr) (s t : State), exec i s = .next t →
    t.cfg = s.cfg ∧ t.request = s.request ∧ t.inbox = s.inbox ∧
    ∃ d, t.delivered = s.delivered ++ [d] ∧
      ((∀ c, d ≠ .contractViolation c) → t.halted = s.halted ∧ t.haltCause = s.haltCause)

/-- The order of the checks (R373): an illegal word first, then a malformed spec, then an unsupported mode, then the
operand-dependent violation of the operation. -/
def Obligations.ChecksAreMadeInOrder : Prop :=
  ∀ (s : State) (r : Request) (rest : List HostInput), s.halted = false → s.inbox = .request r :: rest →
    ((∃ e, decode r.opsel = .error e) →
      step s = .next (((s.withInbox rest).present r).raise .illegalOperation)) ∧
    ∀ i, decode r.opsel = .ok i →
      (¬ SpecsLegal i s.cfg r → step s = .next (((s.withInbox rest).present r).raise .malformedSpec)) ∧
      (SpecsLegal i s.cfg r → WellFormed i = false →
        step s = .next (((s.withInbox rest).present r).raise .unsupportedRoundingMode)) ∧
      (SpecsLegal i s.cfg r → WellFormed i = true → ¬ OperandsLegal i r →
        step s = .next (((s.withInbox rest).present r).raise (operandCause i)))

/-- A request that breaks none of the checks is served with a response, whatever the values of its operands: numeric
exceptional conditions halt nothing (R25, R280, R374). This covers every instruction. -/
def Obligations.LegalRequestsAreServed : Prop :=
  ∀ (i : Instr) (s : State), s.halted = false → SpecsLegal i s.cfg s.request → WellFormed i = true →
    OperandsLegal i s.request → ∃ resp, exec i s = .next (s.deliver (.done resp))

/-- The result of every operation has the width the spec gives it (R24, R80, R186 (b)). -/
def Obligations.ResultsHaveTheirWidth : Prop :=
  ∀ (i : Instr) (s : State) (resp : Response), exec i s = .next (s.deliver (.done resp)) →
    resp.r.map (fun r => (r.width : ℤ)) = resultWidth i s.request

/-! ## The quantization engine -/

/-- The mode each code of field `Q` names (the table of R82), and what each mode computes (R117), the switch
`LITERAL_ROUND_TABLE` being off. -/
def Obligations.RoundingModesRoundAsNamed : Prop :=
  (fixedModeOf 0#3 = some .truncate ∧ fixedModeOf 1#3 = some .roundZero ∧ fixedModeOf 2#3 = some .roundMinInf ∧
    fixedModeOf 3#3 = some .roundInf ∧ fixedModeOf 4#3 = some .roundConvergent ∧
    fixedModeOf 5#3 = some .roundConvergentOdd ∧ fixedModeOf 6#3 = some .truncateTowardZero ∧
    fixedModeOf 7#3 = none) ∧
  ∀ (cfg : Config) (x : ℚ) (fd : ℤ), cfg.literalRoundTable = false →
    (roundRat cfg .truncate x fd).t = ⌊x * 2 ^ fd⌋ ∧
    (roundRat cfg .truncateTowardZero x fd).t = (if 0 ≤ x * 2 ^ fd then ⌊x * 2 ^ fd⌋ else ⌈x * 2 ^ fd⌉) ∧
    (∀ m, m ≠ .truncate → m ≠ .truncateTowardZero → |x * 2 ^ fd - (roundRat cfg m x fd).t| ≤ 1 / 2) ∧
    (Int.fract (x * 2 ^ fd) = 1 / 2 →
      |((roundRat cfg .roundZero x fd).t : ℚ)| < |x * 2 ^ fd| ∧
      (roundRat cfg .roundMinInf x fd).t = ⌊x * 2 ^ fd⌋ ∧
      |x * 2 ^ fd| < |((roundRat cfg .roundInf x fd).t : ℚ)| ∧
      Even (roundRat cfg .roundConvergent x fd).t ∧
      Odd (roundRat cfg .roundConvergentOdd x fd).t)

/-- The switch `LITERAL_ROUND_TABLE`: RoundZero rounds as RoundInf and TruncateTowardZero as Truncate, and no other
mode is touched (R115; D9, D10). -/
def Obligations.LiteralRoundTable : Prop :=
  ∀ (cfg : Config) (x : ℚ) (fd : ℤ),
    roundRat { cfg with literalRoundTable := true } .roundZero x fd = roundRat cfg .roundInf x fd ∧
    roundRat { cfg with literalRoundTable := true } .truncateTowardZero x fd = roundRat cfg .truncate x fd ∧
    ∀ m, m ≠ .roundZero → m ≠ .truncateTowardZero →
      roundRat { cfg with literalRoundTable := true } m x fd = roundRat cfg m x fd

/-- FXQ.CVT and FXQ.RND, which work on the bits of the source, give what the engine gives on the exact value
(R118, R123, R124): one rounding, and an overflow test that sees the increment (R125). -/
def Obligations.FxqCvtAndRndResults : Prop :=
  ∀ (s : State) (q : BitVec 3) (m : FixedMode) (o : OverflowMode), FixedReady1 s → fixedModeOf q = some m →
    let d := s.request.dst.fixed
    let x := fxVal s.request.srcA.fixed s.request.a
    let t := roundRat s.cfg m x d.f
    exec (.fxqCvt q o) s = .next (s.deliver (.done
      { r := some (quantize s.cfg x d m o), auxT := some t.t, auxInc := some t.inc,
        auxOvf := some (decide (t.t < d.kmin ∨ d.kmax < t.t)) })) ∧
    exec (.fxqRnd q) s = .next (s.deliver (.done { auxT := some t.t, auxInc := some t.inc }))

/-- FXQ.OVF: the integer each overflow mode stores, and the overflow output (R120, R121, R122). -/
def Obligations.FxqOvfResult : Prop :=
  ∀ (s : State) (o : OverflowMode), s.halted = false → s.request.dst.FixedLegal s.cfg →
    let d := s.request.dst.fixed
    let t := s.request.t
    ∃ v : ℤ,
      exec (.fxqOvf o) s = .next (s.deliver (.done
        { r := some (bitsOf d.w v), auxOvf := some (decide (t < d.kmin ∨ d.kmax < t)) })) ∧
      (d.kmin ≤ t → t ≤ d.kmax →
        v = if o = .saturateSymmetric ∧ d.s = true ∧ t = d.kmin then d.kmin + 1 else t) ∧
      (d.kmax < t →
        v = match o with
          | .wrap => t
          | .saturate => d.kmax
          | .saturateToZero => 0
          | .saturateSymmetric => d.kmax) ∧
      (t < d.kmin →
        v = match o with
          | .wrap => t
          | .saturate => d.kmin
          | .saturateToZero => 0
          | .saturateSymmetric => if d.s then d.kmin + 1 else d.kmin)

/-- The overflow test, on the range and on the bits above the kept width (R119). -/
def Obligations.OverflowTestOnBits : Prop :=
  ∀ (d : FixedSpec) (t : ℤ), 1 ≤ d.w →
    (overflows d.kmin d.kmax t = true ↔ t < d.kmin ∨ d.kmax < t) ∧
    (d.s = true →
      (overflows d.kmin d.kmax t = false ↔ ∀ n, d.w - 1 ≤ n → bitAt t n = bitAt t (d.w - 1))) ∧
    (d.s = false → (overflows d.kmin d.kmax t = false ↔ ∀ n, d.w ≤ n → bitAt t n = false))

/-- The laws of the engine (R127): a value converted into its own spec is unchanged; narrowing, widening and
narrowing again gives the narrowed value; Saturate never inverts an order, and Wrap and SaturateToZero can. -/
def Obligations.LawsOfTheEngine : Prop :=
  (∀ (cfg : Config) (d : FixedSpec) (p : Bits) (m : FixedMode) (o : OverflowMode), 1 ≤ d.w → p.width = d.w →
    ¬ (o = .saturateSymmetric ∧ d.s = true ∧ fixedInt d.s p = d.kmin) →
      quantize cfg (fxVal d p) d m o = p) ∧
  (∀ (cfg : Config) (d d' : FixedSpec) (m : FixedMode) (o : OverflowMode) (x : ℚ),
    1 ≤ d.w → d.i ≤ d'.i → d.f ≤ d'.f → d'.s = d.s →
      quantize cfg (fxVal d' (quantize cfg (fxVal d (quantize cfg x d m o)) d' m o)) d m o =
        quantize cfg x d m o) ∧
  (∀ (cfg : Config) (d : FixedSpec) (m : FixedMode) (x y : ℚ), 1 ≤ d.w → x ≤ y →
    fxVal d (quantize cfg x d m .saturate) ≤ fxVal d (quantize cfg y d m .saturate)) ∧
  (∀ o, o = .wrap ∨ o = .saturateToZero →
    ∃ (d : FixedSpec) (m : FixedMode) (x y : ℚ), x < y ∧
      fxVal d (quantize .specDefault y d m o) < fxVal d (quantize .specDefault x d m o))

/-! ## The fixed-point operators -/

/-- FX.ADD, FX.SUB, FX.MUL: the exact result of the two values, quantized once (R150, R155, R156, R157). -/
def Obligations.FxArithmeticResults : Prop :=
  ∀ (s : State) (q : BitVec 3) (m : FixedMode) (o : OverflowMode), FixedReady2 s → fixedModeOf q = some m →
    let d := s.request.dst.fixed
    let x := fxVal s.request.srcA.fixed s.request.a
    let y := fxVal s.request.srcB.fixed s.request.b
    exec (.fxAdd q o) s = .next (s.answer (quantize s.cfg (x + y) d m o)) ∧
    exec (.fxSub q o) s = .next (s.answer (quantize s.cfg (x - y) d m o)) ∧
    exec (.fxMul q o) s = .next (s.answer (quantize s.cfg (x * y) d m o))

/-- FX.DIV: the exact rational quotient, quantized once, and the violation where the divisor's value is zero
(R158). -/
def Obligations.FxDivResult : Prop :=
  ∀ (s : State) (q : BitVec 3) (m : FixedMode) (o : OverflowMode), FixedReady2 s → fixedModeOf q = some m →
    let x := fxVal s.request.srcA.fixed s.request.a
    let y := fxVal s.request.srcB.fixed s.request.b
    (y ≠ 0 → exec (.fxDiv q o) s = .next (s.answer (quantize s.cfg (x / y) s.request.dst.fixed m o))) ∧
    (y = 0 → exec (.fxDiv q o) s = .next (s.raise .fixedDivideByZero))

/-- FX.AND, FX.OR, FX.XOR act on each bit of the infinite expansions of the aligned operands; the integer is
quantized once (R159, R160, R161, R162). -/
def Obligations.FxBitwiseResults : Prop :=
  ∀ (s : State) (q : BitVec 3) (m : FixedMode) (o : OverflowMode), FixedReady2 s → fixedModeOf q = some m →
    let d := s.request.dst.fixed
    let f := commonF s.request.fixedA s.request.fixedB
    let ka := s.request.fixedA.aligned f
    let kb := s.request.fixedB.aligned f
    ∃ kand kor kxor : ℤ,
      (∀ n, bitAt kand n = (bitAt ka n && bitAt kb n)) ∧ (∀ n, bitAt kor n = (bitAt ka n || bitAt kb n)) ∧
      (∀ n, bitAt kxor n = (bitAt ka n ^^ bitAt kb n)) ∧
      exec (.fxAnd q o) s = .next (s.answer (quantize s.cfg (kand * 2 ^ (-f)) d m o)) ∧
      exec (.fxOr q o) s = .next (s.answer (quantize s.cfg (kor * 2 ^ (-f)) d m o)) ∧
      exec (.fxXor q o) s = .next (s.answer (quantize s.cfg (kxor * 2 ^ (-f)) d m o))

/-- FX.SHL, FX.SHR: the value scaled by `2^N` or `2^(−N)`, quantized once; a negative `N` is malformed
(R163, R164, R165). -/
def Obligations.FxShiftResults : Prop :=
  ∀ (s : State) (q : BitVec 3) (m : FixedMode) (o : OverflowMode), FixedReady1 s → fixedModeOf q = some m →
    let d := s.request.dst.fixed
    let x := fxVal s.request.srcA.fixed s.request.a
    (0 ≤ s.request.n →
      exec (.fxShl q o) s = .next (s.answer (quantize s.cfg (x * 2 ^ s.request.n) d m o)) ∧
      exec (.fxShr q o) s = .next (s.answer (quantize s.cfg (x * 2 ^ (-s.request.n)) d m o))) ∧
    (s.request.n < 0 →
      exec (.fxShl q o) s = .next (s.raise .malformedSpec) ∧
      exec (.fxShr q o) s = .next (s.raise .malformedSpec))

/-- Shifting by the width or more, into the operand's own spec (R164, R165, R186 (g)): left, 0 under Wrap and the
saturation value of the sign under Saturate; right under Truncate, 0 or minus one quantum. -/
def Obligations.ShiftsByTheWidthOrMore : Prop :=
  ∀ s : State, FixedReady1 s → s.request.dst.fixed = s.request.srcA.fixed → s.request.srcA.w ≤ s.request.n →
    let d := s.request.dst.fixed
    let k := fixedInt s.request.srcA.s s.request.a
    exec (.fxShl 0#3 .wrap) s = .next (s.answer (bitsOf d.w 0)) ∧
    exec (.fxShl 0#3 .saturate) s =
      .next (s.answer (bitsOf d.w (if k = 0 then 0 else if 0 < k then d.kmax else d.kmin))) ∧
    exec (.fxShr 0#3 .wrap) s = .next (s.answer (bitsOf d.w (if 0 ≤ k then 0 else -1)))

/-- FX.NEG, FX.INC, FX.DEC on the value, FX.NOT on each bit of the infinite expansion, quantized once
(R166, R167, R168, R169). -/
def Obligations.FxUnaryResults : Prop :=
  ∀ (s : State) (q : BitVec 3) (m : FixedMode) (o : OverflowMode), FixedReady1 s → fixedModeOf q = some m →
    let d := s.request.dst.fixed
    let f := s.request.srcA.fixed.f
    let k := fixedInt s.request.srcA.s s.request.a
    let x := fxVal s.request.srcA.fixed s.request.a
    exec (.fxNeg q o) s = .next (s.answer (quantize s.cfg (-x) d m o)) ∧
    exec (.fxInc q o) s = .next (s.answer (quantize s.cfg (x + 2 ^ (-f)) d m o)) ∧
    exec (.fxDec q o) s = .next (s.answer (quantize s.cfg (x - 2 ^ (-f)) d m o)) ∧
    ∃ kx : ℤ, (∀ n, bitAt kx n = !bitAt k n) ∧
      exec (.fxNot q o) s = .next (s.answer (quantize s.cfg (kx * 2 ^ (-f)) d m o))

/-- The six fixed-point comparisons compare the values (R170, R172 to R177). -/
def Obligations.FxComparisonsCompareTheValues : Prop :=
  ∀ s : State, FixedReadyPair s →
    let x := fxVal s.request.srcA.fixed s.request.a
    let y := fxVal s.request.srcB.fixed s.request.b
    exec .fxEq s = .next (s.answer (bitOf (decide (x = y)))) ∧
    exec .fxNe s = .next (s.answer (bitOf (decide (x ≠ y)))) ∧
    exec .fxLt s = .next (s.answer (bitOf (decide (x < y)))) ∧
    exec .fxLe s = .next (s.answer (bitOf (decide (x ≤ y)))) ∧
    exec .fxGt s = .next (s.answer (bitOf (decide (y < x)))) ∧
    exec .fxGe s = .next (s.answer (bitOf (decide (y ≤ x))))

/-- FX.GT and FX.GE on the aligned integers, with their operation codes (R176, R177). -/
def Obligations.FxGtAndGeOnAlignedIntegers : Prop :=
  fieldOp (encode .fxGt) = 0x19#6 ∧ fieldOp (encode .fxGe) = 0x1A#6 ∧
  ∀ s : State, FixedReadyPair s →
    let f := commonF s.request.fixedA s.request.fixedB
    exec .fxGt s =
      .next (s.answer (bitOf (decide (s.request.fixedA.aligned f > s.request.fixedB.aligned f)))) ∧
    exec .fxGe s =
      .next (s.answer (bitOf (decide (s.request.fixedA.aligned f ≥ s.request.fixedB.aligned f))))

/-- FX.SLC gives the raw bits of the slice, FX.SETSLC the operand with those bits replaced and no other, and a slice
outside the operand is `SliceOutOfRange` (R178, R180, R181). -/
def Obligations.FxSliceResults : Prop :=
  ∀ s : State, s.halted = false → s.request.srcA.FixedLegal s.cfg → s.request.srcA.Fits s.request.a →
    let a := s.request.a
    let b := s.request.b
    let lsb := s.request.lsb
    let n := s.request.n
    (0 ≤ lsb ∧ 1 ≤ n ∧ lsb + n ≤ s.request.srcA.w →
      ∃ r, exec .fxSlc s = .next (s.answer r) ∧ r.width = n.toNat ∧
        ∀ k < n.toNat, r.val.getLsbD k = a.val.getLsbD (lsb.toNat + k)) ∧
    (¬ (0 ≤ lsb ∧ 1 ≤ n ∧ lsb + n ≤ s.request.srcA.w) →
      exec .fxSlc s = .next (s.raise .sliceOutOfRange)) ∧
    (s.request.srcB.FixedLegal s.cfg → s.request.srcB.Fits b → s.request.srcB.w = n →
      (0 ≤ lsb ∧ 1 ≤ n ∧ lsb + n ≤ s.request.srcA.w →
        ∃ r, exec .fxSetslc s = .next (s.answer r) ∧ r.width = a.width ∧
          ∀ k < a.width, r.val.getLsbD k =
            if lsb ≤ k ∧ k < lsb + n then b.val.getLsbD (k - lsb.toNat) else a.val.getLsbD k) ∧
      (¬ (0 ≤ lsb ∧ 1 ≤ n ∧ lsb + n ≤ s.request.srcA.w) →
        exec .fxSetslc s = .next (s.raise .sliceOutOfRange)))

/-- FX.TOINT: the floor of the value, its low bits kept (R184). -/
def Obligations.FxTointResult : Prop :=
  ∀ s : State, FixedReady1 s → s.request.dst.i = s.request.dst.w →
    exec .fxToint s =
      .next (s.answer (bitsOf s.request.dst.w.toNat ⌊fxVal s.request.srcA.fixed s.request.a⌋))

/-- FX.FROMINT: the integer of the pattern, quantized once, as FXQ.CVT does from the integer spec (R185, R89). -/
def Obligations.FxFromintResult : Prop :=
  ∀ (s : State) (q : BitVec 3) (m : FixedMode) (o : OverflowMode), FixedReady1 s → fixedModeOf q = some m →
    s.request.srcA.i = s.request.srcA.w →
      exec (.fxFromint q o) s = .next (s.answer
        (quantize s.cfg (fixedInt s.request.srcA.s s.request.a) s.request.dst.fixed m o)) ∧
      fxVal s.request.srcA.fixed s.request.a = fixedInt s.request.srcA.s s.request.a

/-- The promoted result specs hold the exact result: no rounding and no wrap acts (R152, R155, R157). -/
def Obligations.PromotedSpecsHoldTheExactResult : Prop :=
  ∀ (cfg : Config) (a b : FixedOperand), 1 ≤ a.spec.w → 1 ≤ b.spec.w →
    a.spec.kmin ≤ a.k → a.k ≤ a.spec.kmax → b.spec.kmin ≤ b.k → b.k ≤ b.spec.kmax →
    let exact (d : FixedSpec) (x : ℚ) := fxVal d (quantize cfg x d .truncate .wrap) = x
    exact (promotedAdd a.spec b.spec) (a.val + b.val) ∧ exact (promotedSub a.spec b.spec) (a.val - b.val) ∧
    exact (promotedMul a.spec b.spec) (a.val * b.val) ∧ exact (promotedNeg a.spec) (-a.val) ∧
    exact (promotedNot a.spec) (bitNot a.k * 2 ^ (-a.spec.f)) ∧
    exact (promotedBitwise a.spec b.spec) (bitwiseValue bitAnd a b) ∧
    exact (promotedBitwise a.spec b.spec) (bitwiseValue bitOr a b) ∧
    exact (promotedBitwise a.spec b.spec) (bitwiseValue bitXor a b)

/-! ## Extract, and round and assemble -/

/-- The extract record has the value of the pattern, and its mantissa lies where its class says (R203). -/
def Obligations.ExtractRecordHasTheValue : Prop :=
  ∀ a : FloatOperand, a.spec.Legal → a.Finite →
    a.val = a.extract.val a.spec ∧
    (a.cls = .normal → 2 ^ a.spec.m ≤ a.extract.mant ∧ a.extract.mant < 2 ^ (a.spec.m + 1)) ∧
    (a.cls = .subnormal → 0 < a.extract.mant ∧ a.extract.mant < 2 ^ a.spec.m) ∧
    (a.cls = .zero → a.extract.mant = 0)

/-- FP.EXTRACT: the record of R202; a subnormal flushed to the zero of its sign under `NOSUB`, and otherwise, under
`NORM`, normalized with its class and its value kept (R202, R204, R205, R206). -/
def Obligations.FpExtractResult : Prop :=
  ∀ (s : State) (nosub norm : Bool), s.halted = false → s.request.srcA.FloatLegal s.cfg →
    s.request.srcA.Fits s.request.a →
    let a := s.request.floatA
    let f := a.spec
    ∃ x : Extracted,
      exec (.fpExtract nosub norm) s = .next (s.deliver (.done
        { auxClass := some x.cls.code, auxSign := some x.sign, auxExp := some x.exp,
          auxMant := some (bitsOf (f.m + 1) x.mant) })) ∧
      (a.cls = .subnormal → nosub = true → x = ⟨.zero, a.sign, f.emin, 0⟩) ∧
      (a.cls = .subnormal → nosub = false → norm = true →
        x.cls = .subnormal ∧ x.sign = a.sign ∧ x.exp < f.emin ∧ 2 ^ f.m ≤ x.mant ∧ x.mant < 2 ^ (f.m + 1) ∧
          x.val f = a.val) ∧
      (¬ (a.cls = .subnormal ∧ (nosub = true ∨ norm = true)) →
        x.cls = a.cls ∧ x.sign = a.sign ∧ x.exp = (if a.ef ≠ 0 then a.ef - f.bias else f.emin) ∧
          x.mant = (if a.ef ≠ 0 then 2 ^ f.m + a.mf else a.mf))

/-- FP.RNDASM: the sticky appended as one more low bit, rounded once; condition (h) of R372 otherwise
(R216, R372 (h)). -/
def Obligations.FpRndasmResult : Prop :=
  ∀ (s : State) (q : BitVec 3) (rm : FloatMode) (nosub : Bool), s.halted = false →
    s.request.dst.FloatLegal s.cfg → floatModeOf q = some rm →
    let f := s.request.dst.float
    let r := s.request
    (0 ≤ r.xm → (r.xk = true → 2 ^ (f.m + 1) ≤ r.xm) →
      exec (.fpRndasm q nosub) s = .next (s.answer (roundAssemble s.cfg f rm nosub r.xs
        ((2 * r.xm + if r.xk then 1 else 0) * 2 ^ (r.xe - 1))))) ∧
    (r.xm < 0 ∨ r.xk = true ∧ r.xm < 2 ^ (f.m + 1) →
      exec (.fpRndasm q nosub) s = .next (s.raise .malformedSpec))

/-- The sticky is harmless: with a true guard bit in `XM`, every value in the open interval that `XK = 1` stands for
gives the same result (R216). -/
def Obligations.StickyBitIsHarmless : Prop :=
  ∀ (cfg : Config) (f : FloatSpec) (rm : FloatMode) (nosub s : Bool) (xm xe : ℤ) (x : ℚ), f.Legal →
    2 ^ (f.m + 1) ≤ xm → xm * 2 ^ xe < x → x < (xm + 1) * 2 ^ xe →
      roundAssemble cfg f rm nosub s x = roundAssemble cfg f rm nosub s ((2 * xm + 1) * 2 ^ (xe - 1))

/-- The magnitude of a finite pattern is rounded to the pattern itself, under every mode; under `NOSUB` that of a
Subnormal gives the zero of its sign, whatever `FTZ_RULE` (R215, R217 (a)). -/
def Obligations.RoundAssembleKeepsPatterns : Prop :=
  ∀ (cfg : Config) (rm : FloatMode) (nosub : Bool) (p : FloatOperand), p.spec.Legal → p.p < 2 ^ p.spec.w →
    p.Finite →
      roundAssemble cfg p.spec rm nosub p.sign |p.val| =
        if nosub = true ∧ p.cls = .subnormal then p.spec.zero p.sign else p.pattern

/-- The rounding is monotone in the magnitude, `Inf` counting as above `MaxFinite`, and the sign only sets the top
bit (R217 (b), (c)). -/
def Obligations.RoundAssembleIsMonotone : Prop :=
  ∀ (cfg : Config) (f : FloatSpec) (rm : FloatMode) (nosub : Bool) (x y : ℚ), f.Legal → 0 ≤ x → x ≤ y →
    uint (roundAssemble cfg f rm nosub false x) ≤ uint (roundAssemble cfg f rm nosub false y) ∧
    uint (roundAssemble cfg f rm nosub true x) =
      2 ^ (f.w - 1) + uint (roundAssemble cfg f rm nosub false x)

/-- The mode each code of field `Q` names (the table of R84), and how each mode rounds. Without `NOSUB` the result
has the sign handed in; under TruncateTowardZero it is the largest representable magnitude not above `x`; under a
nearest mode it is `Inf(s)` iff the rounded magnitude exceeds `MaxFinite`, and otherwise a representable value nearest
to `x`, a tie going to the even mantissa, the larger magnitude or the odd mantissa as the mode says (R210, R212, R214,
R217 (d)). With `NOSUB` it is that result flushed as `FTZ_RULE` says (R215). -/
def Obligations.RoundAssembleIsNearest : Prop :=
  (floatModeOf 3#3 = some .roundNearestAwayFromZero ∧ floatModeOf 4#3 = some .roundNearestEven ∧
    floatModeOf 5#3 = some .roundNearestOdd ∧ floatModeOf 6#3 = some .truncateTowardZero ∧
    floatModeOf 0#3 = none ∧ floatModeOf 1#3 = none ∧ floatModeOf 2#3 = none ∧ floatModeOf 7#3 = none) ∧
  ∀ (cfg : Config) (f : FloatSpec) (rm : FloatMode) (s : Bool) (x : ℚ), f.Legal → 0 ≤ x →
    let u := roundAssemble cfg f rm false s x
    let r := f.read u
    r.sign = s ∧
    (rm = .truncateTowardZero →
      r.Finite ∧ |r.val| ≤ x ∧
        ∀ p : FloatOperand, p.spec = f → p.Finite → |p.val| ≤ x → |p.val| ≤ |r.val|) ∧
    (rm ≠ .truncateTowardZero →
      (f.Overflows rm x → u = f.inf s) ∧
      (¬ f.Overflows rm x →
        r.Finite ∧
        ∀ p : FloatOperand, p.spec = f → p.Finite →
          |(x - |r.val|)| ≤ |(x - |p.val|)| ∧
          (|p.val| ≠ |r.val| → |(x - |r.val|)| = |(x - |p.val|)| → TieRule rm r p))) ∧
    roundAssemble cfg f rm true s x = flushOutput cfg f true s (x < 2 ^ f.emin) u

/-- The NaN a NaN result carries: `QNaN` under `canonical`; under `propagate` the first NaN operand with its top
mantissa bit set, and `QNaN` when none is a NaN (R208). -/
def Obligations.NanResultFollowsThePolicy : Prop :=
  ∀ (cfg : Config) (f : FloatSpec) (operands : List FloatOperand), f.Legal →
    (∀ a ∈ operands, a.spec = f ∧ a.p < 2 ^ f.w) →
    let r := nanResult cfg f (operands.map FloatOperand.extract)
    (cfg.nanPolicy = .canonical → r = f.qnan) ∧
    (cfg.nanPolicy = .propagate → (∀ a ∈ operands, a.cls ≠ .nan) → r = f.qnan) ∧
    (cfg.nanPolicy = .propagate →
      ∀ before a after, operands = before ++ a :: after → (∀ b ∈ before, b.cls ≠ .nan) → a.cls = .nan →
        r.width = f.w ∧ ∀ k < f.w, r.val.getLsbD k = (k == f.m - 1 || a.pattern.val.getLsbD k))

/-! ## The float units -/

/-- FP.ADD and FP.SUB: the special cases of R242 and the exact sum rounded once; FP.SUB is FP.ADD with the sign of
`B` inverted after extraction, a NaN excepted (R242, R243, R244, R245). Which NaN a NaN result carries under
`NAN_POLICY = propagate` is the model's reading of R208 (log 14). -/
def Obligations.FpAddAndSubResults : Prop :=
  ∀ (s : State) (q : BitVec 3) (rm : FloatMode) (nosub : Bool), FloatReady2 s → floatModeOf q = some rm →
    let f := s.request.dst.float
    let a := s.request.floatA.input nosub
    let b := s.request.floatB.input nosub
    (∃ r, exec (.fpAdd q nosub) s = .next (s.answer r) ∧ AddRows s.cfg f rm nosub a b r) ∧
    (∃ r, exec (.fpSub q nosub) s = .next (s.answer r) ∧ AddRows s.cfg f rm nosub a b.negate r)

/-- `x − x = +0` for every finite `x`, the zeros of either sign and the flushed subnormals included, under every
mode (R245, R247). -/
def Obligations.SubtractingItselfGivesPlusZero : Prop :=
  ∀ (s : State) (q : BitVec 3) (rm : FloatMode) (nosub : Bool), FloatReady2 s → floatModeOf q = some rm →
    s.request.a = s.request.b → s.request.floatA.Finite →
      exec (.fpSub q nosub) s = .next (s.answer (s.request.dst.float.zero false))

/-- FP.MUL: the special cases of R250 and the exact product rounded once (R250, R252). -/
def Obligations.FpMulResult : Prop :=
  ∀ (s : State) (q : BitVec 3) (rm : FloatMode) (nosub : Bool), FloatReady2 s → floatModeOf q = some rm →
    ∃ r, exec (.fpMul q nosub) s = .next (s.answer r) ∧
      MulRows s.cfg s.request.dst.float rm nosub (s.request.floatA.input nosub)
        (s.request.floatB.input nosub) r

/-- FP.DIV: the special cases of R255, with the switch of R256, and the exact quotient rounded once (R255, R256,
R259). -/
def Obligations.FpDivResult : Prop :=
  ∀ (s : State) (q : BitVec 3) (rm : FloatMode) (nosub : Bool), FloatReady2 s → floatModeOf q = some rm →
    ∃ r, exec (.fpDiv q nosub) s = .next (s.answer r) ∧
      DivRows s.cfg s.request.dst.float rm nosub (s.request.floatA.input nosub)
        (s.request.floatB.input nosub) r

/-- FP.FMA: the special cases of R264, the addend's own pattern where the product is a zero, and the exact
`a · b + c` rounded once (R264, R267). -/
def Obligations.FpFmaResult : Prop :=
  ∀ (s : State) (q : BitVec 3) (rm : FloatMode) (nosub : Bool), FloatReady3 s → floatModeOf q = some rm →
    ∃ r, exec (.fpFma q nosub) s = .next (s.answer r) ∧
      FmaRows s.cfg s.request.dst.float rm nosub (s.request.floatA.input nosub)
        (s.request.floatB.input nosub) (s.request.floatC.input nosub) s.request.c r

/-- FP.FMA does not round its product: in every spec with `M ≥ 4` that can represent `2^(2−2M)`, the operands
`1 + 2^(1−M)`, the same, and `−(1 + 2^(2−M))` give that value, where FP.MUL and then FP.ADD give `+0`, all under
RoundNearestEven (R268). -/
def Obligations.FmaDiffersFromMulThenAdd : Prop :=
  ∀ (cfg : Config) (f : FloatSpec), f.Legal → 4 ≤ f.m → f.emin - f.m ≤ 2 - 2 * f.m →
    let a := (f.read (f.pack false f.bias.toNat 2)).extract
    let c := (f.read (f.pack true f.bias.toNat 4)).extract
    (f.read (fmaUnit cfg false f .roundNearestEven a a c)).val = 2 ^ (2 - 2 * (f.m : ℤ)) ∧
    addUnit cfg false f .roundNearestEven (f.read (mulUnit cfg false f .roundNearestEven a a)).extract c =
      f.zero false

/-- FP.SQRT: the special cases of R270, and the real square root of a positive finite operand rounded once: the
largest representable value not above it under TruncateTowardZero, a nearest one otherwise, flushed under `NOSUB` as
any result is (R270, R274, R276). In a spec with `emin + M ≤ 0` the root is Normal and nothing is flushed (R271, R274);
that in the others it may be subnormal, and is then flushed, is the model's reading (log 18). -/
def Obligations.FpSqrtResult : Prop :=
  ∀ (s : State) (q : BitVec 3) (rm : FloatMode) (nosub : Bool), FloatReady1 s → floatModeOf q = some rm →
    let f := s.request.dst.float
    let a := s.request.floatA.input nosub
    ∃ r, exec (.fpSqrt q nosub) s = .next (s.answer r) ∧
      (a.cls = .nan → r = nanResult s.cfg f [a]) ∧
      (a.cls = .zero → r = f.zero a.sign) ∧
      (a.cls ≠ .nan → a.cls ≠ .zero → a.sign = true → r = nanResult s.cfg f [a]) ∧
      (a.cls = .infinity → a.sign = false → r = f.inf false) ∧
      (a.Finite → a.cls ≠ .zero → a.sign = false →
        ∃ u, RootRounded f rm (a.val f) u ∧
          r = flushOutput s.cfg f nosub false (a.val f < 2 ^ (2 * f.emin)) u ∧
          (f.emin + f.m ≤ 0 → (f.read r).cls = .normal ∧ r = u))

/-- The square root is never a tie, so the three nearest modes agree on FP.SQRT for every request (R274, R277). -/
def Obligations.SqrtNearestModesAgree : Prop :=
  ∀ (s : State) (nosub : Bool),
    exec (.fpSqrt 3#3 nosub) s = exec (.fpSqrt 4#3 nosub) s ∧
    exec (.fpSqrt 5#3 nosub) s = exec (.fpSqrt 4#3 nosub) s

/-! ## Comparisons and integral helpers -/

/-- The six float comparisons give the order of the values extended by the Infinities, and with a NaN all are 0 but
FP.NE, which is 1 unless the switch `NE_FALSE_ON_NAN` is on (R302 to R310). -/
def Obligations.FpComparisonResults : Prop :=
  ∀ s : State, FloatReadyPair s →
    let a := s.request.floatA
    let b := s.request.floatB
    let ordered := a.cls ≠ .nan ∧ b.cls ≠ .nan
    let answers (i : Instr) (p : Prop) :=
      ∃ v : Bool, exec i s = .next (s.answer (bitOf v)) ∧ (v = true ↔ p)
    answers .fpEq (ordered ∧ a.extVal = b.extVal) ∧
    answers .fpNe (ordered ∧ a.extVal ≠ b.extVal ∨ ¬ ordered ∧ s.cfg.neFalseOnNan = false) ∧
    answers .fpLt (ordered ∧ a.extVal < b.extVal) ∧ answers .fpLe (ordered ∧ a.extVal ≤ b.extVal) ∧
    answers .fpGt (ordered ∧ b.extVal < a.extVal) ∧ answers .fpGe (ordered ∧ b.extVal ≤ a.extVal)

/-- FP.CEIL, FP.FLOOR, FP.TRUNC, FP.ROUND: a NaN gives `QNaN`, an Infinity or a Zero comes back, and any other
operand gives the integer of the function each names, with the operand's sign on a zero (R311, R314 to R317). That
under `NAN_POLICY = propagate` the policy of R208 reaches these helpers, and the operand's own NaN comes back quieted,
is the model's reading (log 14). -/
def Obligations.FpIntegralResults : Prop :=
  ∀ s : State, FloatReady1 s →
    let a := s.request.floatA
    let f := s.request.dst.float
    let answers (i : Instr) (n : ℤ) :=
      ∃ r, exec i s = .next (s.answer r) ∧
        (a.cls = .nan → s.cfg.nanPolicy = .canonical → r = f.qnan) ∧
        (a.cls = .nan → r = nanResult s.cfg f [a.extract]) ∧
        (a.cls = .infinity ∨ a.cls = .zero → r = s.request.a) ∧
        (a.cls = .subnormal ∨ a.cls = .normal →
          (n = 0 → r = f.zero a.sign) ∧
          (n ≠ 0 → r = roundAssemble s.cfg f .roundNearestEven false a.sign |(n : ℚ)|))
    answers .fpCeil ⌈a.val⌉ ∧ answers .fpFloor ⌊a.val⌋ ∧
    answers .fpTrunc (if 0 ≤ a.val then ⌊a.val⌋ else ⌈a.val⌉) ∧
    answers .fpRound (if 0 ≤ a.val then ⌊a.val + 1 / 2⌋ else ⌈a.val - 1 / 2⌉)

/-- The integral helpers are exact: the result has the operand's sign, and, unless the integer exceeds the largest
finite value, its value is that integer (R311, R312, R318). -/
def Obligations.IntegralHelpersAreExact : Prop :=
  ∀ (cfg : Config) (a : FloatOperand), a.spec.Legal → a.cls = .subnormal ∨ a.cls = .normal →
    ∀ fn : ℚ → ℤ, fn ∈ [fun x => ⌈x⌉, fun x => ⌊x⌋, fun x => withSignOf x ⌊|x|⌋,
        fun x => withSignOf x ⌊|x| + 1 / 2⌋] →
      let r := a.spec.read (integralOf cfg fn a)
      r.sign = a.sign ∧
      (|(fn a.val : ℚ)| ≤ (a.spec.read (a.spec.maxFinite false)).val → r.Finite ∧ r.val = fn a.val)

/-! ## Conversions -/

/-- CV.FX2F: a fixed zero is `+0`, any other value is rounded once. CV.F2F: NaN to `QNaN` of the destination,
Infinity and Zero with their sign, any other value rounded once (R333, R351). That CV.F2F gives `QNaN` under
`NAN_POLICY = propagate` too, although R208 speaks of every operation, is the model's reading of R351 (log 11). -/
def Obligations.CvFx2fAndF2fResults : Prop :=
  ∀ (s : State) (q : BitVec 3) (rm : FloatMode) (nosub : Bool), s.halted = false →
    s.request.dst.FloatLegal s.cfg → floatModeOf q = some rm →
    let d := s.request.dst.float
    (s.request.srcA.FixedLegal s.cfg → s.request.srcA.Fits s.request.a →
      let x := fxVal s.request.srcA.fixed s.request.a
      (x = 0 → exec (.cvFx2f q nosub) s = .next (s.answer (d.zero false))) ∧
      (x ≠ 0 → exec (.cvFx2f q nosub) s =
        .next (s.answer (roundAssemble s.cfg d rm nosub (decide (x < 0)) |x|)))) ∧
    (s.request.srcA.FloatLegal s.cfg → s.request.srcA.Fits s.request.a →
      let x := s.request.floatA.input nosub
      ∃ r, exec (.cvF2f q nosub) s = .next (s.answer r) ∧
        (x.cls = .nan → r = d.qnan) ∧ (x.cls = .infinity → r = d.inf x.sign) ∧
        (x.cls = .zero → r = d.zero x.sign) ∧
        (x.Finite → x.cls ≠ .zero →
          r = roundAssemble s.cfg d rm nosub x.sign |s.request.floatA.val|))

/-- CV.F2FX: a finite source is quantized once; an Infinity or a NaN is the violation `NonFiniteToFixed` without
`MAPINF`, and with it goes by its sign to the largest or the smallest value (R341, R342, R343). -/
def Obligations.CvF2fxResult : Prop :=
  ∀ (s : State) (q : BitVec 3) (m : FixedMode) (o : OverflowMode) (mapinf : Bool), s.halted = false →
    s.request.srcA.FloatLegal s.cfg → s.request.srcA.Fits s.request.a → s.request.dst.FixedLegal s.cfg →
    fixedModeOf q = some m →
    let a := s.request.floatA
    let d := s.request.dst.fixed
    (a.Finite → exec (.cvF2fx q o mapinf) s = .next (s.answer (quantize s.cfg a.val d m o))) ∧
    (¬ a.Finite → mapinf = false → exec (.cvF2fx q o mapinf) s = .next (s.raise .nonFiniteToFixed)) ∧
    (¬ a.Finite → mapinf = true → exec (.cvF2fx q o mapinf) s = .next (s.answer (bitsOf d.w
      (if a.sign = false then d.kmax
       else if d.s = true ∧ o = .saturateSymmetric then d.kmin + 1 else d.kmin))))

/-- CV.FX2F and then CV.F2FX back into the source spec is the identity whenever the first step is exact, under every
mode, but for the excluded value of SaturateSymmetric (R355 (c)). -/
def Obligations.FixedToFloatAndBack : Prop :=
  ∀ (cfg : Config) (d : FixedSpec) (p : Bits) (f : FloatSpec) (rm : FloatMode) (m : FixedMode)
    (o : OverflowMode), 1 ≤ d.w → p.width = d.w → f.Legal →
    (∃ y : FloatOperand, y.spec = f ∧ y.Finite ∧ y.val = fxVal d p) →
      quantize cfg (f.read (fixedToFloat cfg f rm false (fxVal d p))).val d m o =
        if o = .saturateSymmetric ∧ d.s = true ∧ fixedInt d.s p = d.kmin then bitsOf d.w (d.kmin + 1) else p

/-- CV.F2F into a spec that represents every finite value of the source, and back, is the identity on the patterns
that are no NaN, under any modes (R351, R355 (b)). -/
def Obligations.FloatWideningAndBack : Prop :=
  ∀ (cfg : Config) (f g : FloatSpec) (rm rm' : FloatMode) (a : FloatOperand), f.Legal → g.Legal →
    f.m ≤ g.m → g.emin - g.m ≤ f.emin - f.m → f.emax ≤ g.emax →
    a.spec = f → a.p < 2 ^ f.w → a.cls ≠ .nan →
      floatToFloat cfg g f rm' false (g.read (floatToFloat cfg f g rm false a.extract)).extract = a.pattern

end
end

