-- ==== Sys2Proof/Laws/Operands.lean ====
section
/-! SUPPORT. What the checks on specs, patterns and modes answer (R372, R373): the operand they yield when they
pass, the cause they yield when they do not. -/

namespace Sys2Proof.Machine

/-- A condition that holds lets the request go on. -/
@[simp] theorem require_true (c : Cause) : require true c = .ok () := rfl

/-- A condition that fails is the violation it guards. -/
@[simp] theorem require_false (c : Cause) : require false c = .error c := rfl

/-- A legal fixed record is its spec. -/
theorem fixedSpec_of_legal {cfg : Config} {rec : SpecRecord} (h : rec.FixedLegal cfg) :
    fixedSpec cfg rec = .ok rec.fixed := by
  simp [fixedSpec, SpecRecord.fixed, h.1, h.2]

/-- A fixed record outside R9 is malformed (R372 (a), (c)). -/
theorem fixedSpec_of_not_legal {cfg : Config} {rec : SpecRecord} (h : ¬ rec.FixedLegal cfg) :
    fixedSpec cfg rec = .error .malformedSpec := by
  have : ¬ (1 ≤ rec.w && withinMax cfg rec.w) = true := by simpa using h
  simp only [fixedSpec, if_neg this]

/-- A legal float record is its spec. -/
theorem floatSpec_of_legal {cfg : Config} {rec : SpecRecord} (h : rec.FloatLegal cfg) :
    floatSpec cfg rec = .ok rec.float := by
  simp [floatSpec, SpecRecord.float, h.1, h.2.1, h.2.2]

/-- A float record outside R9 is malformed (R372 (b), (c)). -/
theorem floatSpec_of_not_legal {cfg : Config} {rec : SpecRecord} (h : ¬ rec.FloatLegal cfg) :
    floatSpec cfg rec = .error .malformedSpec := by
  have : ¬ (2 ≤ rec.e && rec.e + 2 ≤ rec.w && withinMax cfg rec.w) = true := by
    simpa [and_assoc] using h
  simp only [floatSpec, if_neg this]

/-- A legal fixed record and a pattern of its width are the operand. -/
theorem fixedOperand_of_legal {cfg : Config} {rec : SpecRecord} {p : Bits} (h : rec.FixedLegal cfg)
    (hp : rec.Fits p) : fixedOperand cfg rec p = .ok (rec.fixedOf p) := by
  have hw : p.width = rec.fixed.w := by simp only [SpecRecord.fixed]; have := h.1; have := hp; omega
  simp only [fixedOperand, fixedSpec_of_legal h, if_pos hw]
  rfl

/-- Any other fixed record or pattern is malformed (R372 (a), (c), (i)). -/
theorem fixedOperand_of_not {cfg : Config} {rec : SpecRecord} {p : Bits}
    (h : ¬ (rec.FixedLegal cfg ∧ rec.Fits p)) : fixedOperand cfg rec p = .error .malformedSpec := by
  by_cases hl : rec.FixedLegal cfg
  · have hp : ¬ p.width = rec.fixed.w := by
      intro hw
      refine h ⟨hl, ?_⟩
      have := hl.1
      simp only [SpecRecord.fixed] at hw
      show (p.width : ℤ) = rec.w
      omega
    simp only [fixedOperand, fixedSpec_of_legal hl, if_neg hp]
  · simp only [fixedOperand, fixedSpec_of_not_legal hl]

/-- A legal float record and a pattern of its width are the operand. -/
theorem floatOperand_of_legal {cfg : Config} {rec : SpecRecord} {p : Bits} (h : rec.FloatLegal cfg)
    (hp : rec.Fits p) : floatOperand cfg rec p = .ok (rec.floatOf p) := by
  have hw : p.width = rec.float.w := by
    simp only [SpecRecord.float]; have := h.1; have := h.2.1; have := hp; omega
  simp only [floatOperand, floatSpec_of_legal h, if_pos hw]
  rfl

/-- Any other float record or pattern is malformed (R372 (b), (c), (i)). -/
theorem floatOperand_of_not {cfg : Config} {rec : SpecRecord} {p : Bits}
    (h : ¬ (rec.FloatLegal cfg ∧ rec.Fits p)) : floatOperand cfg rec p = .error .malformedSpec := by
  by_cases hl : rec.FloatLegal cfg
  · have hp : ¬ p.width = rec.float.w := by
      intro hw
      refine h ⟨hl, ?_⟩
      have := hl.1
      have := hl.2.1
      simp only [SpecRecord.float] at hw
      show (p.width : ℤ) = rec.w
      omega
    simp only [floatOperand, floatSpec_of_legal hl, if_neg hp]
  · simp only [floatOperand, floatSpec_of_not_legal hl]

/-- A code that names a fixed-point mode passes the mode check. -/
theorem needFixedMode_of_some {q : BitVec 3} {m : FixedMode} (h : fixedModeOf q = some m) :
    needFixedMode q = .ok m := by simp [needFixedMode, h]

/-- A code that names none is `UnsupportedRoundingMode` (R82). -/
theorem needFixedMode_of_none {q : BitVec 3} (h : fixedModeOf q = none) :
    needFixedMode q = .error .unsupportedRoundingMode := by simp [needFixedMode, h]

/-- A code that names a floating-point mode passes the mode check. -/
theorem needFloatMode_of_some {q : BitVec 3} {m : FloatMode} (h : floatModeOf q = some m) :
    needFloatMode q = .ok m := by simp [needFloatMode, h]

/-- A code that names none is `UnsupportedRoundingMode` (R84). -/
theorem needFloatMode_of_none {q : BitVec 3} (h : floatModeOf q = none) :
    needFloatMode q = .error .unsupportedRoundingMode := by simp [needFloatMode, h]

/-- A fixed operand is legal and decoded, or malformed. -/
theorem fixedOperand_eq (cfg : Config) (rec : SpecRecord) (p : Bits) :
    fixedOperand cfg rec p =
      if rec.FixedLegal cfg ∧ rec.Fits p then .ok (rec.fixedOf p) else .error .malformedSpec := by
  split
  · rename_i h
    exact fixedOperand_of_legal h.1 h.2
  · exact fixedOperand_of_not ‹_›

/-- A float operand is legal and decoded, or malformed. -/
theorem floatOperand_eq (cfg : Config) (rec : SpecRecord) (p : Bits) :
    floatOperand cfg rec p =
      if rec.FloatLegal cfg ∧ rec.Fits p then .ok (rec.floatOf p) else .error .malformedSpec := by
  split
  · rename_i h
    exact floatOperand_of_legal h.1 h.2
  · exact floatOperand_of_not ‹_›

/-- A fixed spec is legal or malformed. -/
theorem fixedSpec_eq (cfg : Config) (rec : SpecRecord) :
    fixedSpec cfg rec = if rec.FixedLegal cfg then .ok rec.fixed else .error .malformedSpec := by
  split
  · exact fixedSpec_of_legal ‹_›
  · exact fixedSpec_of_not_legal ‹_›

/-- A float spec is legal or malformed. -/
theorem floatSpec_eq (cfg : Config) (rec : SpecRecord) :
    floatSpec cfg rec = if rec.FloatLegal cfg then .ok rec.float else .error .malformedSpec := by
  split
  · exact floatSpec_of_legal ‹_›
  · exact floatSpec_of_not_legal ‹_›

/-- A check that passes hands its value on. -/
theorem bind_ok {α β : Type} (a : α) (f : α → Except Cause β) :
    ((Except.ok a : Except Cause α) >>= f) = f a := rfl

/-- A check that fails is the outcome. -/
theorem bind_error {α β : Type} (c : Cause) (f : α → Except Cause β) :
    ((Except.error c : Except Cause α) >>= f) = .error c := rfl

/-- A check followed by the rest of the meaning: the rest where it passes, its cause where it does not. -/
theorem bind_ite {α β : Type} (p : Prop) [Decidable p] (a : α) (c : Cause) (f : α → Except Cause β) :
    ((if p then (.ok a : Except Cause α) else .error c) >>= f) = if p then f a else .error c := by
  split <;> rfl

/-- Equal float specs pass (R372 (d)). -/
@[simp] theorem sameSpec_self (f : FloatSpec) : sameSpec f f = .ok () := by simp [sameSpec, require]

/-- The fixed-point modes are the codes that `WellFormed` admits (R82). -/
theorem fixedModeOf_isSome (q : BitVec 3) : (fixedModeOf q).isSome = fixedModeCode q := by
  revert q; decide

/-- The code of a floating-point mode names it (R84). -/
@[simp] theorem floatModeOf_code (rm : FloatMode) : floatModeOf rm.code = some rm := by
  cases rm <;> rfl

/-- The floating-point modes are the codes that `WellFormed` admits (R84). -/
theorem floatModeOf_isSome (q : BitVec 3) : (floatModeOf q).isSome = floatModeCode q := by
  revert q; decide

end Sys2Proof.Machine
end

