-- ==== Sys2Proof/Laws/State.lean ====
section
/-! SUPPORT. One lemma per field per update of the state, so that no later proof unfolds an update. -/

namespace Sys2Proof.Machine

variable (s : State) (d : Delivery) (c : Cause) (rest : List HostInput) (r : Request)

@[simp] theorem State.deliver_halted : (s.deliver d).halted = s.halted := rfl
@[simp] theorem State.deliver_haltCause : (s.deliver d).haltCause = s.haltCause := rfl
@[simp] theorem State.deliver_cfg : (s.deliver d).cfg = s.cfg := rfl
@[simp] theorem State.deliver_request : (s.deliver d).request = s.request := rfl
@[simp] theorem State.deliver_inbox : (s.deliver d).inbox = s.inbox := rfl
@[simp] theorem State.deliver_delivered : (s.deliver d).delivered = s.delivered ++ [d] := rfl

@[simp] theorem State.raise_halted : (s.raise c).halted = true := rfl
@[simp] theorem State.raise_haltCause :
    (s.raise c).haltCause = if s.halted then s.haltCause else c.code := rfl
@[simp] theorem State.raise_cfg : (s.raise c).cfg = s.cfg := rfl
@[simp] theorem State.raise_request : (s.raise c).request = s.request := rfl
@[simp] theorem State.raise_inbox : (s.raise c).inbox = s.inbox := rfl
@[simp] theorem State.raise_delivered :
    (s.raise c).delivered = s.delivered ++ [.contractViolation c] := rfl

@[simp] theorem State.assertReset_halted : s.assertReset.halted = false := rfl
@[simp] theorem State.assertReset_haltCause : s.assertReset.haltCause = 0#4 := rfl
@[simp] theorem State.assertReset_cfg : s.assertReset.cfg = s.cfg := rfl
@[simp] theorem State.assertReset_request : s.assertReset.request = s.request := rfl
@[simp] theorem State.assertReset_inbox : s.assertReset.inbox = s.inbox := rfl
@[simp] theorem State.assertReset_delivered : s.assertReset.delivered = s.delivered := rfl

@[simp] theorem State.withInbox_halted : (s.withInbox rest).halted = s.halted := rfl
@[simp] theorem State.withInbox_haltCause : (s.withInbox rest).haltCause = s.haltCause := rfl
@[simp] theorem State.withInbox_cfg : (s.withInbox rest).cfg = s.cfg := rfl
@[simp] theorem State.withInbox_request : (s.withInbox rest).request = s.request := rfl
@[simp] theorem State.withInbox_inbox : (s.withInbox rest).inbox = rest := rfl
@[simp] theorem State.withInbox_delivered : (s.withInbox rest).delivered = s.delivered := rfl

@[simp] theorem State.present_halted : (s.present r).halted = s.halted := rfl
@[simp] theorem State.present_haltCause : (s.present r).haltCause = s.haltCause := rfl
@[simp] theorem State.present_cfg : (s.present r).cfg = s.cfg := rfl
@[simp] theorem State.present_request : (s.present r).request = r := rfl
@[simp] theorem State.present_inbox : (s.present r).inbox = s.inbox := rfl
@[simp] theorem State.present_delivered : (s.present r).delivered = s.delivered := rfl

end Sys2Proof.Machine
end

