-- ==== Sys2Proof/Laws/Ops.lean ====
section
/-! SUPPORT. What the shared operations over the state can do, said once: `serve`, which every meaning ends in,
and `fetch`, which every step begins with. -/

namespace Sys2Proof.Machine

/-- A halted block delivers `Halted` (R375). -/
theorem serve_of_halted {s : State} (h : s.halted = true) (r : Except Cause Response) :
    serve s r = .next (s.deliver .halted) := by simp [serve, h]

/-- A block that is not halted delivers the response. -/
theorem serve_ok {s : State} (h : s.halted = false) (r : Response) :
    serve s (.ok r) = .next (s.deliver (.done r)) := by simp [serve, h]

/-- A block that is not halted takes the violation (R375). -/
theorem serve_error {s : State} (h : s.halted = false) (c : Cause) :
    serve s (.error c) = .next (s.raise c) := by simp [serve, h]

/-- All that serving a request can do. -/
theorem serve_cases {s t : State} {r : Except Cause Response} (h : serve s r = .next t) :
    (s.halted = true ∧ t = s.deliver .halted) ∨
    (s.halted = false ∧ ∃ resp, r = .ok resp ∧ t = s.deliver (.done resp)) ∨
    (s.halted = false ∧ ∃ c, r = .error c ∧ t = s.raise c) := by
  cases hh : s.halted with
  | true =>
    rw [serve_of_halted hh] at h
    injection h with h
    exact .inl ⟨rfl, h.symm⟩
  | false =>
    cases r with
    | ok resp =>
      rw [serve_ok hh] at h
      injection h with h
      exact .inr (.inl ⟨rfl, resp, rfl, h.symm⟩)
    | error c =>
      rw [serve_error hh] at h
      injection h with h
      exact .inr (.inr ⟨rfl, c, rfl, h.symm⟩)

/-- Serving always answers a next state. -/
theorem serve_next (s : State) (r : Except Cause Response) : ∃ t, serve s r = .next t := by
  unfold serve
  split
  · exact ⟨_, rfl⟩
  · cases r <;> exact ⟨_, rfl⟩

/-- Every meaning serves an outcome that is a function of the instance's parameters and the request alone
(R21). -/
theorem exec_eq_serve (i : Instr) :
    ∃ f : Config → Request → Except Cause Response, ∀ s, exec i s = serve s (f s.cfg s.request) := by
  cases i <;> (apply Exists.intro; rintro ⟨_, _, _, _, _, _⟩; simp only [exec,
    execFxqCvt, execFxqRnd, execFxqOvf, execFxAdd, execFxSub, execFxMul, execFxDiv, execFxAnd, execFxOr,
    execFxXor, execFxShl, execFxShr, execFxNeg, execFxNot, execFxInc, execFxDec, execFxEq, execFxNe,
    execFxLt, execFxLe, execFxGt, execFxGe, execFxSlc, execFxSetslc, execFxToint, execFxFromint,
    execFpExtract, execFpRndasm, execFpAdd, execFpSub, execFpMul, execFpDiv, execFpFma, execFpSqrt, execFpEq,
    execFpNe, execFpLt, execFpLe, execFpGt, execFpGe, execFpCeil, execFpFloor, execFpTrunc, execFpRound,
    execCvFx2f, execCvF2fx, execCvF2f]; rfl)

/-- With nothing presented there is nothing to take. -/
theorem fetch_nil {s : State} (h : s.inbox = []) : fetch s = .idle := by simp [fetch, h]

/-- Reset is taken, and a request presented with it is dropped (R410). -/
theorem fetch_reset {s : State} {p : Option Request} {rest : List HostInput}
    (h : s.inbox = .reset p :: rest) : fetch s = .reset (s.withInbox rest).assertReset := by
  simp [fetch, h]

/-- A request whose word decodes is run from the state that holds it. -/
theorem fetch_run {s : State} {r : Request} {rest : List HostInput} {i : Instr}
    (h : s.inbox = .request r :: rest) (hd : decode r.opsel = .ok i) :
    fetch s = .run i ((s.withInbox rest).present r) := by simp [fetch, h, hd]

/-- A request whose word does not decode is refused from the state that holds it. -/
theorem fetch_illegal {s : State} {r : Request} {rest : List HostInput} {e : DecodeError}
    (h : s.inbox = .request r :: rest) (hd : decode r.opsel = .error e) :
    fetch s = .illegal ((s.withInbox rest).present r) := by simp [fetch, h, hd]

end Sys2Proof.Machine
end

