-- ==== Sys2Proof/Laws/Formats.lean ====
section
/-! SUPPORT. What each format of R80 answers once its specs are legal, its patterns fit them and its mode is one
it supports: the operation's own result, on the operands decoded. -/

namespace Sys2Proof.Machine

variable {s : State} {q : BitVec 3} {m : FixedMode} {rm : FloatMode}

/-- Format XB. -/
theorem fixedBinary_ready (o : OverflowMode) (x : FixedOperand → FixedOperand → Except Cause ℚ)
    (h : FixedReady2 s) (hm : fixedModeOf q = some m) :
    fixedBinary s.cfg s.request q o x =
      match x s.request.fixedA s.request.fixedB with
      | .ok y => .ok (.ofR (quantize s.cfg y s.request.dst.fixed m o))
      | .error c => .error c := by
  obtain ⟨⟨_, ha, pa, hb, pb⟩, hd⟩ := h
  simp only [fixedBinary, fixedOperand_of_legal ha pa, fixedOperand_of_legal hb pb, fixedSpec_of_legal hd,
    needFixedMode_of_some hm, bind, Except.bind, Request.fixedA, Request.fixedB]
  cases x (s.request.srcA.fixedOf s.request.a) (s.request.srcB.fixedOf s.request.b) <;> rfl

/-- Format XU with modes. -/
theorem fixedUnary_ready (o : OverflowMode) (extra : FixedOperand → FixedSpec → Bool) (x : FixedOperand → ℚ)
    (h : FixedReady1 s) (hx : extra s.request.fixedA s.request.dst.fixed = true)
    (hm : fixedModeOf q = some m) :
    fixedUnary s.cfg s.request q o extra x =
      .ok (.ofR (quantize s.cfg (x s.request.fixedA) s.request.dst.fixed m o)) := by
  obtain ⟨_, ha, pa, hd⟩ := h
  simp only [Request.fixedA] at hx
  simp only [fixedUnary, fixedOperand_of_legal ha pa, fixedSpec_of_legal hd, needFixedMode_of_some hm, bind,
    Except.bind, hx, require_true, Request.fixedA]
  rfl

/-- Format XN. -/
theorem fixedShift_ready (o : OverflowMode) (x : FixedOperand → Int → ℚ) (h : FixedReady1 s)
    (hn : 0 ≤ s.request.n) (hm : fixedModeOf q = some m) :
    fixedShift s.cfg s.request q o x =
      .ok (.ofR (quantize s.cfg (x s.request.fixedA s.request.n) s.request.dst.fixed m o)) := by
  obtain ⟨_, ha, pa, hd⟩ := h
  simp only [fixedShift, fixedOperand_of_legal ha pa, fixedSpec_of_legal hd, needFixedMode_of_some hm, bind,
    Except.bind, decide_eq_true hn, require_true, Request.fixedA]
  rfl

/-- Format XC. -/
theorem fixedCompare_ready (p : Int → Int → Bool) (h : FixedReadyPair s) :
    fixedCompare s.cfg s.request p =
      .ok (.ofR (bitOf (p (s.request.fixedA.aligned (commonF s.request.fixedA s.request.fixedB))
        (s.request.fixedB.aligned (commonF s.request.fixedA s.request.fixedB))))) := by
  obtain ⟨_, ha, pa, hb, pb⟩ := h
  simp only [fixedCompare, fixedOperand_of_legal ha pa, fixedOperand_of_legal hb pb, bind, Except.bind,
    Request.fixedA, Request.fixedB]
  rfl

/-- Format PB. -/
theorem floatBinary_ready (nosub : Bool) (x : FloatSpec → FloatMode → Extracted → Extracted → Bits)
    (h : FloatReady2 s) (hm : floatModeOf q = some rm) :
    floatBinary s.cfg s.request q nosub x =
      .ok (.ofR (x s.request.dst.float rm (s.request.floatA.input nosub) (s.request.floatB.input nosub))) := by
  obtain ⟨⟨_, ha, pa, hb, pb, eb⟩, hd, ed⟩ := h
  simp only [floatBinary, floatOperand_of_legal ha pa, floatOperand_of_legal hb pb, floatSpec_of_legal hd,
    needFloatMode_of_some hm, bind, Except.bind, Request.floatA, Request.floatB, FloatOperand.input,
    SpecRecord.floatOf, eb, ed, sameSpec_self]
  rfl

/-- Format PT. -/
theorem floatTernary_ready (nosub : Bool)
    (x : FloatSpec → FloatMode → Extracted → Extracted → Extracted → Bits) (h : FloatReady3 s)
    (hm : floatModeOf q = some rm) :
    floatTernary s.cfg s.request q nosub x =
      .ok (.ofR (x s.request.dst.float rm (s.request.floatA.input nosub) (s.request.floatB.input nosub)
        (s.request.floatC.input nosub))) := by
  obtain ⟨⟨⟨_, ha, pa, hb, pb, eb⟩, hd, ed⟩, hc, pc, ec⟩ := h
  simp only [floatTernary, floatOperand_of_legal ha pa, floatOperand_of_legal hb pb,
    floatOperand_of_legal hc pc, floatSpec_of_legal hd, needFloatMode_of_some hm, bind, Except.bind,
    Request.floatA, Request.floatB, Request.floatC, FloatOperand.input, SpecRecord.floatOf, eb, ec, ed,
    sameSpec_self]
  rfl

/-- Format PU. -/
theorem floatUnary_ready (nosub : Bool) (x : FloatSpec → FloatMode → Extracted → Bits) (h : FloatReady1 s)
    (hm : floatModeOf q = some rm) :
    floatUnary s.cfg s.request q nosub x =
      .ok (.ofR (x s.request.dst.float rm (s.request.floatA.input nosub))) := by
  obtain ⟨_, ha, pa, hd, ed⟩ := h
  simp only [floatUnary, floatOperand_of_legal ha pa, floatSpec_of_legal hd, needFloatMode_of_some hm, bind,
    Except.bind, Request.floatA, FloatOperand.input, SpecRecord.floatOf, ed, sameSpec_self]
  rfl

/-- Format PC. -/
theorem floatCompare_ready (p : FloatOperand → FloatOperand → Bool) (h : FloatReadyPair s) :
    floatCompare s.cfg s.request p = .ok (.ofR (bitOf (p s.request.floatA s.request.floatB))) := by
  obtain ⟨_, ha, pa, hb, pb, eb⟩ := h
  simp only [floatCompare, floatOperand_of_legal ha pa, floatOperand_of_legal hb pb, bind, Except.bind,
    Request.floatA, Request.floatB, SpecRecord.floatOf, eb, sameSpec_self]
  rfl

/-- Format PI. -/
theorem floatIntegral_ready (fn : ℚ → Int) (h : FloatReady1 s) :
    floatIntegral s.cfg s.request fn = .ok (.ofR (integralOf s.cfg fn s.request.floatA)) := by
  obtain ⟨_, ha, pa, hd, ed⟩ := h
  simp only [floatIntegral, floatOperand_of_legal ha pa, floatSpec_of_legal hd, bind, Except.bind,
    Request.floatA, SpecRecord.floatOf, ed, sameSpec_self]
  rfl

/-- A block that is not halted, serving a result that has `R` alone. -/
theorem serve_answer {r : Bits} (h : s.halted = false) : serve s (.ok (.ofR r)) = .next (s.answer r) :=
  serve_ok h _

end Sys2Proof.Machine
end

