-- ==== Sys2Proof/Laws/Numbers.lean ====
section
/-! SUPPORT. What the numeric helpers compute: `ilog2` (R12) and the integer square root (R276). -/

namespace Sys2Proof.Machine

/-- The bit length brackets a positive natural number. -/
theorem two_zpow_log2_le {n : ℕ} (hn : n ≠ 0) :
    (2 : ℚ) ^ (Nat.log2 n : ℤ) ≤ n ∧ (n : ℚ) < (2 : ℚ) ^ ((Nat.log2 n : ℤ) + 1) := by
  refine ⟨by exact_mod_cast Nat.log2_self_le hn, ?_⟩
  have h := Nat.lt_log2_self (n := n)
  have : (n : ℚ) < (2 : ℚ) ^ (Nat.log2 n + 1) := by exact_mod_cast h
  exact_mod_cast this

/-- `2^(ilog2 x) ≤ x < 2^(ilog2 x + 1)` (R12). -/
theorem ilog2_spec {x : ℚ} (hx : 0 < x) : (2 : ℚ) ^ ilog2 x ≤ x ∧ x < (2 : ℚ) ^ (ilog2 x + 1) := by
  have hnum : 0 < x.num := Rat.num_pos.mpr hx
  obtain ⟨n, hn⟩ : ∃ n : ℕ, x.num = n := ⟨x.num.toNat, by omega⟩
  have hn0 : n ≠ 0 := by omega
  have hd0 : x.den ≠ 0 := x.den_nz
  obtain ⟨hn1, hn2⟩ := two_zpow_log2_le hn0
  obtain ⟨hd1, hd2⟩ := two_zpow_log2_le hd0
  have hxe : x = (n : ℚ) / x.den := by
    conv_lhs => rw [← Rat.num_div_den x, hn]
    simp
  have hdpos : (0 : ℚ) < x.den := by exact_mod_cast Nat.pos_of_ne_zero hd0
  have two0 : (2 : ℚ) ≠ 0 := two_ne_zero
  set a : ℤ := (Nat.log2 n : ℤ) with ha
  set b : ℤ := (Nat.log2 x.den : ℤ) with hb
  have hup : x < (2 : ℚ) ^ (a - b + 1) := by
    rw [hxe, div_lt_iff₀ hdpos]
    calc (n : ℚ) < 2 ^ (a + 1) := hn2
      _ = 2 ^ (a - b + 1) * 2 ^ b := by rw [← zpow_add₀ two0]; congr 1; ring
      _ ≤ 2 ^ (a - b + 1) * x.den := by gcongr
  have hlo : (2 : ℚ) ^ (a - b - 1) ≤ x := by
    rw [hxe, le_div_iff₀ hdpos]
    calc (2 : ℚ) ^ (a - b - 1) * x.den ≤ 2 ^ (a - b - 1) * 2 ^ (b + 1) := by gcongr
      _ = 2 ^ a := by rw [← zpow_add₀ two0]; congr 1; ring
      _ ≤ n := hn1
  have he : ilog2 x = if (2 : ℚ) ^ (a - b) ≤ x then a - b else a - b - 1 := by
    simp only [ilog2, hn, Int.toNat_natCast]
    rfl
  rw [he]
  split
  · exact ⟨‹_›, hup⟩
  · refine ⟨hlo, ?_⟩
    rw [sub_add_cancel]
    exact lt_of_not_ge ‹_›

/-- `ilog2 x` is the only exponent that brackets `x` (R12). -/
theorem ilog2_eq {x : ℚ} {e : ℤ} (h1 : (2 : ℚ) ^ e ≤ x) (h2 : x < (2 : ℚ) ^ (e + 1)) : ilog2 x = e := by
  have hx : 0 < x := lt_of_lt_of_le (by positivity) h1
  obtain ⟨g1, g2⟩ := ilog2_spec hx
  have a := (zpow_lt_zpow_iff_right₀ (one_lt_two : (1 : ℚ) < 2)).mp (lt_of_le_of_lt h1 g2)
  have b := (zpow_lt_zpow_iff_right₀ (one_lt_two : (1 : ℚ) < 2)).mp (lt_of_le_of_lt g1 h2)
  omega

/-- The digit-by-digit root keeps a partial root whose square fits, and ends below the next one. -/
theorem isqrtFrom_spec (k n t : ℕ) (h1 : t * t ≤ n) (h2 : n < (t + 2 ^ k) * (t + 2 ^ k)) :
    isqrtFrom k n t * isqrtFrom k n t ≤ n ∧ n < (isqrtFrom k n t + 1) * (isqrtFrom k n t + 1) := by
  induction k generalizing t with
  | zero => simpa [isqrtFrom] using ⟨h1, h2⟩
  | succ k ih =>
    have hp : 2 ^ (k + 1) = 2 ^ k + 2 ^ k := by ring
    unfold isqrtFrom
    split
    · exact ih _ ‹_› (by rw [add_assoc, ← hp]; exact h2)
    · exact ih _ h1 (by omega)

/-- `isqrt n` is the largest integer whose square is at most `n` (R276). -/
theorem isqrt_spec (n : ℕ) : isqrt n * isqrt n ≤ n ∧ n < (isqrt n + 1) * (isqrt n + 1) := by
  refine isqrtFrom_spec _ n 0 (by simp) ?_
  have h := Nat.lt_log2_self (n := n)
  calc n < 2 ^ (Nat.log2 n + 1) := h
    _ ≤ 2 ^ ((Nat.log2 n / 2 + 1) + (Nat.log2 n / 2 + 1)) := Nat.pow_le_pow_right (by norm_num) (by omega)
    _ = (0 + 2 ^ (Nat.log2 n / 2 + 1)) * (0 + 2 ^ (Nat.log2 n / 2 + 1)) := by rw [pow_add]; ring

end Sys2Proof.Machine
end

