-- ==== Sys2Proof/Laws/PerInstr.lean ====
section
/-! SUPPORT. Families of facts about instructions as syntax, one lemma per constructor. -/

namespace Sys2Proof.Laws

/-- The encoding of the instruction has the reserved bits 15 and 14 zero (R77). -/
def ReservedBitsZero.Statement : Instr → Prop := fun i => fieldReserved (encode i) = 0#2

namespace ReservedBitsZero

/-- The reserved bits of an assembled word are 0, whatever its fields. -/
theorem opselWord_reserved (op : BitVec 6) (q : BitVec 3) (o : OverflowMode) (nosub mapinf norm : Bool) :
    fieldReserved (opselWord op q o nosub mapinf norm) = 0#2 := by
  ext k hk
  simp only [fieldReserved, opselWord, BitVec.getElem_extractLsb', BitVec.getLsbD_append]
  have : k = 0 ∨ k = 1 := by omega
  rcases this with rfl | rfl <;> simp

theorem fxqCvt (q : BitVec 3) (o : OverflowMode) : Statement (.fxqCvt q o) := opselWord_reserved _ _ _ _ _ _
theorem fxqRnd (q : BitVec 3) : Statement (.fxqRnd q) := opselWord_reserved _ _ _ _ _ _
theorem fxqOvf (o : OverflowMode) : Statement (.fxqOvf o) := opselWord_reserved _ _ _ _ _ _
theorem fxAdd (q : BitVec 3) (o : OverflowMode) : Statement (.fxAdd q o) := opselWord_reserved _ _ _ _ _ _
theorem fxSub (q : BitVec 3) (o : OverflowMode) : Statement (.fxSub q o) := opselWord_reserved _ _ _ _ _ _
theorem fxMul (q : BitVec 3) (o : OverflowMode) : Statement (.fxMul q o) := opselWord_reserved _ _ _ _ _ _
theorem fxDiv (q : BitVec 3) (o : OverflowMode) : Statement (.fxDiv q o) := opselWord_reserved _ _ _ _ _ _
theorem fxAnd (q : BitVec 3) (o : OverflowMode) : Statement (.fxAnd q o) := opselWord_reserved _ _ _ _ _ _
theorem fxOr (q : BitVec 3) (o : OverflowMode) : Statement (.fxOr q o) := opselWord_reserved _ _ _ _ _ _
theorem fxXor (q : BitVec 3) (o : OverflowMode) : Statement (.fxXor q o) := opselWord_reserved _ _ _ _ _ _
theorem fxShl (q : BitVec 3) (o : OverflowMode) : Statement (.fxShl q o) := opselWord_reserved _ _ _ _ _ _
theorem fxShr (q : BitVec 3) (o : OverflowMode) : Statement (.fxShr q o) := opselWord_reserved _ _ _ _ _ _
theorem fxNeg (q : BitVec 3) (o : OverflowMode) : Statement (.fxNeg q o) := opselWord_reserved _ _ _ _ _ _
theorem fxNot (q : BitVec 3) (o : OverflowMode) : Statement (.fxNot q o) := opselWord_reserved _ _ _ _ _ _
theorem fxInc (q : BitVec 3) (o : OverflowMode) : Statement (.fxInc q o) := opselWord_reserved _ _ _ _ _ _
theorem fxDec (q : BitVec 3) (o : OverflowMode) : Statement (.fxDec q o) := opselWord_reserved _ _ _ _ _ _
theorem fxEq : Statement .fxEq := opselWord_reserved _ _ _ _ _ _
theorem fxNe : Statement .fxNe := opselWord_reserved _ _ _ _ _ _
theorem fxLt : Statement .fxLt := opselWord_reserved _ _ _ _ _ _
theorem fxLe : Statement .fxLe := opselWord_reserved _ _ _ _ _ _
theorem fxGt : Statement .fxGt := opselWord_reserved _ _ _ _ _ _
theorem fxGe : Statement .fxGe := opselWord_reserved _ _ _ _ _ _
theorem fxSlc : Statement .fxSlc := opselWord_reserved _ _ _ _ _ _
theorem fxSetslc : Statement .fxSetslc := opselWord_reserved _ _ _ _ _ _
theorem fxToint : Statement .fxToint := opselWord_reserved _ _ _ _ _ _
theorem fxFromint (q : BitVec 3) (o : OverflowMode) : Statement (.fxFromint q o) := opselWord_reserved _ _ _ _ _ _
theorem fpExtract (nosub : Bool) (norm : Bool) : Statement (.fpExtract nosub norm) := opselWord_reserved _ _ _ _ _ _
theorem fpRndasm (q : BitVec 3) (nosub : Bool) : Statement (.fpRndasm q nosub) := opselWord_reserved _ _ _ _ _ _
theorem fpAdd (q : BitVec 3) (nosub : Bool) : Statement (.fpAdd q nosub) := opselWord_reserved _ _ _ _ _ _
theorem fpSub (q : BitVec 3) (nosub : Bool) : Statement (.fpSub q nosub) := opselWord_reserved _ _ _ _ _ _
theorem fpMul (q : BitVec 3) (nosub : Bool) : Statement (.fpMul q nosub) := opselWord_reserved _ _ _ _ _ _
theorem fpDiv (q : BitVec 3) (nosub : Bool) : Statement (.fpDiv q nosub) := opselWord_reserved _ _ _ _ _ _
theorem fpFma (q : BitVec 3) (nosub : Bool) : Statement (.fpFma q nosub) := opselWord_reserved _ _ _ _ _ _
theorem fpSqrt (q : BitVec 3) (nosub : Bool) : Statement (.fpSqrt q nosub) := opselWord_reserved _ _ _ _ _ _
theorem fpEq : Statement .fpEq := opselWord_reserved _ _ _ _ _ _
theorem fpNe : Statement .fpNe := opselWord_reserved _ _ _ _ _ _
theorem fpLt : Statement .fpLt := opselWord_reserved _ _ _ _ _ _
theorem fpLe : Statement .fpLe := opselWord_reserved _ _ _ _ _ _
theorem fpGt : Statement .fpGt := opselWord_reserved _ _ _ _ _ _
theorem fpGe : Statement .fpGe := opselWord_reserved _ _ _ _ _ _
theorem fpCeil : Statement .fpCeil := opselWord_reserved _ _ _ _ _ _
theorem fpFloor : Statement .fpFloor := opselWord_reserved _ _ _ _ _ _
theorem fpTrunc : Statement .fpTrunc := opselWord_reserved _ _ _ _ _ _
theorem fpRound : Statement .fpRound := opselWord_reserved _ _ _ _ _ _
theorem cvFx2f (q : BitVec 3) (nosub : Bool) : Statement (.cvFx2f q nosub) := opselWord_reserved _ _ _ _ _ _
theorem cvF2fx (q : BitVec 3) (o : OverflowMode) (mapinf : Bool) : Statement (.cvF2fx q o mapinf) := opselWord_reserved _ _ _ _ _ _
theorem cvF2f (q : BitVec 3) (nosub : Bool) : Statement (.cvF2f q nosub) := opselWord_reserved _ _ _ _ _ _

end ReservedBitsZero

end Sys2Proof.Laws
end

