-- ==== Sys2Proof/Laws/Rounding.lean ====
section
/-! SUPPORT. What the two cores and the patterns they build can do: the rounder adds at most one quantum, the overflow
handler stores an integer of the range, a pattern read back gives the integer or the fields it was built from, and an
assembled result is a zero, the largest finite value, an Infinity or a finite pattern. -/

namespace Sys2Proof.Machine

/-! ## Integers and patterns of a fixed spec -/

variable {d : FixedSpec} {o : OverflowMode} {t v : ℤ}

/-- The range of a spec is not empty and holds 0 (R72). -/
theorem FixedSpec.kmin_le_zero_le_kmax (d : FixedSpec) : d.kmin ≤ 0 ∧ 0 ≤ d.kmax := by
  have h1 : (0 : ℤ) < 2 ^ (d.w - 1) := by positivity
  have h2 : (0 : ℤ) < 2 ^ d.w := by positivity
  unfold FixedSpec.kmin FixedSpec.kmax
  split <;> constructor <;> omega

/-- The integer of a pattern lies in the range of its spec (R70, R72). -/
theorem fixedInt_range (p : Bits) (hp : p.width = d.w) : d.kmin ≤ fixedInt d.s p ∧ fixedInt d.s p ≤ d.kmax := by
  unfold fixedInt FixedSpec.kmin FixedSpec.kmax
  rw [← hp]
  split
  · have h1 := BitVec.le_toInt p.val
    have h2 := BitVec.toInt_lt (x := p.val)
    unfold sint
    constructor <;> omega
  · have := p.val.isLt
    unfold uint
    constructor
    · positivity
    · have : ((p.val.toNat : ℕ) : ℤ) < ((2 ^ p.width : ℕ) : ℤ) := by exact_mod_cast this
      push_cast at this
      omega

/-- An integer of the range, written as a pattern, reads back as itself (R11, R70). -/
theorem fixedInt_bitsOf (hw : 1 ≤ d.w) (h1 : d.kmin ≤ v) (h2 : v ≤ d.kmax) :
    fixedInt d.s (bitsOf d.w v) = v := by
  unfold FixedSpec.kmin at h1
  unfold FixedSpec.kmax at h2
  unfold fixedInt bitsOf
  have hpow : (2 : ℤ) ^ d.w = 2 * 2 ^ (d.w - 1) := by
    conv_lhs => rw [show d.w = (d.w - 1) + 1 by omega]
    ring
  split
  · rename_i hs
    rw [if_pos hs] at h1 h2
    simp only [sint, BitVec.toInt_ofInt]
    apply Int.bmod_eq_of_le
    · push_cast
      rw [hpow]
      omega
    · push_cast
      rw [hpow]
      omega
  · rename_i hs
    rw [if_neg hs] at h1 h2
    simp only [uint, BitVec.toNat_ofInt]
    push_cast
    rw [Int.toNat_of_nonneg (Int.emod_nonneg _ (by positivity))]
    exact Int.emod_eq_of_lt h1 (by omega)

/-- A pattern's integer, written at its width, is the pattern (R11, R70). -/
theorem bitsOf_fixedInt (s : Bool) (p : Bits) : bitsOf p.width (fixedInt s p) = p := by
  cases p with
  | mk w val =>
    unfold fixedInt bitsOf
    split <;> simp [sint, uint]

/-! ## The engine -/

/-- The rounder on a rational adds at most one quantum to the floor (R123). -/
theorem roundRat_t (cfg : Config) (m : FixedMode) (x : ℚ) (fd : ℤ) :
    (roundRat cfg m x fd).t = ⌊x * 2 ^ fd⌋ + (roundRat cfg m x fd).inc.toNat := rfl

/-- The rounder on a rational whose value is on the destination's grid changes nothing and adds nothing (R112). -/
theorem roundRat_of_int (cfg : Config) (m : FixedMode) {x : ℚ} {fd k : ℤ} (h : x * 2 ^ fd = k) :
    roundRat cfg m x fd = ⟨k, false⟩ := by
  have hg : guardBit (x * 2 ^ fd - ⌊x * 2 ^ fd⌋) = false := by simp [h, guardBit]
  have hs : stickyBit (x * 2 ^ fd - ⌊x * 2 ^ fd⌋) = false := by simp [h, stickyBit]
  have hi : ∀ s lsb, roundUp cfg.literalRoundTable m false false s lsb = false := by
    intro s lsb
    cases m <;> simp [roundUp]
  simp only [roundRat, hg, hs, hi]
  simp [h]

/-- The overflow handler on an integer of the range: no overflow, and only SaturateSymmetric moves `kmin`
(R120, R122). -/
theorem fitInt_of_range (h1 : d.kmin ≤ t) (h2 : t ≤ d.kmax) :
    fitInt d o t = ⟨if o = .saturateSymmetric ∧ d.s = true ∧ t = d.kmin then d.kmin + 1 else t, false⟩ := by
  have : overflows d.kmin d.kmax t = false := by simp [overflows, h1, h2]
  simp only [fitInt, this]
  congr 1
  by_cases a : o = .saturateSymmetric <;> by_cases b : d.s = true <;> by_cases c : t = d.kmin <;> simp [a, b, c]

/-- Every overflow mode but Wrap stores an integer of the range (R120). -/
theorem fitInt_range (ho : o ≠ .wrap) :
    d.kmin ≤ (fitInt d o t).v ∧ (fitInt d o t).v ≤ d.kmax := by
  obtain ⟨h0, h0'⟩ := d.kmin_le_zero_le_kmax
  have hk : d.s = true → d.kmin + 1 ≤ d.kmax := by
    intro hs
    have : (0 : ℤ) < 2 ^ (d.w - 1) := by positivity
    simp only [FixedSpec.kmin, FixedSpec.kmax, hs, if_true]
    omega
  have hsym : d.kmin ≤ d.symmetricMin ∧ d.symmetricMin ≤ d.kmax := by
    unfold FixedSpec.symmetricMin
    split
    · exact ⟨by omega, hk ‹_›⟩
    · omega
  have last : ∀ (c : Bool) (v : ℤ), d.kmin ≤ v → v ≤ d.kmax →
      d.kmin ≤ (if c && d.s && v = d.kmin then d.kmin + 1 else v) ∧
        (if c && d.s && v = d.kmin then d.kmin + 1 else v) ≤ d.kmax := by
    intro c v h1 h2
    split
    · rename_i h
      simp only [Bool.and_eq_true] at h
      exact ⟨by omega, hk h.1.2⟩
    · exact ⟨h1, h2⟩
  by_cases h : overflows d.kmin d.kmax t = true
  · simp only [fitInt, h, if_true]
    cases o with
    | wrap => exact absurd rfl ho
    | saturate => apply last <;> (dsimp only; split <;> omega)
    | saturateToZero => exact last _ _ h0 h0'
    | saturateSymmetric => apply last <;> (dsimp only; split <;> omega)
  · have h' : d.kmin ≤ t ∧ t ≤ d.kmax := by
      simp only [overflows, Bool.or_eq_true, decide_eq_true_eq, not_or, not_lt] at h
      exact h
    simp only [fitInt, h]
    exact last _ _ h'.1 h'.2

/-- A result of the engine has the width of its spec (R120). -/
@[simp] theorem quantize_width (cfg : Config) (x : ℚ) (d : FixedSpec) (m : FixedMode) (o : OverflowMode) :
    (quantize cfg x d m o).width = d.w := rfl

/-! ## Patterns of a float spec -/

variable {f : FloatSpec}

/-- A built pattern has the width of its spec. -/
@[simp] theorem FloatSpec.pack_width (f : FloatSpec) (s : Bool) (ef mf : ℕ) : (f.pack s ef mf).width = f.w := rfl

/-- The width of a legal float spec is its sign, exponent and mantissa bits (R73). -/
theorem FloatSpec.Legal.width (h : f.Legal) : f.w = f.m + f.e + 1 := by
  have := h.1
  have := h.2
  unfold FloatSpec.m
  omega

/-- The number a built pattern is (R11, R73). -/
theorem FloatSpec.uint_pack (h : f.Legal) {s : Bool} {ef mf : ℕ} (he : ef < 2 ^ f.e) (hm : mf < 2 ^ f.m) :
    uint (f.pack s ef mf) = s.toNat * 2 ^ (f.w - 1) + (ef * 2 ^ f.m + mf) ∧ ef * 2 ^ f.m + mf < 2 ^ (f.w - 1) := by
  have hw := h.width
  have h1 : f.w - 1 = f.e + f.m := by omega
  have hlt : ef * 2 ^ f.m + mf < 2 ^ (f.w - 1) := by
    rw [h1, pow_add]
    calc ef * 2 ^ f.m + mf < ef * 2 ^ f.m + 2 ^ f.m := by omega
      _ = (ef + 1) * 2 ^ f.m := by ring
      _ ≤ 2 ^ f.e * 2 ^ f.m := Nat.mul_le_mul_right _ he
  refine ⟨?_, hlt⟩
  have h2 : 2 ^ f.w = 2 * 2 ^ (f.w - 1) := by
    conv_lhs => rw [show f.w = (f.w - 1) + 1 by omega]
    ring
  simp only [FloatSpec.pack, uint, BitVec.toNat_ofNat]
  rw [Nat.mod_eq_of_lt]
  · ring
  · cases s <;> simp <;> omega

/-- A built pattern reads back as the fields it was built from (R73). -/
theorem FloatSpec.read_pack (h : f.Legal) {s : Bool} {ef mf : ℕ} (he : ef < 2 ^ f.e) (hm : mf < 2 ^ f.m) :
    (f.read (f.pack s ef mf)).sign = s ∧ (f.read (f.pack s ef mf)).ef = ef ∧
      (f.read (f.pack s ef mf)).mf = mf := by
  obtain ⟨hu, hlt⟩ := f.uint_pack h (s := s) he hm
  have hw := h.width
  have h1 : f.w - 1 = f.m + f.e := by omega
  refine ⟨?_, ?_, ?_⟩
  · simp only [FloatOperand.sign, FloatSpec.read, hu]
    rw [Nat.add_comm, Nat.add_mul_div_right _ _ (by positivity), Nat.div_eq_of_lt hlt]
    cases s <;> simp
  · simp only [FloatOperand.ef, FloatSpec.read, hu]
    have : s.toNat * 2 ^ (f.w - 1) + (ef * 2 ^ f.m + mf) = mf + (s.toNat * 2 ^ f.e + ef) * 2 ^ f.m := by
      rw [h1, pow_add]
      ring
    rw [this, Nat.add_mul_div_right _ _ (by positivity), Nat.div_eq_of_lt hm, Nat.zero_add, Nat.add_comm,
      Nat.add_mul_mod_self_right, Nat.mod_eq_of_lt he]
  · simp only [FloatOperand.mf, FloatSpec.read, hu]
    have : s.toNat * 2 ^ (f.w - 1) + (ef * 2 ^ f.m + mf) = mf + (s.toNat * 2 ^ f.e + ef) * 2 ^ f.m := by
      rw [h1, pow_add]
      ring
    rw [this, Nat.add_mul_mod_self_right, Nat.mod_eq_of_lt hm]

/-! ## Round and assemble -/

/-- All that the end of the rounding can give: a zero, the largest finite value (under TruncateTowardZero), an
Infinity (under a nearest mode), a normal or a subnormal pattern, each with the sign handed in (R210 to R215). -/
theorem assemble_cases (cfg : Config) (f : FloatSpec) (rm : FloatMode) (nosub s : Bool) (e : ℤ) (t0 : ℕ)
    (g st : Bool) :
    assemble cfg f rm nosub s e t0 g st = f.zero s ∨
    (rm = .truncateTowardZero ∧ assemble cfg f rm nosub s e t0 g st = f.maxFinite s) ∨
    (rm ≠ .truncateTowardZero ∧ assemble cfg f rm nosub s e t0 g st = f.inf s) ∨
    ∃ ef mf, assemble cfg f rm nosub s e t0 g st = f.pack s ef mf := by
  unfold assemble
  simp only
  repeat' split
  all_goals first
    | exact .inl rfl
    | exact .inr (.inl ⟨‹_›, rfl⟩)
    | exact .inr (.inr (.inl ⟨‹_›, rfl⟩))
    | exact .inr (.inr (.inr ⟨_, _, rfl⟩))

/-- The magnitude 0 is the zero of its sign (R214). -/
@[simp] theorem roundAssemble_zero (cfg : Config) (f : FloatSpec) (rm : FloatMode) (nosub s : Bool) :
    roundAssemble cfg f rm nosub s 0 = f.zero s := by simp [roundAssemble]

/-- Any other magnitude is assembled from its exponent, its truncated mantissa and the two bits below (R214). -/
theorem roundAssemble_of_ne_zero (cfg : Config) (f : FloatSpec) (rm : FloatMode) (nosub s : Bool) {x : ℚ}
    (hx : x ≠ 0) :
    roundAssemble cfg f rm nosub s x =
      assemble cfg f rm nosub s (ilog2 x) ⌊x / 2 ^ (max (ilog2 x) f.emin - f.m)⌋.toNat
        (guardBit (Int.fract (x / 2 ^ (max (ilog2 x) f.emin - f.m))))
        (stickyBit (Int.fract (x / 2 ^ (max (ilog2 x) f.emin - f.m)))) := by
  rw [roundAssemble, if_neg hx]
  rfl

end Sys2Proof.Machine
end

