-- ==== Sys2Proof/Laws/Step.lean ====
section
/-! SUPPORT. What one step can do, said once for each thing the host may have presented, and how a run takes its
first step. -/

namespace Sys2Proof.Machine

/-- With nothing presented a step leaves the state as it is (log 3). -/
theorem step_nil {s : State} (h : s.inbox = []) : step s = .next s := by
  simp [step, fetch_nil h]

/-- A step on an asserted reset. -/
theorem step_reset {s : State} {p : Option Request} {rest : List HostInput} (h : s.inbox = .reset p :: rest) :
    step s = .next (s.withInbox rest).assertReset := by
  simp [step, fetch_reset h]

/-- A step on a presented request serves an outcome that is a function of the parameters and the request alone. -/
theorem step_request :
    ∃ f : Config → Request → Except Cause Response, ∀ (s : State) (r : Request) (rest : List HostInput),
      s.inbox = .request r :: rest →
        step s = serve ((s.withInbox rest).present r) (f s.cfg r) := by
  choose f hf using exec_eq_serve
  refine ⟨fun cfg r => match decode r.opsel with
    | .ok i => f i cfg r
    | .error _ => .error .illegalOperation, fun s r rest h => ?_⟩
  cases hd : decode r.opsel with
  | ok i => simp only [step, fetch_run h hd, hf]; simp [hd]
  | error e => simp only [step, fetch_illegal h hd, refuseIllegal, hd]

/-- A run of `n + 1` steps whose first step answers `t` is the run of `n` steps from `t`. -/
theorem run_succ {s t : State} (n : ℕ) (h : step s = .next t) :
    Host.Core.run core (n + 1) s = Host.Core.run core n t := by
  have h' : core.step s = .next t := h
  simp only [Host.Core.run, h']

end Sys2Proof.Machine
end

