-- ==== Sys2Proof/Machine/Pseudo.lean ====
section
/-! DEFINITION. The named formats of R9 and the pseudo-operations of R89: constructions that are a request for
another operation with fixed parameters. None has an encoding of its own and no meaning reads this file. -/

namespace Sys2Proof.Machine

/-- A fixed spec record `(W, I, S)` (R79). -/
def fixedRecord (w i : Int) (s : Bool) : SpecRecord := ⟨w, i, s, 0⟩

/-- A float spec record `(W, E)` (R79). -/
def floatRecord (w e : Int) : SpecRecord := ⟨w, 0, false, e⟩

/-- `BFloat16` (R9). -/
def bfloat16 : SpecRecord := floatRecord 16 8

/-- `IeeeFloat<Format>` by its width (R9, D32). -/
def ieeeFloat (width : Nat) : Option SpecRecord :=
  match width with
  | 16 => some (floatRecord 16 5)
  | 32 => some (floatRecord 32 8)
  | 64 => some (floatRecord 64 11)
  | 128 => some (floatRecord 128 15)
  | 256 => some (floatRecord 256 19)
  | _ => none

/-- The host's double, `fp(64,11)` (R89, D32). -/
def hostDouble : SpecRecord := floatRecord 64 11

/-- A request for a one-operand operation. -/
def requestUnary (i : Instr) (src : SpecRecord) (a : Bits) (dst : SpecRecord) : Request :=
  { Request.blank with opsel := encode i, srcA := src, a := a, dst := dst }

/-- Explicit cast Fixed to Fixed (R89). -/
def castFixed (q : BitVec 3) (o : OverflowMode) (src : SpecRecord) (a : Bits) (dst : SpecRecord) : Request :=
  requestUnary (.fxqCvt q o) src a dst

/-- Fixed from an integer or a literal of the width of `a` (R89). -/
def fixedFromInteger (q : BitVec 3) (o : OverflowMode) (signed : Bool) (a : Bits) (dst : SpecRecord) : Request :=
  requestUnary (.fxFromint q o) (fixedRecord a.width a.width signed) a dst

/-- Fixed from a host double (R89). -/
def fixedFromDouble (q : BitVec 3) (o : OverflowMode) (a : Bits) (dst : SpecRecord) : Request :=
  requestUnary (.cvF2fx q o false) hostDouble a dst

/-- StdFloat from a host double, under RoundNearestEven (R89, R354). -/
def floatFromDouble (a : Bits) (dst : SpecRecord) : Request :=
  requestUnary (.cvF2f FloatMode.roundNearestEven.code false) hostDouble a dst

/-- StdFloat converted back to double, under a mode of the caller's (R89). -/
def floatToDouble (q : BitVec 3) (src : SpecRecord) (a : Bits) : Request :=
  requestUnary (.cvF2f q false) src a hostDouble

/-- Fixed to double, under TruncateTowardZero (R89, R337). -/
def fixedToDouble (src : SpecRecord) (a : Bits) : Request :=
  requestUnary (.cvFx2f FloatMode.truncateTowardZero.code false) src a hostDouble

/-- A two-operand request for the operation `i` on operands of one spec, which is the spec of the result too. -/
def requestBinary (i : Instr) (spec : SpecRecord) (a b : Bits) : Request :=
  { requestUnary i spec a spec with srcB := spec, b := b }

/-- An in-place operator (`+=` etc.): the fixed-point operator `op` with `DST` equal to `SRC_A`, under the rounding
mode `q` and the overflow mode `o` that the type of `A` has as its own (R34, R89, R168). The other operands are those
of `r`. -/
def inPlace (op : BitVec 3 → OverflowMode → Instr) (q : BitVec 3) (o : OverflowMode) (r : Request) : Request :=
  { r with opsel := encode (op q o), dst := r.srcA }

/-- What the host stores for operand `A` after an in-place operator: the result, where there is one, replaces the
stored pattern wholesale (R34, R89). -/
def writeBack (stored : Bits) : Delivery → Bits
  | .done resp => resp.r.getD stored
  | .contractViolation _ => stored
  | .halted => stored

/-- `add<RoundMode,NoSubnormals,EffectiveAdd>`: FP.ADD with `EffectiveAdd` true, FP.SUB with it false (R89, R243). -/
def addEntry (rm : FloatMode) (nosub effectiveAdd : Bool) : Instr :=
  if effectiveAdd then .fpAdd rm.code nosub else .fpSub rm.code nosub

/-- The request for that entry point on two operands of one float spec (R89, R240). -/
def requestAdd (rm : FloatMode) (nosub effectiveAdd : Bool) (spec : SpecRecord) (a b : Bits) : Request :=
  requestBinary (addEntry rm nosub effectiveAdd) spec a b

/-- The wire width of a value: the width of its pattern (R57). -/
def wireWidth (p : Bits) : Nat := p.width

end Sys2Proof.Machine
end

