-- ==== Sys2Proof/Tests/Slice0.lean ====
section
/-! SUPPORT. The model's own tests: the ill-formed terms that `WellFormed` refuses, a word written out for every
operation, one step per operation with the results that 95_test_vectors.md and the rules' examples print, and a state
that meets the hypotheses of each statement. -/

namespace Sys2Proof.Tests

open Sys2Proof.Machine

set_option Elab.async false

/-! ## Helpers -/

/-- A fixed spec `fx(w, i, s)`. -/
def fx (w i : Int) (s : Bool) : SpecRecord := fixedRecord w i s
/-- A float spec `fp(w, e)`. -/
def fp (w e : Int) : SpecRecord := floatRecord w e
/-- A `w`-bit pattern. -/
def pat (w n : Nat) : Bits := ⟨w, BitVec.ofNat w n⟩
/-- The single-precision spec of the vectors. -/
def f32 : SpecRecord := fp 32 8
/-- A single-precision pattern. -/
def p32 (n : Nat) : Bits := pat 32 n

/-- A request with the operands a test names, and blank elsewhere. -/
def req (op : BitVec 16) (dst srcA : SpecRecord) (a : Bits) (srcB : SpecRecord := .blank)
    (b : Bits := ⟨4, 0#4⟩) : Request :=
  { Request.blank with opsel := op, dst := dst, srcA := srcA, a := a, srcB := srcB, b := b }

/-- The state in which the host presents `r` next, after reset. -/
def given (r : Request) : State := { State.reset with inbox := [.request r] }

/-- The state in which `r` is being served, after reset. -/
def serving (r : Request) : State := { State.reset with request := r }

/-- What one step on the request yields. -/
def outcome (r : Request) : Option Delivery :=
  match step (given r) with
  | .next t => t.delivered.head?
  | .fault _ => none
  | .refused _ => none

/-- The result pattern, as a number, of one step on the request. -/
def result (r : Request) : Option Nat :=
  match outcome r with
  | some (.done resp) => resp.r.map uint
  | _ => none

/-- A two-operand single-precision request. -/
def f2 (op : BitVec 16) (a b : Nat) : Request := req op f32 f32 (p32 a) f32 (p32 b)

/-! ## WellFormed -/

/-- `Q = 7` is no fixed-point mode (R82). -/
theorem test_wellFormed_refuses_fixed_mode_7 :
    WellFormed (.fxqCvt 7#3 .wrap) = false ∧ WellFormed (.fxqRnd 7#3) = false ∧
      WellFormed (.fxAdd 7#3 .wrap) = false ∧ WellFormed (.fxShl 7#3 .wrap) = false ∧
      WellFormed (.fxNeg 7#3 .wrap) = false ∧ WellFormed (.fxFromint 7#3 .wrap) = false ∧
      WellFormed (.cvF2fx 7#3 .wrap false) = false := by decide

/-- `Q` of 0, 1, 2 and 7 is no floating-point mode (R84). -/
theorem test_wellFormed_refuses_float_modes :
    WellFormed (.fpRndasm 0#3 false) = false ∧ WellFormed (.fpAdd 1#3 false) = false ∧
      WellFormed (.fpMul 2#3 false) = false ∧ WellFormed (.fpFma 7#3 false) = false ∧
      WellFormed (.fpSqrt 0#3 true) = false ∧ WellFormed (.cvFx2f 1#3 false) = false ∧
      WellFormed (.cvF2f 2#3 false) = false := by decide

/-- The modes of the tables are accepted (R82, R84). -/
theorem test_wellFormed_accepts :
    (∀ q : Fin 7, WellFormed (.fxAdd (BitVec.ofNat 3 q) .saturate) = true) ∧
      (∀ q ∈ [3#3, 4#3, 5#3, 6#3], WellFormed (.fpAdd q true) = true) := by decide

/-! ## Decode: a word written out for every operation, bits 15 to 0 as R77 lays them out -/

/-- Words of the quantizer operations (R77, R78). -/
theorem test_decode_quantizer :
    decode 0b00_0_0_0_11_101_000000#16 = .ok (.fxqCvt 5#3 .saturateSymmetric) ∧
    decode 0b00_0_0_0_00_100_000001#16 = .ok (.fxqRnd 4#3) ∧
    decode 0b00_0_0_0_01_000_000010#16 = .ok (.fxqOvf .saturate) := by
  decide

/-- Words of the fixed arithmetic operations (R77, R78). -/
theorem test_decode_fixed_arithmetic :
    decode 0b00_0_0_0_00_001_001000#16 = .ok (.fxAdd 1#3 .wrap) ∧
    decode 0b00_0_0_0_01_010_001001#16 = .ok (.fxSub 2#3 .saturate) ∧
    decode 0b00_0_0_0_10_011_001010#16 = .ok (.fxMul 3#3 .saturateToZero) ∧
    decode 0b00_0_0_0_11_110_001011#16 = .ok (.fxDiv 6#3 .saturateSymmetric) := by
  decide

/-- Words of the fixed bitwise operations (R77, R78). -/
theorem test_decode_fixed_bitwise :
    decode 0b00_0_0_0_01_000_001100#16 = .ok (.fxAnd 0#3 .saturate) ∧
    decode 0b00_0_0_0_10_111_001101#16 = .ok (.fxOr 7#3 .saturateToZero) ∧
    decode 0b00_0_0_0_00_101_001110#16 = .ok (.fxXor 5#3 .wrap) := by
  decide

/-- Words of the fixed shift unary operations (R77, R78). -/
theorem test_decode_fixed_shift_unary :
    decode 0b00_0_0_0_01_000_001111#16 = .ok (.fxShl 0#3 .saturate) ∧
    decode 0b00_0_0_0_00_100_010000#16 = .ok (.fxShr 4#3 .wrap) ∧
    decode 0b00_0_0_0_01_001_010001#16 = .ok (.fxNeg 1#3 .saturate) ∧
    decode 0b00_0_0_0_10_000_010010#16 = .ok (.fxNot 0#3 .saturateToZero) ∧
    decode 0b00_0_0_0_11_010_010011#16 = .ok (.fxInc 2#3 .saturateSymmetric) ∧
    decode 0b00_0_0_0_01_110_010100#16 = .ok (.fxDec 6#3 .saturate) := by
  decide

/-- Words of the fixed compare operations (R77, R78). -/
theorem test_decode_fixed_compare :
    decode 0b00_0_0_0_00_000_010101#16 = .ok .fxEq ∧
    decode 0b00_1_1_1_11_111_010110#16 = .ok .fxNe ∧
    decode 0b00_0_0_0_00_000_010111#16 = .ok .fxLt ∧
    decode 0b00_0_0_0_00_000_011000#16 = .ok .fxLe ∧
    decode 0b00_0_0_0_00_000_011001#16 = .ok .fxGt ∧
    decode 0b00_0_0_0_00_000_011010#16 = .ok .fxGe := by
  decide

/-- Words of the fixed slice integer operations (R77, R78). -/
theorem test_decode_fixed_slice_integer :
    decode 0b00_0_0_0_00_000_011011#16 = .ok .fxSlc ∧
    decode 0b00_0_0_0_00_000_011100#16 = .ok .fxSetslc ∧
    decode 0b00_0_0_0_11_111_011101#16 = .ok .fxToint ∧
    decode 0b00_0_0_0_01_011_011110#16 = .ok (.fxFromint 3#3 .saturate) := by
  decide

/-- Words of the float front back operations (R77, R78). -/
theorem test_decode_float_front_back :
    decode 0b00_1_0_0_00_000_100000#16 = .ok (.fpExtract false true) ∧
    decode 0b00_0_0_1_00_000_100000#16 = .ok (.fpExtract true false) ∧
    decode 0b00_0_0_1_00_100_100001#16 = .ok (.fpRndasm 4#3 true) := by
  decide

/-- Words of the float arithmetic operations (R77, R78). -/
theorem test_decode_float_arithmetic :
    decode 0b00_0_0_0_00_100_100010#16 = .ok (.fpAdd 4#3 false) ∧
    decode 0b00_0_0_1_00_110_100011#16 = .ok (.fpSub 6#3 true) ∧
    decode 0b00_0_0_0_11_011_100100#16 = .ok (.fpMul 3#3 false) ∧
    decode 0b00_0_0_1_00_101_100101#16 = .ok (.fpDiv 5#3 true) ∧
    decode 0b00_0_1_0_00_100_100110#16 = .ok (.fpFma 4#3 false) ∧
    decode 0b00_0_0_0_00_000_100111#16 = .ok (.fpSqrt 0#3 false) := by
  decide

/-- Words of the float compare operations (R77, R78). -/
theorem test_decode_float_compare :
    decode 0b00_0_0_1_00_111_101000#16 = .ok .fpEq ∧
    decode 0b00_0_0_0_00_000_101001#16 = .ok .fpNe ∧
    decode 0b00_0_0_0_00_000_101010#16 = .ok .fpLt ∧
    decode 0b00_0_0_0_00_000_101011#16 = .ok .fpLe ∧
    decode 0b00_0_0_0_00_000_101100#16 = .ok .fpGt ∧
    decode 0b00_0_0_0_00_000_101101#16 = .ok .fpGe := by
  decide

/-- Words of the float integral operations (R77, R78). -/
theorem test_decode_float_integral :
    decode 0b00_0_0_0_00_000_101110#16 = .ok .fpCeil ∧
    decode 0b00_0_0_0_00_000_101111#16 = .ok .fpFloor ∧
    decode 0b00_0_0_0_00_000_110000#16 = .ok .fpTrunc ∧
    decode 0b00_0_0_0_00_000_110001#16 = .ok .fpRound := by
  decide

/-- Words of the conversion operations (R77, R78). -/
theorem test_decode_conversion :
    decode 0b00_0_0_1_00_100_111000#16 = .ok (.cvFx2f 4#3 true) ∧
    decode 0b00_0_1_0_10_110_111001#16 = .ok (.cvF2fx 6#3 .saturateToZero true) ∧
    decode 0b00_0_0_0_00_011_111010#16 = .ok (.cvF2f 3#3 false) := by
  decide

/-- Reserved bits and codes outside the table are refused by name (R86). -/
theorem test_decode_refuses :
    decode 0b01_0_0_0_00_000_000000#16 = .error .reservedBits ∧
    decode 0b10_0_0_0_00_000_000000#16 = .error .reservedBits ∧
    decode 0b00_0_0_0_00_000_000011#16 = .error .unknownOperation ∧
    decode 0b00_0_0_0_00_000_011111#16 = .error .unknownOperation ∧
    decode 0b00_0_0_0_00_000_110010#16 = .error .unknownOperation ∧
    decode 0b00_0_0_0_00_000_111111#16 = .error .unknownOperation := by decide

/-- Words of 95_test_vectors.md: `FXQ.CVT.RC.SAT`, `FP.ADD.RNE`, `CV.F2FX.TRN.SAT.MAPINF`, `FP.EXTRACT.NORM`. -/
theorem test_decode_vectors :
    decode 0x0300#16 = .ok (.fxqCvt 4#3 .saturate) ∧ decode 0x0122#16 = .ok (.fpAdd 4#3 false) ∧
    decode 0x1239#16 = .ok (.cvF2fx 0#3 .saturate true) ∧ decode 0x2020#16 = .ok (.fpExtract false true) := by
  decide

/-! ## One step per operation; the expected results are those 95_test_vectors.md and the rules print -/

/-- 7.875 rounds to 8.0, overflows and saturates (R124, R125). -/
theorem test_fxqCvt :
    outcome (req 0x0300#16 (fx 6 4 true) (fx 8 4 true) (pat 8 0x7E)) =
      some (.done { r := some (pat 6 0x1F), auxT := some 32, auxInc := some true, auxOvf := some true }) := by decide +kernel

/-- A tie to even, carried (R118). -/
theorem test_fxqRnd :
    outcome (req 0x0101#16 (fx 6 4 true) (fx 8 4 true) (pat 8 0x7E)) =
      some (.done { auxT := some 32, auxInc := some true }) := by decide +kernel

/-- Symmetric saturation of the excluded value, and Wrap below the range (R121, R122). -/
theorem test_fxqOvf :
    result { req 0x0602#16 (fx 6 4 true) .blank (pat 4 0) with t := -32 } = some 0x21 ∧
    result { req 0x0002#16 (fx 6 4 true) .blank (pat 4 0) with t := -33 } = some 0x1F := by decide +kernel

/-- 1.75 + 1.75 = 3.5 (§8 Scenario 4, R155). -/
theorem test_fxAdd :
    result (req 0x0008#16 (fx 5 3 true) (fx 4 2 true) (pat 4 7) (fx 4 2 true) (pat 4 7)) = some 0x0E := by decide +kernel

/-- 5 − 7 into an unsigned spec, saturated and wrapped (R156). -/
theorem test_fxSub :
    result (req 0x0209#16 (fx 8 8 false) (fx 8 8 false) (pat 8 5) (fx 8 8 false) (pat 8 7)) = some 0 ∧
    result (req 0x0009#16 (fx 8 8 false) (fx 8 8 false) (pat 8 5) (fx 8 8 false) (pat 8 7)) = some 0xFE := by decide +kernel

/-- 12.25 quanta round to even (R157). -/
theorem test_fxMul :
    result (req 0x010A#16 (fx 6 4 true) (fx 4 2 true) (pat 4 7) (fx 4 2 true) (pat 4 7)) = some 0x0C := by decide +kernel

/-- −1/3 under Truncate and RoundZero (R158). -/
theorem test_fxDiv :
    result (req 0x000B#16 (fx 8 4 true) (fx 8 8 true) (pat 8 0xFF) (fx 8 8 true) (pat 8 3)) = some 0xFA ∧
    result (req 0x004B#16 (fx 8 4 true) (fx 8 8 true) (pat 8 0xFF) (fx 8 8 true) (pat 8 3)) = some 0xFB := by decide +kernel

/-- A negative and an unsigned operand, aligned (R159, R160). -/
theorem test_fxAnd :
    result (req 0x000C#16 (fx 8 4 true) (fx 8 4 true) (pat 8 0xEA) (fx 4 4 false) (pat 4 3)) = some 0x20 := by decide +kernel

/-- As above, into the promoted spec (R161). -/
theorem test_fxOr :
    result (req 0x000D#16 (fx 9 5 true) (fx 8 4 true) (pat 8 0xEA) (fx 4 4 false) (pat 4 3)) = some 0x1FA := by decide +kernel

/-- As above (R162). -/
theorem test_fxXor :
    result (req 0x000E#16 (fx 9 5 true) (fx 8 4 true) (pat 8 0xEA) (fx 4 4 false) (pat 4 3)) = some 0x1DA := by decide +kernel

/-- 11.0 saturates; a negative amount is malformed (R163, R164). -/
theorem test_fxShl :
    result { req 0x020F#16 (fx 8 4 true) (fx 8 4 true) (pat 8 0x16) with n := 3 } = some 0x7F ∧
    outcome { req 0x000F#16 (fx 8 4 true) (fx 8 4 true) (pat 8 0x16) with n := -1 } =
      some (.contractViolation .malformedSpec) := by decide +kernel

/-- −5.5 quanta, a tie, under RoundZero and RoundConvergentOdd (R165). -/
theorem test_fxShr :
    result { req 0x0050#16 (fx 8 4 true) (fx 8 4 true) (pat 8 0xEA) with n := 2 } = some 0xFB ∧
    result { req 0x0150#16 (fx 8 4 true) (fx 8 4 true) (pat 8 0xEA) with n := 2 } = some 0xFB := by decide +kernel

/-- The most negative value, wrapped and saturated (R166). -/
theorem test_fxNeg :
    result (req 0x0011#16 (fx 8 4 true) (fx 8 4 true) (pat 8 0x80)) = some 0x80 ∧
    result (req 0x0211#16 (fx 8 4 true) (fx 8 4 true) (pat 8 0x80)) = some 0x7F := by decide +kernel

/-- An unsigned operand, wrapped and promoted (R167). -/
theorem test_fxNot :
    result (req 0x0012#16 (fx 8 4 false) (fx 8 4 false) (pat 8 0x3C)) = some 0xC3 ∧
    result (req 0x0012#16 (fx 9 5 true) (fx 8 4 false) (pat 8 0x3C)) = some 0x1C3 := by decide +kernel

/-- The maximum, saturated and wrapped (R168). -/
theorem test_fxInc :
    result (req 0x0213#16 (fx 4 2 true) (fx 4 2 true) (pat 4 7)) = some 7 ∧
    result (req 0x0013#16 (fx 4 2 true) (fx 4 2 true) (pat 4 7)) = some 8 := by decide +kernel

/-- Symmetric saturation one quantum above the minimum (R169). -/
theorem test_fxDec :
    result (req 0x0614#16 (fx 4 2 true) (fx 4 2 true) (pat 4 9)) = some 9 ∧
    result (req 0x0214#16 (fx 4 2 true) (fx 4 2 true) (pat 4 9)) = some 8 := by decide +kernel

/-- 1.5 in two specs (R172, R173). -/
theorem test_fxEq_fxNe :
    result (req 0x0015#16 (.blank) (fx 8 4 true) (pat 8 0x18) (fx 4 3 false) (pat 4 3)) = some 1 ∧
    result (req 0x0016#16 (.blank) (fx 8 4 true) (pat 8 0x18) (fx 4 3 false) (pat 4 3)) = some 0 := by decide +kernel

/-- −1 and 255 (R174, R175). -/
theorem test_fxLt_fxLe :
    result (req 0x0017#16 (.blank) (fx 8 8 true) (pat 8 0xFF) (fx 8 8 false) (pat 8 0xFF)) = some 1 ∧
    result (req 0x0018#16 (.blank) (fx 8 8 true) (pat 8 0xFF) (fx 8 8 false) (pat 8 0xFF)) = some 1 := by decide +kernel

/-- −1 and 255 (R176, R177). -/
theorem test_fxGt_fxGe :
    result (req 0x0019#16 (.blank) (fx 8 8 true) (pat 8 0xFF) (fx 8 8 false) (pat 8 0xFF)) = some 0 ∧
    result (req 0x001A#16 (.blank) (fx 8 8 true) (pat 8 0xFF) (fx 8 8 false) (pat 8 0xFF)) = some 0 := by decide +kernel

/-- The high half of EA, and a slice one bit too high (R178, R180). -/
theorem test_fxSlc :
    result { req 0x001B#16 .blank (fx 8 4 true) (pat 8 0xEA) with lsb := 4, n := 4 } = some 0xE ∧
    outcome { req 0x001B#16 .blank (fx 8 4 true) (pat 8 0xEA) with lsb := 5, n := 4 } =
      some (.contractViolation .sliceOutOfRange) := by decide +kernel

/-- The sign bit set; a width that is not `N` (R181). -/
theorem test_fxSetslc :
    result { req 0x001C#16 .blank (fx 8 4 true) (pat 8 0x16) (fx 1 1 false) (pat 1 1) with lsb := 7, n := 1 } =
      some 0x96 ∧
    outcome { req 0x001C#16 .blank (fx 8 4 true) (pat 8 0x16) (fx 2 2 false) (pat 2 1) with lsb := 7, n := 1 } =
      some (.contractViolation .malformedSpec) := by decide +kernel

/-- −1.375 by floor, `Q = 7` not read (R184). -/
theorem test_fxToint :
    result (req 0x07DD#16 (fx 8 8 true) (fx 8 4 true) (pat 8 0xEA)) = some 0xFE := by decide +kernel

/-- 300 into eight unsigned bits, wrapped and saturated (§8 Scenario 1, R185). -/
theorem test_fxFromint :
    result (req 0x001E#16 (fx 8 8 false) (fx 16 16 false) (pat 16 0x12C)) = some 0x2C ∧
    result (req 0x021E#16 (fx 8 8 false) (fx 16 16 false) (pat 16 0x12C)) = some 0xFF := by decide +kernel

/-- The smallest subnormal, normalized and flushed (R204). -/
theorem test_fpExtract :
    outcome (req 0x2020#16 .blank f32 (p32 1)) =
      some (.done { auxClass := some 1#3, auxSign := some false, auxExp := some (-149),
                    auxMant := some (pat 24 0x800000) }) ∧
    outcome (req 0x0820#16 .blank f32 (p32 1)) =
      some (.done { auxClass := some 0#3, auxSign := some false, auxExp := some (-126),
                    auxMant := some (pat 24 0) }) := by decide +kernel

/-- A tie with and without the sticky (R216). -/
theorem test_fpRndasm :
    result { req 0x0121#16 f32 .blank (pat 4 0) with xe := -25, xm := 0x2000002 } = some 0x3F800000 ∧
    result { req 0x0121#16 f32 .blank (pat 4 0) with xe := -25, xm := 0x2000002, xk := true } = some 0x3F800001 := by decide +kernel

/-- A tie under RoundNearestEven and away from zero (R244). -/
theorem test_fpAdd :
    result (f2 0x0122#16 0x3F800000 0x33800000) = some 0x3F800000 ∧
    result (f2 0x00E2#16 0x3F800000 0x33800000) = some 0x3F800001 := by decide +kernel

/-- 1 − 2^−24 exactly; −0 − (+0) (R245, R247). -/
theorem test_fpSub :
    result (f2 0x0123#16 0x3F800000 0x33800000) = some 0x3F7FFFFF ∧
    result (f2 0x0123#16 0x80000000 0x00000000) = some 0x80000000 := by decide +kernel

/-- 1.5 · 1.5; 0 · Inf (R250, R252). -/
theorem test_fpMul :
    result (f2 0x0124#16 0x3FC00000 0x3FC00000) = some 0x40100000 ∧
    result (f2 0x0124#16 0x00000000 0x7F800000) = some 0x7FC00000 := by decide +kernel

/-- 1/3 toward zero; 1 / −0 (R256, R259). -/
theorem test_fpDiv :
    result (f2 0x01A5#16 0x3F800000 0x40400000) = some 0x3EAAAAAA ∧
    result (f2 0x0125#16 0x3F800000 0x80000000) = some 0xFF800000 := by decide +kernel

/-- A product that is not rounded (R267). -/
theorem test_fpFma :
    result { f2 0x0126#16 0x3F800001 0x3F800001 with srcC := f32, c := p32 0xBF800002 } = some 0x28800000 ∧
    result { f2 0x0126#16 0x80000000 0x3F800000 with srcC := f32, c := p32 0x80000000 } = some 0x80000000 := by decide +kernel

/-- √5 toward zero and to nearest (R274). -/
theorem test_fpSqrt :
    result (req 0x01A7#16 f32 f32 (p32 0x40A00000)) = some 0x400F1BBC ∧
    result (req 0x0127#16 f32 f32 (p32 0x40A00000)) = some 0x400F1BBD := by decide +kernel

/-- The two zeros; a NaN (R303, R304). -/
theorem test_fpEq_fpNe :
    result (f2 0x0028#16 0x00000000 0x80000000) = some 0x1 ∧
    result (f2 0x0029#16 0x7FC00000 0x3F800000) = some 0x1 := by decide +kernel

/-- −2 < −1; the zeros (R306, R307). -/
theorem test_fpLt_fpLe :
    result (f2 0x002A#16 0xC0000000 0xBF800000) = some 0x1 ∧
    result (f2 0x002B#16 0x80000000 0x00000000) = some 0x1 := by decide +kernel

/-- Infinity above the largest finite value; a NaN (R308, R309). -/
theorem test_fpGt_fpGe :
    result (f2 0x002C#16 0x7F800000 0x7F7FFFFF) = some 0x1 ∧
    result (f2 0x002D#16 0x3F800000 0x7FC00000) = some 0x0 := by decide +kernel

/-- −0.5 gives −0; a carry into the exponent (R314). -/
theorem test_fpCeil :
    result (req 0x002E#16 f32 f32 (p32 0xBF000000)) = some 0x80000000 ∧
    result (req 0x002E#16 f32 f32 (p32 0x3FFFFFFF)) = some 0x40000000 := by decide +kernel

/-- A negative subnormal; −1.5 (R315). -/
theorem test_fpFloor :
    result (req 0x002F#16 f32 f32 (p32 0x80000001)) = some 0xBF800000 ∧
    result (req 0x002F#16 f32 f32 (p32 0xBFC00000)) = some 0xC0000000 := by decide +kernel

/-- −0.5 gives −0; 2 − 2^−23 (R316). -/
theorem test_fpTrunc :
    result (req 0x0030#16 f32 f32 (p32 0xBF000000)) = some 0x80000000 ∧
    result (req 0x0030#16 f32 f32 (p32 0x3FFFFFFF)) = some 0x3F800000 := by decide +kernel

/-- 2.5 away from zero; just under 0.5 (R317). -/
theorem test_fpRound :
    result (req 0x0031#16 f32 f32 (p32 0x40200000)) = some 0x40400000 ∧
    result (req 0x0031#16 f32 f32 (p32 0x3EFFFFFF)) = some 0x00000000 := by decide +kernel

/-- 2^24 + 1, a tie (R333). -/
theorem test_cvFx2f :
    result (req 0x0138#16 f32 (fx 25 25 false) (pat 25 0x1000001)) = some 0x4B800000 ∧
    result (req 0x00F8#16 f32 (fx 25 25 false) (pat 25 0x1000001)) = some 0x4B800001 := by decide +kernel

/-- −300 under SaturateSymmetric; −Inf mapped (R341, R343). -/
theorem test_cvF2fx :
    result (req 0x0639#16 (fx 8 8 true) f32 (p32 0xC3960000)) = some 0x81 ∧
    result (req 0x1039#16 (fx 8 8 true) f32 (p32 0xFF800000)) = some 0x80 := by decide +kernel

/-- 0.1 from a double; a NaN canonicalised (R351, §8 Scenario 2). -/
theorem test_cvF2f :
    result (req 0x013A#16 f32 (fp 64 11) (pat 64 0x3FB999999999999A)) = some 0x3DCCCCCD ∧
    result (req 0x013A#16 (fp 16 5) f32 (p32 0xFFC00000)) = some 0x7E00 := by decide +kernel

/-! ## Violations, the halt and reset -/

/-- The causes and their order (95_test_vectors.md, R371, R373). -/
theorem test_causes :
    outcome (req 0x01C0#16 (fx 0 0 true) (fx 8 4 true) (pat 8 0)) = some (.contractViolation .malformedSpec) ∧
    outcome (req 0x01C0#16 (fx 8 4 true) (fx 8 4 true) (pat 8 0)) =
      some (.contractViolation .unsupportedRoundingMode) ∧
    outcome (req 0x01CB#16 (fx 8 8 true) (fx 8 8 true) (pat 8 1) (fx 8 8 true) (pat 8 0)) =
      some (.contractViolation .unsupportedRoundingMode) ∧
    outcome (req 0x000B#16 (fx 8 8 true) (fx 8 8 true) (pat 8 1) (fx 8 8 true) (pat 8 0)) =
      some (.contractViolation .fixedDivideByZero) ∧
    outcome (req 0x0039#16 (fx 8 8 true) f32 (p32 0x7F800000)) = some (.contractViolation .nonFiniteToFixed) ∧
    outcome { req 0x0121#16 f32 .blank (pat 4 0) with xm := 1, xk := true } =
      some (.contractViolation .malformedSpec) ∧
    outcome (req 0x4000#16 (fx 8 8 true) (fx 8 8 true) (pat 8 1)) =
      some (.contractViolation .illegalOperation) := by decide +kernel

/-- The fields of a state that the program of 95_test_vectors.md Part 3 prints. -/
def halts (s : State) : Bool × BitVec 4 := (s.halted, s.haltCause)

/-- A violation halts with its cause, and reset clears both (R375, R410). -/
theorem test_halt_and_reset :
    (match step (given (req 0x0239#16 (fx 8 8 true) f32 (p32 0x7F800000))) with
      | .next t => some (halts t)
      | _ => none) = some (true, 5#4) ∧
    (match step { State.reset with halted := true, haltCause := 5#4, inbox := [.reset none] } with
      | .next t => some (halts t)
      | _ => none) = some (false, 0#4) := by decide +kernel

/-- A halted block answers `Halted` to a legal request and keeps its first cause (R375). -/
theorem test_halted_serves_nothing :
    (match step { given (req 0x0008#16 (fx 5 3 true) (fx 4 2 true) (pat 4 7) (fx 4 2 true) (pat 4 7)) with
        halted := true, haltCause := 5#4 } with
      | .next t => some (halts t, t.delivered)
      | _ => none) = some ((true, 5#4), [.halted]) := by decide +kernel

/-- The first step after reset runs the word that `withFetchWord` places. -/
theorem test_withFetchWord :
    (match step (State.reset.withFetchWord 16 0x0008) with
      | .next t => t.delivered
      | _ => []) = [.done (.ofR (pat 4 0))] ∧ decodeTableWord 16 0x0008 = some (.fxAdd 0#3 .wrap) := by
  decide +kernel

/-! ## A state that meets the hypotheses of each statement -/

/-- A request that every operation serves: four-bit specs legal under either reading, `A = 3`, `B = 1`, `C = 2`,
`N = 4`. -/
def sample : Request :=
  { Request.blank with
    srcA := ⟨4, 4, false, 2⟩, srcB := ⟨4, 4, false, 2⟩, srcC := ⟨4, 4, false, 2⟩, dst := ⟨4, 4, false, 2⟩,
    a := pat 4 3, b := pat 4 1, c := pat 4 2, n := 4 }

/-- The state serving `sample`. -/
def ready : State := serving sample

/-- A halted state in which two requests are presented. -/
def haltedTwice : State :=
  { State.reset with halted := true, haltCause := 5#4, inbox := [.request sample, .request sample] }

/-- Every operation, with a mode both families support. -/
def everyInstr : List Instr :=
  [.fxqCvt 4#3 .wrap, .fxqRnd 4#3, .fxqOvf .wrap, .fxAdd 4#3 .wrap, .fxSub 4#3 .wrap, .fxMul 4#3 .wrap,
   .fxDiv 4#3 .wrap, .fxAnd 4#3 .wrap, .fxOr 4#3 .wrap, .fxXor 4#3 .wrap, .fxShl 4#3 .wrap, .fxShr 4#3 .wrap,
   .fxNeg 4#3 .wrap, .fxNot 4#3 .wrap, .fxInc 4#3 .wrap, .fxDec 4#3 .wrap, .fxEq, .fxNe, .fxLt, .fxLe, .fxGt,
   .fxGe, .fxSlc, .fxSetslc, .fxToint, .fxFromint 4#3 .wrap] ++
  [.fpExtract true true, .fpRndasm 4#3 false, .fpAdd 4#3 false, .fpSub 4#3 false, .fpMul 4#3 false,
   .fpDiv 4#3 false, .fpFma 4#3 false, .fpSqrt 4#3 false, .fpEq, .fpNe, .fpLt, .fpLe, .fpGt, .fpGe, .fpCeil,
   .fpFloor, .fpTrunc, .fpRound, .cvFx2f 4#3 false, .cvF2fx 4#3 .wrap false, .cvF2f 4#3 false]

theorem witness_StepRunsTheDecodedInstruction :
    (given (req 0x0008#16 .blank .blank (pat 4 0))).inbox = [.request (req 0x0008#16 .blank .blank (pat 4 0))] ∧
      decode 0x0008#16 = .ok (.fxAdd 0#3 .wrap) := by decide

theorem witness_StepWithNothingPresented : State.reset.inbox = [] := by decide

/-- Reset with and without a request presented, and a step out of the halt. -/
theorem witness_ResetIsTheOnlyWayOutOfTheHalt :
    ({ haltedTwice with inbox := [.reset (some sample)] } : State).inbox = .reset (some sample) :: [] ∧
    ({ haltedTwice with inbox := [.reset none] } : State).halted = true ∧
    step { haltedTwice with inbox := [.reset none] } = .next State.reset ∧ State.reset.halted = false :=
  ⟨rfl, rfl, rfl, rfl⟩

/-- A halted and a running state with a request presented. -/
theorem witness_ServingDeliversOrHalts :
    haltedTwice.inbox = .request sample :: [.request sample] ∧ haltedTwice.halted = true ∧
      (given sample).inbox = .request sample :: [] ∧ (given sample).halted = false := by decide

/-- A step that takes a violation, from a state with the invariant. -/
theorem witness_HaltInvariantIsKept :
    HaltInv (given { sample with opsel := 0x01C0#16 }) ∧
    (match step (given { sample with opsel := 0x01C0#16 }) with
      | .next t => t.haltCause
      | _ => 0#4) = 2#4 := by decide +kernel

theorem witness_HaltedRunServesNothing :
    haltedTwice.halted = true ∧ ∀ x ∈ haltedTwice.inbox, ∃ r, x = .request r := by
  refine ⟨rfl, fun x hx => ⟨sample, ?_⟩⟩
  simpa [haltedTwice] using hx

/-- Two states that differ in what was presented before and after. -/
theorem witness_OutcomeDependsOnTheRequestAlone :
    (given sample).cfg = ready.cfg ∧ (given sample).halted = ready.halted ∧
      (given sample).inbox = .request sample :: [] ∧
      ({ ready with inbox := [.request sample, .reset none] } : State).inbox =
        .request sample :: [.reset none] := by decide

theorem witness_UnreadFieldsAreIgnored : exec .fxSlc ready = .next (ready.answer (pat 4 3)) := rfl

theorem witness_ExecFrame : exec .fxSlc ready = .next (ready.answer (pat 4 3)) := rfl

/-- A request for each clause: an illegal word, a malformed spec, an unsupported mode, a zero divisor. -/
theorem witness_ChecksAreMadeInOrder :
    decode 0x8000#16 = .error .reservedBits ∧
    (decode 0x01CB#16 = .ok (.fxDiv 7#3 .wrap) ∧
      ¬ SpecsLegal (.fxDiv 7#3 .wrap) .specDefault { sample with dst := fx 0 0 true }) ∧
    (SpecsLegal (.fxDiv 7#3 .wrap) .specDefault sample ∧ WellFormed (.fxDiv 7#3 .wrap) = false) ∧
    (decode 0x000B#16 = .ok (.fxDiv 0#3 .wrap) ∧
      SpecsLegal (.fxDiv 0#3 .wrap) .specDefault { sample with b := pat 4 0 } ∧
      WellFormed (.fxDiv 0#3 .wrap) = true ∧ ¬ OperandsLegal (.fxDiv 0#3 .wrap) { sample with b := pat 4 0 }) := by
  unfold SpecsLegal OperandsLegal
  decide +kernel

/-- Every operation serves the sample request. -/
theorem witness_LegalRequestsAreServed :
    ready.halted = false ∧ ∀ i ∈ everyInstr,
      SpecsLegal i ready.cfg ready.request ∧ WellFormed i = true ∧ OperandsLegal i ready.request := by
  refine ⟨rfl, fun i hi => ?_⟩
  fin_cases hi <;> (unfold SpecsLegal OperandsLegal; decide +kernel)

theorem witness_ResultsHaveTheirWidth :
    exec .fxSlc ready = .next (ready.deliver (.done (.ofR (pat 4 3)))) := rfl

/-- A tie, `2.5` quanta. -/
theorem witness_RoundingModesRoundAsNamed :
    Config.specDefault.literalRoundTable = false ∧ Int.fract ((5 / 2 : ℚ) * 2 ^ (0 : ℤ)) = 1 / 2 ∧
      FixedMode.roundInf ≠ .truncate ∧ FixedMode.roundInf ≠ .truncateTowardZero := by decide +kernel

theorem witness_LiteralRoundTable :
    FixedMode.roundInf ≠ .roundZero ∧ FixedMode.roundInf ≠ .truncateTowardZero := by decide

/-- The hypotheses on one fixed operand and a mode. -/
theorem witness_FxqCvtAndRndResults : FixedReady1 ready ∧ fixedModeOf 0#3 = some .truncate := by decide

/-- `T` at both ends of the range of `fx(4,4,u)` and one outside each. -/
theorem witness_FxqOvfResult :
    ready.halted = false ∧ ready.request.dst.FixedLegal ready.cfg ∧
      (ready.request.dst.fixed.kmin ≤ 0 ∧ (0 : ℤ) ≤ ready.request.dst.fixed.kmax) ∧
      (ready.request.dst.fixed.kmin ≤ 15 ∧ (15 : ℤ) ≤ ready.request.dst.fixed.kmax) ∧
      ready.request.dst.fixed.kmax < 16 ∧ -1 < ready.request.dst.fixed.kmin := by decide

theorem witness_OverflowTestOnBits :
    1 ≤ (⟨1, 0, true⟩ : FixedSpec).w ∧ (⟨1, 0, true⟩ : FixedSpec).s = true ∧
      1 ≤ (⟨1, 0, false⟩ : FixedSpec).w ∧ (⟨1, 0, false⟩ : FixedSpec).s = false := by decide

/-- A pattern that is not excluded, a wider spec of the same signedness, and two ordered values. -/
theorem witness_LawsOfTheEngine :
    let d : FixedSpec := ⟨4, 2, true⟩
    let d' : FixedSpec := ⟨8, 4, true⟩
    (1 ≤ d.w ∧ (pat 4 9).width = d.w ∧ fixedInt d.s (pat 4 9) ≠ d.kmin) ∧
      (d.i ≤ d'.i ∧ d.f ≤ d'.f ∧ d'.s = d.s) ∧ (1 / 3 : ℚ) ≤ 2 := by decide +kernel

theorem witness_FxArithmeticResults : FixedReady2 ready ∧ fixedModeOf 6#3 = some .truncateTowardZero := by decide

/-- A divisor that is not zero, and one that is. -/
theorem witness_FxDivResult :
    (FixedReady2 ready ∧ fxVal ready.request.srcB.fixed ready.request.b ≠ 0) ∧
    FixedReady2 (serving { sample with b := pat 4 0 }) ∧
      fxVal sample.srcB.fixed (pat 4 0) = 0 ∧ fixedModeOf 3#3 = some .roundInf := by decide +kernel

theorem witness_FxBitwiseResults : FixedReady2 ready ∧ fixedModeOf 1#3 = some .roundZero := by decide

/-- Amounts 0 and −1. -/
theorem witness_FxShiftResults :
    (FixedReady1 (serving { sample with n := 0 }) ∧ (0 : ℤ) ≤ (serving { sample with n := 0 }).request.n) ∧
    FixedReady1 (serving { sample with n := -1 }) ∧ (serving { sample with n := -1 }).request.n < 0 ∧
      fixedModeOf 2#3 = some .roundMinInf := by decide

theorem witness_ShiftsByTheWidthOrMore :
    FixedReady1 ready ∧ ready.request.dst.fixed = ready.request.srcA.fixed ∧
      ready.request.srcA.w ≤ ready.request.n := by decide

theorem witness_FxUnaryResults : FixedReady1 ready ∧ fixedModeOf 5#3 = some .roundConvergentOdd := by decide

theorem witness_FxComparisonsCompareTheValues : FixedReadyPair ready := by decide

theorem witness_FxGtAndGeOnAlignedIntegers : FixedReadyPair ready := by decide

/-- The whole operand, a slice one bit too high, and no bits. -/
theorem witness_FxSliceResults :
    ready.halted = false ∧ ready.request.srcA.FixedLegal ready.cfg ∧ ready.request.srcA.Fits ready.request.a ∧
      ready.request.srcB.FixedLegal ready.cfg ∧ ready.request.srcB.Fits ready.request.b ∧
      ready.request.srcB.w = ready.request.n ∧
      (0 ≤ ready.request.lsb ∧ 1 ≤ ready.request.n ∧ ready.request.lsb + ready.request.n ≤ ready.request.srcA.w) ∧
      ¬ (0 ≤ (1 : ℤ) ∧ 1 ≤ (4 : ℤ) ∧ 1 + 4 ≤ ready.request.srcA.w) ∧
      ¬ (0 ≤ (0 : ℤ) ∧ 1 ≤ (0 : ℤ) ∧ 0 + 0 ≤ ready.request.srcA.w) := by decide

theorem witness_FxTointResult : FixedReady1 ready ∧ ready.request.dst.i = ready.request.dst.w := by decide

theorem witness_FxFromintResult :
    FixedReady1 ready ∧ fixedModeOf 4#3 = some .roundConvergent ∧
      ready.request.srcA.i = ready.request.srcA.w := by decide

/-- A signed minimum and an unsigned maximum. -/
theorem witness_PromotedSpecsHoldTheExactResult :
    let a : FixedOperand := ⟨⟨4, 2, true⟩, -8⟩
    let b : FixedOperand := ⟨⟨3, 5, false⟩, 7⟩
    1 ≤ a.spec.w ∧ 1 ≤ b.spec.w ∧ a.spec.kmin ≤ a.k ∧ a.k ≤ a.spec.kmax ∧ b.spec.kmin ≤ b.k ∧
      b.k ≤ b.spec.kmax := by decide

/-- An operand of each finite class of `fp(8,4)`. -/
theorem witness_ExtractRecordHasTheValue :
    (⟨8, 4⟩ : FloatSpec).Legal ∧ (⟨⟨8, 4⟩, 0x38⟩ : FloatOperand).cls = .normal ∧
      (⟨⟨8, 4⟩, 0x87⟩ : FloatOperand).cls = .subnormal ∧ (⟨⟨8, 4⟩, 0x80⟩ : FloatOperand).cls = .zero := by decide

/-- A subnormal and a normal operand. -/
theorem witness_FpExtractResult :
    ready.halted = false ∧ ready.request.srcA.FloatLegal ready.cfg ∧ ready.request.srcA.Fits ready.request.a ∧
      ready.request.floatA.cls = .normal ∧ (serving { sample with a := pat 4 1 }).request.floatA.cls = .subnormal := by
  decide

/-- `XM` at the least value that admits the sticky, one below it, 0 without the sticky, and −1. -/
theorem witness_FpRndasmResult :
    ready.halted = false ∧ ready.request.dst.FloatLegal ready.cfg ∧
      floatModeOf 4#3 = some .roundNearestEven ∧ (2 : ℤ) ^ (ready.request.dst.float.m + 1) ≤ 4 ∧
      (3 : ℤ) < 2 ^ (ready.request.dst.float.m + 1) ∧ 0 ≤ ready.request.xm ∧ ready.request.xk = false ∧
      (-1 : ℤ) < 0 := by decide

theorem witness_StickyBitIsHarmless :
    (⟨8, 4⟩ : FloatSpec).Legal ∧ (2 : ℤ) ^ ((⟨8, 4⟩ : FloatSpec).m + 1) ≤ 16 ∧
      ((16 : ℤ) : ℚ) * 2 ^ (-3 : ℤ) < 33 / 16 ∧ (33 / 16 : ℚ) < ((16 : ℤ) + 1) * 2 ^ (-3 : ℤ) := by decide +kernel

/-- The largest finite pattern, and the smallest subnormal. -/
theorem witness_RoundAssembleKeepsPatterns :
    (⟨8, 4⟩ : FloatSpec).Legal ∧ 0x77 < 2 ^ 8 ∧ (⟨⟨8, 4⟩, 0x77⟩ : FloatOperand).Finite ∧
      (⟨⟨8, 4⟩, 0x77⟩ : FloatOperand).cls ≠ .subnormal ∧ (⟨⟨8, 4⟩, 0x81⟩ : FloatOperand).Finite ∧
      (⟨⟨8, 4⟩, 0x81⟩ : FloatOperand).cls = .subnormal := by decide

theorem witness_RoundAssembleIsMonotone : (⟨4, 2⟩ : FloatSpec).Legal ∧ (0 : ℚ) ≤ 1 / 3 ∧ (1 / 3 : ℚ) ≤ 7 := by
  decide +kernel

/-- For `fp(8,4)`, whose `MaxFinite` is 240: a magnitude past the tie above it, the tie itself under a mode that
overflows there and under the one that does not, and the tie `17/16` between the patterns of `1` and `9/8`. -/
theorem witness_RoundAssembleIsNearest :
    let f : FloatSpec := ⟨8, 4⟩
    f.Legal ∧ f.overflowTie = 248 ∧ f.Overflows .roundNearestOdd 249 ∧ f.Overflows .roundNearestEven 248 ∧
      ¬ f.Overflows .roundNearestOdd 248 ∧ ¬ f.Overflows .roundNearestEven (17 / 16) ∧
      (⟨f, 0x38⟩ : FloatOperand).Finite ∧ (⟨f, 0x38⟩ : FloatOperand).val = 1 ∧
      (⟨f, 0x39⟩ : FloatOperand).Finite ∧ (⟨f, 0x39⟩ : FloatOperand).val = 9 / 8 ∧
      |(17 / 16 - |(1 : ℚ)|)| = |(17 / 16 - |(9 / 8 : ℚ)|)| := by decide +kernel

/-- The tie `17/16` goes to `1` under RoundNearestEven and to `9/8` under the other two; the tie above `MaxFinite` stays
there under RoundNearestOdd alone. -/
theorem test_ties_of_the_nearest_modes :
    let f : FloatSpec := ⟨8, 4⟩
    let round (rm : FloatMode) (x : ℚ) := uint (roundAssemble .specDefault f rm false false x)
    round .roundNearestEven (17 / 16) = 0x38 ∧ round .roundNearestAwayFromZero (17 / 16) = 0x39 ∧
      round .roundNearestOdd (17 / 16) = 0x39 ∧ round .roundNearestEven 248 = 0x78 ∧
      round .roundNearestAwayFromZero 248 = 0x78 ∧ round .roundNearestOdd 248 = 0x77 := by decide +kernel

/-- A magnitude below `2^emin` that rounds up to it: `MinNormal` under `after_rounding`, `Zero` under
`before_rounding` (R215). -/
theorem test_flush_before_and_after_rounding :
    let f : FloatSpec := ⟨8, 4⟩
    let x : ℚ := 2 ^ f.emin - 2 ^ (f.emin - f.m - 1)
    roundAssemble .specDefault f .roundNearestEven true true x = f.minNormal true ∧
      roundAssemble { Config.specDefault with ftzRule := .beforeRounding } f .roundNearestEven true true x =
        f.zero true := by decide +kernel

/-- A list with a NaN behind an operand that is none. -/
theorem witness_NanResultFollowsThePolicy :
    let f : FloatSpec := ⟨8, 4⟩
    f.Legal ∧ (∀ a ∈ [(⟨f, 0x38⟩ : FloatOperand), ⟨f, 0xF9⟩], a.spec = f ∧ a.p < 2 ^ f.w) ∧
      (⟨f, 0x38⟩ : FloatOperand).cls ≠ .nan ∧ (⟨f, 0xF9⟩ : FloatOperand).cls = .nan := by decide

/-- The hypotheses on two float operands and a mode. -/
theorem witness_FpAddAndSubResults : FloatReady2 ready ∧ floatModeOf 4#3 = some .roundNearestEven := by decide

theorem witness_SubtractingItselfGivesPlusZero :
    FloatReady2 (serving { sample with b := pat 4 3 }) ∧ floatModeOf 6#3 = some .truncateTowardZero ∧
      (serving { sample with b := pat 4 3 }).request.a = (serving { sample with b := pat 4 3 }).request.b ∧
      (serving { sample with b := pat 4 3 }).request.floatA.Finite := by decide

theorem witness_FpMulResult : FloatReady2 ready ∧ floatModeOf 3#3 = some .roundNearestAwayFromZero := by decide

theorem witness_FpDivResult : FloatReady2 ready ∧ floatModeOf 5#3 = some .roundNearestOdd := by decide

theorem witness_FpFmaResult : FloatReady3 ready ∧ floatModeOf 4#3 = some .roundNearestEven := by decide

/-- `fp(16,5)` has `M = 10` and `emin = −14`. -/
theorem witness_FmaDiffersFromMulThenAdd :
    let f : FloatSpec := ⟨16, 5⟩
    f.Legal ∧ 4 ≤ f.m ∧ f.emin - f.m ≤ 2 - 2 * f.m := by decide

/-- The state serving `sample` with the operand `A` of pattern `p`. -/
def readyWith (p : Nat) : State := serving { sample with a := pat 4 p }

/-- In `fp(4,2)`, with and without `NOSUB`: a positive normal operand, a NaN, a zero, a negative operand, a positive
Infinity; and `fp(16,5)`, where the root is Normal. -/
theorem witness_FpSqrtResult :
    (∀ n : Bool, (ready.request.floatA.input n).Finite ∧ (ready.request.floatA.input n).cls ≠ .zero ∧
      (ready.request.floatA.input n).sign = false) ∧
    FloatReady1 ready ∧ floatModeOf 6#3 = some .truncateTowardZero ∧
    FloatReady1 (readyWith 7) ∧ ((readyWith 7).request.floatA.input true).cls = .nan ∧
    FloatReady1 (readyWith 8) ∧ ((readyWith 8).request.floatA.input true).cls = .zero ∧
    FloatReady1 (readyWith 10) ∧ ((readyWith 10).request.floatA.input true).cls = .normal ∧
      ((readyWith 10).request.floatA.input true).sign = true ∧
    FloatReady1 (readyWith 6) ∧ ((readyWith 6).request.floatA.input true).cls = .infinity ∧
      ((readyWith 6).request.floatA.input true).sign = false ∧
    (⟨16, 5⟩ : FloatSpec).emin + (⟨16, 5⟩ : FloatSpec).m ≤ 0 := by decide

theorem witness_FpComparisonResults : FloatReadyPair ready := by decide

/-- A normal operand, a NaN, an Infinity and a zero, under the default policy. -/
theorem witness_FpIntegralResults :
    FloatReady1 ready ∧ ready.request.floatA.cls = .normal ∧ ready.cfg.nanPolicy = .canonical ∧
      FloatReady1 (readyWith 7) ∧ (readyWith 7).request.floatA.cls = .nan ∧
      FloatReady1 (readyWith 6) ∧ (readyWith 6).request.floatA.cls = .infinity ∧
      FloatReady1 (readyWith 8) ∧ (readyWith 8).request.floatA.cls = .zero := by decide

/-- `1.5` in `fp(8,4)`: its ceiling is representable. -/
theorem witness_IntegralHelpersAreExact :
    let a : FloatOperand := ⟨⟨8, 4⟩, 0x3C⟩
    a.spec.Legal ∧ a.cls = .normal ∧
      |((⌈a.val⌉ : ℤ) : ℚ)| ≤ (a.spec.read (a.spec.maxFinite false)).val := by decide +kernel

/-- A fixed source, zero and not; a float source that is normal, a NaN, an Infinity or a zero. -/
theorem witness_CvFx2fAndF2fResults :
    ready.halted = false ∧ ready.request.dst.FloatLegal ready.cfg ∧ floatModeOf 4#3 = some .roundNearestEven ∧
      ready.request.srcA.FixedLegal ready.cfg ∧ ready.request.srcA.Fits ready.request.a ∧
      ready.request.srcA.FloatLegal ready.cfg ∧ fxVal ready.request.srcA.fixed ready.request.a ≠ 0 ∧
      fxVal ready.request.srcA.fixed (pat 4 0) = 0 ∧ (ready.request.floatA.input true).cls = .normal ∧
      (readyWith 7).request.srcA.Fits (readyWith 7).request.a ∧
      ((readyWith 7).request.floatA.input true).cls = .nan ∧
      ((readyWith 6).request.floatA.input true).cls = .infinity ∧
      ((readyWith 8).request.floatA.input true).cls = .zero := by
  decide +kernel

/-- A finite operand and an Infinity. -/
theorem witness_CvF2fxResult :
    ready.halted = false ∧ ready.request.srcA.FloatLegal ready.cfg ∧ ready.request.srcA.Fits ready.request.a ∧
      ready.request.dst.FixedLegal ready.cfg ∧ fixedModeOf 0#3 = some .truncate ∧ ready.request.floatA.Finite ∧
      ¬ (serving { sample with a := pat 4 6 }).request.floatA.Finite := by decide

/-- `−1.375`, which `fp(8,4)` represents. -/
theorem witness_FixedToFloatAndBack :
    let d : FixedSpec := ⟨8, 4, true⟩
    let y : FloatOperand := ⟨⟨8, 4⟩, 0xBB⟩
    1 ≤ d.w ∧ (pat 8 0xEA).width = d.w ∧ y.spec.Legal ∧ y.Finite ∧ y.val = fxVal d (pat 8 0xEA) := by
  decide +kernel

/-- `fp(8,4)` into `fp(16,5)`. -/
theorem witness_FloatWideningAndBack :
    let f : FloatSpec := ⟨8, 4⟩
    let g : FloatSpec := ⟨16, 5⟩
    f.Legal ∧ g.Legal ∧ f.m ≤ g.m ∧ g.emin - g.m ≤ f.emin - f.m ∧ f.emax ≤ g.emax ∧ 0x01 < 2 ^ f.w ∧
      (⟨f, 0x01⟩ : FloatOperand).cls ≠ .nan := by decide

/-! ## Pseudo-operations (R89) -/

/-- `+=` on a Fixed of `fx(4,4,u)` with the modes RoundConvergent and Saturate: `15 + 1` stays 15, and the host writes
it back. -/
theorem test_in_place_add_saturates :
    let r := inPlace .fxAdd 4#3 .saturate { sample with a := pat 4 15, dst := fx 9 9 true }
    r.dst = sample.srcA ∧ (outcome r).map (writeBack r.a) = some (pat 4 15) := by decide +kernel

/-- The entry point of the float adder: `3 + 1 = 4` and `3 − 1 = 2` in single precision. -/
theorem test_add_entry_adds_and_subtracts :
    result (requestAdd .roundNearestEven false true f32 (p32 0x40400000) (p32 0x3F800000)) = some 0x40800000 ∧
      result (requestAdd .roundNearestEven false false f32 (p32 0x40400000) (p32 0x3F800000)) =
        some 0x40000000 := by decide +kernel


end Sys2Proof.Tests
end

section
/-! PROOFS. The step and the halt state: what the delivery of one outcome does to each part of the state, that a
served request and a step are exactly such a delivery, and the obligations about steps and runs that follow. -/

namespace Sys2Proof.Machine

/-! ## Receiving one outcome -/

/-- What the host receives for a request: `Halted` from a halted block, else the response or the violation (R375). -/
def outcomeOf (halted : Bool) (res : Except Cause Response) : Delivery :=
  if halted then .halted
  else
    match res with
    | .ok resp => .done resp
    | .error c => .contractViolation c

/-- The state after the outcome `d`: a violation is taken, any other outcome is only handed over. -/
def State.receive (s : State) (d : Delivery) : State :=
  match d with
  | .contractViolation c => s.raise c
  | .done resp => s.deliver (.done resp)
  | .halted => s.deliver .halted

/-- Serving a request is the receipt of its outcome, and of nothing else. -/
theorem serve_eq_receive (s : State) (res : Except Cause Response) :
    serve s res = .next (s.receive (outcomeOf s.halted res)) := by
  cases hh : s.halted with
  | true => rw [serve_of_halted hh]; rfl
  | false =>
    cases res with
    | ok resp => rw [serve_ok hh]; rfl
    | error c => rw [serve_error hh]; rfl

section
variable (s : State) (d : Delivery) (rest : List HostInput) (r : Request)

@[simp] theorem State.receive_cfg : (s.receive d).cfg = s.cfg := by cases d <;> rfl
@[simp] theorem State.receive_request : (s.receive d).request = s.request := by cases d <;> rfl
@[simp] theorem State.receive_inbox : (s.receive d).inbox = s.inbox := by cases d <;> rfl
@[simp] theorem State.receive_delivered : (s.receive d).delivered = s.delivered ++ [d] := by cases d <;> rfl

/-- What the host presents next takes no part in the receipt of an outcome. -/
theorem State.receive_withInbox : (s.withInbox rest).receive d = (s.receive d).withInbox rest := by
  cases d <;> rfl

/-- Nor does the request held. -/
theorem State.receive_present : (s.present r).receive d = (s.receive d).present r := by cases d <;> rfl

end

/-- An outcome that is no violation leaves the halt state (R26). -/
theorem State.receive_haltState_of_not_violation {s : State} {d : Delivery}
    (hd : ∀ c, d ≠ .contractViolation c) :
    (s.receive d).halted = s.halted ∧ (s.receive d).haltCause = s.haltCause := by
  cases d with
  | contractViolation c => exact absurd rfl (hd c)
  | done resp => exact ⟨rfl, rfl⟩
  | halted => exact ⟨rfl, rfl⟩

/-- Whether the block is halted after an outcome depends on `HALTED` and the outcome alone. -/
theorem State.receive_halted_congr {s₁ s₂ : State} (hh : s₁.halted = s₂.halted) (d : Delivery) :
    (s₁.receive d).halted = (s₂.receive d).halted := by
  cases d with
  | contractViolation c => rfl
  | done resp => exact hh
  | halted => exact hh

/-- So does the cause then recorded, the cause before being equal. -/
theorem State.receive_haltCause_congr {s₁ s₂ : State} (hh : s₁.halted = s₂.halted)
    (hc : s₁.haltCause = s₂.haltCause) (d : Delivery) :
    (s₁.receive d).haltCause = (s₂.receive d).haltCause := by
  cases d with
  | contractViolation c => simp only [State.receive, State.raise_haltCause, hh, hc]
  | done resp => exact hc
  | halted => exact hc

/-- The code of a cause is one of 1 to 6; the codes from 7 on are reserved (R371). -/
theorem Cause.code_range (c : Cause) : 1 ≤ c.code.toNat ∧ c.code.toNat ≤ 6 := by
  cases c <;> decide

/-- The receipt of an outcome keeps the invariant of the halt state: a violation taken while halted keeps the first
cause, one taken while not halted records a cause of the table (R375). -/
theorem HaltInv.receive {s : State} (hs : HaltInv s) (d : Delivery) : HaltInv (s.receive d) := by
  cases d with
  | contractViolation c =>
    show 1 ≤ (s.raise c).haltCause.toNat ∧ (s.raise c).haltCause.toNat ≤ 6
    rw [State.raise_haltCause]
    split
    · rwa [HaltInv, if_pos ‹_›] at hs
    · exact c.code_range
  | done resp => exact hs
  | halted => exact hs

/-! ## Instructions and steps -/

/-- Every instruction hands over one outcome, and that outcome is a function of `HALTED`, the parameters and the
request held (R21). -/
theorem exec_eq_receive (i : Instr) :
    ∃ g : Bool → Config → Request → Delivery, ∀ s,
      exec i s = .next (s.receive (g s.halted s.cfg s.request)) := by
  obtain ⟨f, hf⟩ := exec_eq_serve i
  exact ⟨fun halted cfg r => outcomeOf halted (f cfg r), fun s => by rw [hf, serve_eq_receive]⟩

/-- A step on a presented request hands over one outcome, a function of `HALTED`, the parameters and that request, from
the state that holds it (R21, R58). -/
theorem step_eq_receive :
    ∃ g : Bool → Config → Request → Delivery, ∀ (s : State) (r : Request) (rest : List HostInput),
      s.inbox = .request r :: rest →
        step s = .next (((s.withInbox rest).present r).receive (g s.halted s.cfg r)) := by
  obtain ⟨f, hf⟩ := step_request
  refine ⟨fun halted cfg r => outcomeOf halted (f cfg r), fun s r rest h => ?_⟩
  rw [hf s r rest h, serve_eq_receive, State.present_halted, State.withInbox_halted]

/-- All that a step can do: nothing, a reset, or the receipt of one outcome for the request it takes. -/
theorem step_cases (s : State) :
    (s.inbox = [] ∧ step s = .next s) ∨
    (∃ p rest, s.inbox = .reset p :: rest ∧ step s = .next (s.withInbox rest).assertReset) ∨
    ∃ r rest d, s.inbox = .request r :: rest ∧ step s = .next (((s.withInbox rest).present r).receive d) := by
  match h : s.inbox with
  | [] => exact .inl ⟨rfl, step_nil h⟩
  | .reset p :: rest => exact .inr (.inl ⟨p, rest, rfl, step_reset h⟩)
  | .request r :: rest =>
    obtain ⟨g, hg⟩ := step_eq_receive
    exact .inr (.inr ⟨r, rest, _, rfl, hg s r rest h⟩)

/-- Settles O10: nothing presented changes nothing, reset clears both fields, and an outcome keeps the invariant. -/
theorem haltInvariantIsKept : Obligations.HaltInvariantIsKept := by
  intro s t hs ht
  rcases step_cases s with ⟨-, h⟩ | ⟨p, rest, -, h⟩ | ⟨r, rest, d, -, h⟩
  · cases h.symm.trans ht
    exact hs
  · cases h.symm.trans ht
    rfl
  · cases h.symm.trans ht
    exact HaltInv.receive (s := (s.withInbox rest).present r) hs d

/-- Settles O13: the two steps hand over the same outcome, since it is one function of what the states share. -/
theorem outcomeDependsOnTheRequestAlone : Obligations.OutcomeDependsOnTheRequestAlone := by
  intro s₁ s₂ r rest₁ rest₂ hcfg hh h₁ h₂
  obtain ⟨g, hg⟩ := step_eq_receive
  have step₂ := hg s₂ r rest₂ h₂
  rw [← hcfg, ← hh] at step₂
  refine ⟨_, _, g s₁.halted s₁.cfg r, hg s₁ r rest₁ h₁, step₂, ?_, ?_, ?_, fun _ hc => ?_⟩
  · simp
  · simp
  · exact State.receive_halted_congr (s₁ := (s₁.withInbox rest₁).present r)
      (s₂ := (s₂.withInbox rest₂).present r) hh _
  · exact State.receive_haltCause_congr (s₁ := (s₁.withInbox rest₁).present r)
      (s₂ := (s₂.withInbox rest₂).present r) hh hc _

/-! ## Runs -/

/-- The host's input is a request presented, and not reset. -/
def HostInput.isRequest : HostInput → Bool
  | .request _ => true
  | .reset _ => false

/-- One step takes exactly the first input presented: a request yields one outcome and reset none, and the inputs behind
it change nothing of the state reached but the list of what is still to come (R58 (b)). -/
theorem step_cons (s : State) (x : HostInput) :
    ∃ t : State, ∃ ds : List Delivery,
      (∀ rest, step (s.withInbox (x :: rest)) = .next (t.withInbox rest)) ∧
        t.delivered = s.delivered ++ ds ∧ ds.length = x.isRequest.toNat := by
  cases x with
  | reset p =>
    exact ⟨s.assertReset, [], fun rest => step_reset (s := s.withInbox (.reset p :: rest)) rfl, by simp, rfl⟩
  | request r =>
    obtain ⟨g, hg⟩ := step_eq_receive
    refine ⟨(s.present r).receive (g s.halted s.cfg r), [g s.halted s.cfg r], fun rest => ?_, by simp, rfl⟩
    rw [hg (s.withInbox (.request r :: rest)) r rest rfl, ← State.receive_withInbox]
    rfl

/-- A run of as many steps as inputs are presented takes them all, in order: the state it reaches is one and the same
whatever is presented behind them, and it holds one outcome more for each request (R58 (b)). -/
theorem run_inbox (inbox : List HostInput) (s : State) :
    ∃ t : State, ∃ ds : List Delivery,
      (∀ later, Host.Core.run core inbox.length (s.withInbox (inbox ++ later)) = .next (t.withInbox later)) ∧
        t.delivered = s.delivered ++ ds ∧ ds.length = inbox.countP HostInput.isRequest := by
  induction inbox generalizing s with
  | nil => exact ⟨s, [], fun later => rfl, by simp, rfl⟩
  | cons x rest ih =>
    obtain ⟨u, ds, hstep, hu, hds⟩ := step_cons s x
    obtain ⟨t, ds', hrun, ht, hds'⟩ := ih u
    refine ⟨t, ds ++ ds', fun later => ?_, by rw [ht, hu, List.append_assoc], ?_⟩
    · rw [List.length_cons, List.cons_append, run_succ _ (hstep (rest ++ later)), hrun later]
    · rw [List.length_append, hds, hds', List.countP_cons]
      cases x <;> simp [HostInput.isRequest, Nat.add_comm]

/-- Settles O15, by the run over what is presented, with nothing behind it and with `later` behind it. -/
theorem requestsAreServedInOrder : Obligations.RequestsAreServedInOrder := by
  intro s later
  obtain ⟨t, ds, hrun, ht, hds⟩ := run_inbox s.inbox s
  refine ⟨t.withInbox [], ?_, rfl, ⟨ds, ht.symm⟩, ?_, hrun later⟩
  · have h := hrun []
    rwa [List.append_nil] at h
  · rw [State.withInbox_delivered, ht, List.length_append, hds]
    rfl

/-! ## The remaining facts of the step -/

/-- Settles O9: each of the cases of a step answers a next state. -/
theorem everyStepAnswersANextState : Obligations.EveryStepAnswersANextState := by
  intro s
  rcases step_cases s with ⟨-, h⟩ | ⟨p, rest, -, h⟩ | ⟨r, rest, d, -, h⟩
  · exact ⟨_, h⟩
  · exact ⟨_, h⟩
  · exact ⟨_, h⟩

/-- Settles O16: an instruction does no more than hand over its outcome. -/
theorem execFrame : Obligations.ExecFrame := by
  intro i s t h
  obtain ⟨g, hg⟩ := exec_eq_receive i
  cases (hg s).symm.trans h
  exact ⟨State.receive_cfg _ _, State.receive_request _ _, State.receive_inbox _ _, _,
    State.receive_delivered _ _, State.receive_haltState_of_not_violation⟩

/-- Settles O5. -/
theorem stepRunsTheDecodedInstruction : Obligations.StepRunsTheDecodedInstruction := by
  intro s r rest i h hd
  rw [step, fetch_run h hd]

/-- Settles O6. -/
theorem stepWithNothingPresented : Obligations.StepWithNothingPresented := fun _ h => step_nil h

/-- Settles O11: the fields of the state after reset are literals. -/
theorem resetStateIsNotHalted : Obligations.ResetStateIsNotHalted := ⟨rfl, rfl, rfl⟩

end Sys2Proof.Machine
end

section
/-! PROOFS. What an instruction reads of its request, that it serves every legal request, and the width of what it
answers. -/

namespace Sys2Proof.Machine

/-! ## The fields read (R24, R80) -/

/-- The request held matters to serving only through the outcome computed from it. -/
theorem serve_present {s t : State} {res : Except Cause Response} (h : serve s res = .next t) (r : Request) :
    serve (s.present r) res = .next (t.present r) := by
  rw [serve_eq_receive] at h ⊢
  cases h
  rw [State.present_halted, State.receive_present]

/-- An instruction computes the same outcome from the request and from the request with the fields it does not name
made blank. A format looks at a record only through `fixedSpec`, which reads `w`, `i` and `s`, or `floatSpec`, which
reads `w` and `e`, and at no other field that `readBy` blanks; so in every case the two outcomes are one term. -/
theorem exec_reads (i : Instr) (s : State) :
    ∃ res, exec i s = serve s res ∧
      exec i (s.present (s.request.readBy i)) = serve (s.present (s.request.readBy i)) res := by
  cases i <;> exact ⟨_, rfl, rfl⟩

/-- Settles O14. -/
theorem unreadFieldsAreIgnored : Obligations.UnreadFieldsAreIgnored := by
  intro i s t h
  obtain ⟨res, hres, hread⟩ := exec_reads i s
  rw [hread]
  exact serve_present (hres.symm.trans h) _

/-! ## Legal requests (R372, R373) -/

/-- A supported code of a fixed-mode format names a mode (R82). -/
theorem exists_fixedMode {q : BitVec 3} (h : fixedModeCode q = true) : ∃ m, fixedModeOf q = some m :=
  Option.isSome_iff_exists.mp ((fixedModeOf_isSome q).trans h)

/-- A supported code of a float-mode format names a mode (R84). -/
theorem exists_floatMode {q : BitVec 3} (h : floatModeCode q = true) : ∃ rm, floatModeOf q = some rm :=
  Option.isSome_iff_exists.mp ((floatModeOf_isSome q).trans h)

/-- The width of a legal fixed spec is that of its record. -/
theorem SpecRecord.fixed_w {rec : SpecRecord} {cfg : Config} (h : rec.FixedLegal cfg) :
    (rec.fixed.w : ℤ) = rec.w := Int.toNat_of_nonneg (by have := h.1; omega)

/-- The width of a legal float spec is that of its record. -/
theorem SpecRecord.float_w {rec : SpecRecord} {cfg : Config} (h : rec.FloatLegal cfg) :
    (rec.float.w : ℤ) = rec.w := Int.toNat_of_nonneg (by obtain ⟨he, hw, -⟩ := h; omega)

/-- A fixed value is zero only where its integer is (R71). -/
theorem FixedOperand.val_ne_zero {a : FixedOperand} (h : a.k ≠ 0) : a.val ≠ 0 :=
  mul_ne_zero (Int.cast_ne_zero.mpr h) (zpow_ne_zero _ two_ne_zero)

/-- The outcome is a response. -/
def Answers (res : Except Cause Response) : Prop := ∃ resp, res = .ok resp

/-- A check that passes leaves the answer to what follows it. -/
theorem Answers.bind {α : Type} {x : Except Cause α} {a : α} {f : α → Except Cause Response} (hx : x = .ok a)
    (h : Answers (f a)) : Answers (x >>= f) := by
  rw [hx, bind_ok]
  exact h

/-- A condition that holds leaves the answer to what follows it. -/
theorem Answers.require {p : Bool} {c : Cause} {f : Unit → Except Cause Response} (hp : p = true)
    (h : Answers (f ())) : Answers (require p c >>= f) :=
  .bind (by rw [hp, require_true]) h

/-- What is returned is the answer. -/
theorem Answers.pure (resp : Response) : Answers (pure resp) := ⟨resp, rfl⟩

/-- A block that is not halted hands an answer over. -/
theorem Answers.serve {s : State} {res : Except Cause Response} (hh : s.halted = false) (h : Answers res) :
    ∃ resp, serve s res = .next (s.deliver (.done resp)) := by
  obtain ⟨resp, rfl⟩ := h
  exact ⟨resp, serve_ok hh resp⟩

section
variable {s : State} {q : BitVec 3} {o : OverflowMode} {nosub : Bool}

/-- Format XB answers where the operation's own result is no violation. -/
theorem fixedBinary_answers {x : FixedOperand → FixedOperand → Except Cause ℚ} {y : ℚ} (h : FixedReady2 s)
    (hq : fixedModeCode q = true) (hx : x s.request.fixedA s.request.fixedB = .ok y) :
    Answers (fixedBinary s.cfg s.request q o x) := by
  obtain ⟨m, hm⟩ := exists_fixedMode hq
  rw [fixedBinary_ready o x h hm, hx]
  exact ⟨_, rfl⟩

/-- Format XU with modes answers under the operation's own condition on the specs. -/
theorem fixedUnary_answers {extra : FixedOperand → FixedSpec → Bool} {x : FixedOperand → ℚ} (h : FixedReady1 s)
    (hq : fixedModeCode q = true) (hx : extra s.request.fixedA s.request.dst.fixed = true) :
    Answers (fixedUnary s.cfg s.request q o extra x) := by
  obtain ⟨m, hm⟩ := exists_fixedMode hq
  exact ⟨_, fixedUnary_ready o extra x h hx hm⟩

/-- Format XN answers a shift amount that is not negative. -/
theorem fixedShift_answers {x : FixedOperand → Int → ℚ} (h : FixedReady1 s) (hq : fixedModeCode q = true)
    (hn : 0 ≤ s.request.n) : Answers (fixedShift s.cfg s.request q o x) := by
  obtain ⟨m, hm⟩ := exists_fixedMode hq
  exact ⟨_, fixedShift_ready o x h hn hm⟩

/-- Format PB answers. -/
theorem floatBinary_answers {x : FloatSpec → FloatMode → Extracted → Extracted → Bits} (h : FloatReady2 s)
    (hq : floatModeCode q = true) : Answers (floatBinary s.cfg s.request q nosub x) := by
  obtain ⟨rm, hm⟩ := exists_floatMode hq
  exact ⟨_, floatBinary_ready nosub x h hm⟩

/-- Format PT answers. -/
theorem floatTernary_answers {x : FloatSpec → FloatMode → Extracted → Extracted → Extracted → Bits}
    (h : FloatReady3 s) (hq : floatModeCode q = true) : Answers (floatTernary s.cfg s.request q nosub x) := by
  obtain ⟨rm, hm⟩ := exists_floatMode hq
  exact ⟨_, floatTernary_ready nosub x h hm⟩

/-- Format PU answers. -/
theorem floatUnary_answers {x : FloatSpec → FloatMode → Extracted → Bits} (h : FloatReady1 s)
    (hq : floatModeCode q = true) : Answers (floatUnary s.cfg s.request q nosub x) := by
  obtain ⟨rm, hm⟩ := exists_floatMode hq
  exact ⟨_, floatUnary_ready nosub x h hm⟩

end

section
variable {cfg : Config} {r : Request} {q : BitVec 3} {o : OverflowMode} {nosub norm mapinf : Bool}

/-- FXQ.CVT answers. -/
theorem cvtResult_answers (ha : r.srcA.FixedLegal cfg ∧ r.srcA.Fits r.a) (hd : r.dst.FixedLegal cfg)
    (hq : fixedModeCode q = true) : Answers (cvtResult q o cfg r) := by
  obtain ⟨m, hm⟩ := exists_fixedMode hq
  exact .bind (fixedOperand_of_legal ha.1 ha.2) <| .bind (fixedSpec_of_legal hd) <|
    .bind (needFixedMode_of_some hm) <| .pure _

/-- FXQ.RND answers. -/
theorem rndResult_answers (ha : r.srcA.FixedLegal cfg ∧ r.srcA.Fits r.a) (hd : r.dst.FixedLegal cfg)
    (hq : fixedModeCode q = true) : Answers (rndResult q cfg r) := by
  obtain ⟨m, hm⟩ := exists_fixedMode hq
  exact .bind (fixedOperand_of_legal ha.1 ha.2) <| .bind (fixedSpec_of_legal hd) <|
    .bind (needFixedMode_of_some hm) <| .pure _

/-- FXQ.OVF answers. -/
theorem ovfResult_answers (hd : r.dst.FixedLegal cfg) : Answers (ovfResult o cfg r) :=
  .bind (fixedSpec_of_legal hd) <| .pure _

/-- The range rule of R178 on the record's width is the slice check on the spec's. -/
theorem sliceInRange_of {lsb n : ℤ} (ha : r.srcA.FixedLegal cfg)
    (hr : 0 ≤ lsb ∧ 1 ≤ n ∧ lsb + n ≤ r.srcA.w) : sliceInRange r.srcA.fixed.w lsb n = true := by
  have hw := SpecRecord.fixed_w ha
  simp only [sliceInRange, hw, Bool.and_eq_true, decide_eq_true_eq, and_assoc]
  exact hr

/-- FX.SLC answers a slice in range. -/
theorem slcResult_answers (ha : r.srcA.FixedLegal cfg ∧ r.srcA.Fits r.a)
    (hr : 0 ≤ r.lsb ∧ 1 ≤ r.n ∧ r.lsb + r.n ≤ r.srcA.w) : Answers (slcResult cfg r) :=
  .bind (fixedOperand_of_legal ha.1 ha.2) <| .require (sliceInRange_of ha.1 hr) <| .pure _

/-- FX.SETSLC answers a slice in range whose width is that of `B`. -/
theorem setslcResult_answers (ha : r.srcA.FixedLegal cfg ∧ r.srcA.Fits r.a)
    (hb : r.srcB.FixedLegal cfg ∧ r.srcB.Fits r.b) (hn : r.srcB.w = r.n)
    (hr : 0 ≤ r.lsb ∧ 1 ≤ r.n ∧ r.lsb + r.n ≤ r.srcA.w) : Answers (setslcResult cfg r) :=
  .bind (fixedOperand_of_legal ha.1 ha.2) <| .bind (fixedOperand_of_legal hb.1 hb.2) <|
    .require (decide_eq_true ((SpecRecord.fixed_w hb.1).trans hn)) <| .require (sliceInRange_of ha.1 hr) <| .pure _

/-- FX.TOINT answers where the destination is an integer spec. -/
theorem tointResult_answers (ha : r.srcA.FixedLegal cfg ∧ r.srcA.Fits r.a) (hd : r.dst.FixedLegal cfg)
    (hi : r.dst.i = r.dst.w) : Answers (tointResult cfg r) :=
  .bind (fixedOperand_of_legal ha.1 ha.2) <| .bind (fixedSpec_of_legal hd) <|
    .require (decide_eq_true (hi.trans (SpecRecord.fixed_w hd).symm)) <| .pure _

/-- FP.EXTRACT answers. -/
theorem extractResult_answers (ha : r.srcA.FloatLegal cfg ∧ r.srcA.Fits r.a) :
    Answers (extractResult nosub norm cfg r) :=
  .bind (floatOperand_of_legal ha.1 ha.2) <| .pure _

/-- FP.RNDASM answers a mantissa that meets condition (h) of R372. -/
theorem rndasmResult_answers (hd : r.dst.FloatLegal cfg) (hq : floatModeCode q = true)
    (hx : 0 ≤ r.xm ∧ (r.xk = true → 2 ^ (r.dst.float.m + 1) ≤ r.xm)) : Answers (rndasmResult q nosub cfg r) := by
  obtain ⟨rm, hm⟩ := exists_floatMode hq
  have hlegal : rndasmLegal r.dst.float r.xm r.xk = true := by
    obtain ⟨hpos, hsticky⟩ := hx
    cases hk : r.xk <;> simp_all [rndasmLegal]
  exact .bind (floatSpec_of_legal hd) <| .bind (needFloatMode_of_some hm) <| .require hlegal <| .pure _

/-- CV.FX2F answers. -/
theorem fx2fResult_answers (ha : r.srcA.FixedLegal cfg ∧ r.srcA.Fits r.a) (hd : r.dst.FloatLegal cfg)
    (hq : floatModeCode q = true) : Answers (fx2fResult q nosub cfg r) := by
  obtain ⟨rm, hm⟩ := exists_floatMode hq
  exact .bind (fixedOperand_of_legal ha.1 ha.2) <| .bind (floatSpec_of_legal hd) <|
    .bind (needFloatMode_of_some hm) <| .pure _

/-- CV.F2FX answers a finite operand, and any operand under `MAPINF`. -/
theorem f2fxResult_answers (ha : r.srcA.FloatLegal cfg ∧ r.srcA.Fits r.a) (hd : r.dst.FixedLegal cfg)
    (hq : fixedModeCode q = true) (hx : mapinf = true ∨ (r.floatA.cls ≠ .nan ∧ r.floatA.cls ≠ .infinity)) :
    Answers (f2fxResult q o mapinf cfg r) := by
  obtain ⟨m, hm⟩ := exists_fixedMode hq
  refine .bind (floatOperand_of_legal ha.1 ha.2) <| .bind (fixedSpec_of_legal hd) <|
    .bind (needFixedMode_of_some hm) ?_
  split
  · rename_i hnf
    have hmap : mapinf = true := hx.resolve_right fun hf => hnf.elim hf.1 hf.2
    exact .require hmap <| .pure _
  · exact .pure _

/-- CV.F2F answers. -/
theorem f2fResult_answers (ha : r.srcA.FloatLegal cfg ∧ r.srcA.Fits r.a) (hd : r.dst.FloatLegal cfg)
    (hq : floatModeCode q = true) : Answers (f2fResult q nosub cfg r) := by
  obtain ⟨rm, hm⟩ := exists_floatMode hq
  exact .bind (floatOperand_of_legal ha.1 ha.2) <| .bind (floatSpec_of_legal hd) <|
    .bind (needFloatMode_of_some hm) <| .pure _

end

/-- Settles O18, operation by operation: each answers by the lemma of its format. -/
theorem legalRequestsAreServed : Obligations.LegalRequestsAreServed := by
  intro i s hh hs hw ho
  cases i with
  | fxqCvt q o => exact (cvtResult_answers hs.1 hs.2 hw).serve hh
  | fxqRnd q => exact (rndResult_answers hs.1 hs.2 hw).serve hh
  | fxqOvf o => exact (ovfResult_answers hs).serve hh
  | fxAdd q o | fxSub q o | fxMul q o | fxAnd q o | fxOr q o | fxXor q o =>
    obtain ⟨⟨ha, pa⟩, ⟨hb, pb⟩, hd⟩ := hs
    exact (fixedBinary_answers ⟨⟨hh, ha, pa, hb, pb⟩, hd⟩ hw rfl).serve hh
  | fxDiv q o =>
    obtain ⟨⟨ha, pa⟩, ⟨hb, pb⟩, hd⟩ := hs
    have hval : s.request.fixedB.val ≠ 0 := FixedOperand.val_ne_zero ho
    exact (fixedBinary_answers ⟨⟨hh, ha, pa, hb, pb⟩, hd⟩ hw (if_neg hval)).serve hh
  | fxShl q o | fxShr q o =>
    obtain ⟨⟨ha, pa⟩, hd, hn⟩ := hs
    exact (fixedShift_answers ⟨hh, ha, pa, hd⟩ hw hn).serve hh
  | fxNeg q o | fxNot q o | fxInc q o | fxDec q o =>
    obtain ⟨⟨ha, pa⟩, hd⟩ := hs
    exact (fixedUnary_answers ⟨hh, ha, pa, hd⟩ hw rfl).serve hh
  | fxEq | fxNe | fxLt | fxLe | fxGt | fxGe =>
    obtain ⟨⟨ha, pa⟩, hb, pb⟩ := hs
    exact Answers.serve hh ⟨_, fixedCompare_ready _ ⟨hh, ha, pa, hb, pb⟩⟩
  | fxSlc => exact (slcResult_answers hs ho).serve hh
  | fxSetslc =>
    obtain ⟨ha, hb, hn⟩ := hs
    exact (setslcResult_answers ha hb hn ho).serve hh
  | fxToint =>
    obtain ⟨ha, hd, hi⟩ := hs
    exact (tointResult_answers ha hd hi).serve hh
  | fxFromint q o =>
    obtain ⟨⟨ha, pa⟩, hd, hi⟩ := hs
    have hint : s.request.srcA.i = (s.request.srcA.fixed.w : ℤ) := hi.trans (SpecRecord.fixed_w ha).symm
    exact (fixedUnary_answers ⟨hh, ha, pa, hd⟩ hw (decide_eq_true hint)).serve hh
  | fpExtract nosub norm => exact (extractResult_answers hs).serve hh
  | fpRndasm q nosub => exact (rndasmResult_answers hs hw ho).serve hh
  | fpAdd q nosub | fpSub q nosub | fpMul q nosub | fpDiv q nosub =>
    obtain ⟨⟨ha, pa⟩, ⟨hb, pb, eb⟩, hd, ed⟩ := hs
    exact (floatBinary_answers ⟨⟨hh, ha, pa, hb, pb, eb⟩, hd, ed⟩ hw).serve hh
  | fpFma q nosub =>
    obtain ⟨⟨ha, pa⟩, ⟨hb, pb, eb⟩, ⟨hc, pc, ec⟩, hd, ed⟩ := hs
    exact (floatTernary_answers ⟨⟨⟨hh, ha, pa, hb, pb, eb⟩, hd, ed⟩, hc, pc, ec⟩ hw).serve hh
  | fpSqrt q nosub =>
    obtain ⟨⟨ha, pa⟩, hd, ed⟩ := hs
    exact (floatUnary_answers ⟨hh, ha, pa, hd, ed⟩ hw).serve hh
  | fpEq | fpNe | fpLt | fpLe | fpGt | fpGe =>
    obtain ⟨⟨ha, pa⟩, hb, pb, eb⟩ := hs
    exact Answers.serve hh ⟨_, floatCompare_ready _ ⟨hh, ha, pa, hb, pb, eb⟩⟩
  | fpCeil | fpFloor | fpTrunc | fpRound =>
    obtain ⟨⟨ha, pa⟩, hd, ed⟩ := hs
    exact Answers.serve hh ⟨_, floatIntegral_ready _ ⟨hh, ha, pa, hd, ed⟩⟩
  | cvFx2f q nosub => exact (fx2fResult_answers hs.1 hs.2 hw).serve hh
  | cvF2fx q o mapinf => exact (f2fxResult_answers hs.1 hs.2 hw ho).serve hh
  | cvF2f q nosub => exact (f2fResult_answers hs.1 hs.2 hw).serve hh

/-! ## The width of a result (R24, R80) -/

/-- Where the outcome is a response, its `R` has the width `w`, and is absent where `w` is. -/
def ROfWidth (w : Option ℤ) (res : Except Cause Response) : Prop :=
  ∀ resp, res = .ok resp → resp.r.map (fun r => (r.width : ℤ)) = w

/-- A check leaves the width to what follows it, which may use that the check passed. -/
theorem ROfWidth.bind {α : Type} {w : Option ℤ} {x : Except Cause α} {f : α → Except Cause Response}
    (h : ∀ a, x = .ok a → ROfWidth w (f a)) : ROfWidth w (x >>= f) := by
  cases x with
  | ok a => exact h a rfl
  | error c => exact fun resp hr => nomatch hr

/-- A response returned is the outcome. -/
theorem ROfWidth.pure {w : Option ℤ} {resp : Response} (h : resp.r.map (fun r => (r.width : ℤ)) = w) :
    ROfWidth w (pure resp) := by
  intro resp' hr
  cases hr
  exact h

/-- A response that has `R` alone. -/
theorem ROfWidth.ofR {w : ℤ} {r : Bits} (h : (r.width : ℤ) = w) : ROfWidth (some w) (Pure.pure (.ofR r)) :=
  .pure (congrArg some h)

/-- A response handed over is the outcome that was served. -/
theorem serve_eq_done {s : State} {res : Except Cause Response} {resp : Response}
    (h : serve s res = .next (s.deliver (.done resp))) : res = .ok resp := by
  have hd : outcomeOf s.halted res = .done resp := by
    rw [serve_eq_receive] at h
    injection h with h
    simpa using congrArg State.delivered h
  cases hh : s.halted with
  | true => simp [outcomeOf, hh] at hd
  | false => cases res <;> simp_all [outcomeOf]

/-- The width of an outcome is that of the response handed over. -/
theorem width_of_serve {s : State} {w : Option ℤ} {res : Except Cause Response} {resp : Response}
    (h : serve s res = .next (s.deliver (.done resp))) (hw : ROfWidth w res) :
    resp.r.map (fun r => (r.width : ℤ)) = w := hw resp (serve_eq_done h)

/-! ### What a check that passed says -/

/-- A condition checked holds. -/
theorem require_eq_ok {p : Bool} {c : Cause} {u : Unit} (h : require p c = .ok u) : p = true := by
  cases p with
  | true => rfl
  | false => exact nomatch h

/-- The specs compared are equal (R372 (d)). -/
theorem sameSpec_eq_ok {f g : FloatSpec} {u : Unit} (h : sameSpec f g = .ok u) : f = g :=
  of_decide_eq_true (require_eq_ok h)

/-- A fixed spec that is accepted has the width of its record. -/
theorem fixedSpec_eq_ok_w {cfg : Config} {rec : SpecRecord} {d : FixedSpec} (h : fixedSpec cfg rec = .ok d) :
    (d.w : ℤ) = rec.w := by
  rw [fixedSpec_eq] at h
  split at h
  · cases h
    exact SpecRecord.fixed_w ‹_›
  · cases h

/-- A float spec that is accepted has the width of its record. -/
theorem floatSpec_eq_ok_w {cfg : Config} {rec : SpecRecord} {d : FloatSpec} (h : floatSpec cfg rec = .ok d) :
    (d.w : ℤ) = rec.w := by
  rw [floatSpec_eq] at h
  split at h
  · cases h
    exact SpecRecord.float_w ‹_›
  · cases h

/-- A fixed pattern that is accepted has the width its record names (R372 (i)). -/
theorem fixedOperand_eq_ok_fits {cfg : Config} {rec : SpecRecord} {p : Bits} {a : FixedOperand}
    (h : fixedOperand cfg rec p = .ok a) : rec.Fits p := by
  rw [fixedOperand_eq] at h
  split at h
  · exact And.right ‹_›
  · cases h

/-! ### The patterns of the float side -/

section
variable (cfg : Config) (f : FloatSpec) (rm : FloatMode) (nosub s : Bool)

@[simp] theorem FloatSpec.zero_width : (f.zero s).width = f.w := rfl
@[simp] theorem FloatSpec.inf_width : (f.inf s).width = f.w := rfl
@[simp] theorem FloatSpec.qnan_width : f.qnan.width = f.w := rfl
@[simp] theorem FloatSpec.maxFinite_width : (f.maxFinite s).width = f.w := rfl

@[simp] theorem nanResult_width (xs : List Extracted) : (nanResult cfg f xs).width = f.w := by
  unfold nanResult
  split
  · rfl
  · split <;> rfl

@[simp] theorem assemble_width (e : ℤ) (t0 : ℕ) (g st : Bool) :
    (assemble cfg f rm nosub s e t0 g st).width = f.w := by
  rcases assemble_cases cfg f rm nosub s e t0 g st with h | ⟨-, h⟩ | ⟨-, h⟩ | ⟨ef, mf, h⟩ <;> simp [h]

@[simp] theorem roundAssemble_width (x : ℚ) : (roundAssemble cfg f rm nosub s x).width = f.w := by
  by_cases hx : x = 0
  · rw [hx, roundAssemble_zero, FloatSpec.zero_width]
  · rw [roundAssemble_of_ne_zero cfg f rm nosub s hx, assemble_width]

@[simp] theorem rootAssemble_width (x : ℚ) : (rootAssemble cfg f rm nosub x).width = f.w :=
  assemble_width ..

@[simp] theorem sumAssemble_width (x : ℚ) : (sumAssemble cfg f rm nosub x).width = f.w := by
  unfold sumAssemble
  split <;> simp

@[simp] theorem fixedToFloat_width (x : ℚ) : (fixedToFloat cfg f rm nosub x).width = f.w := by
  unfold fixedToFloat
  split <;> simp

@[simp] theorem Extracted.pattern_width (x : Extracted) : (x.pattern f).width = f.w := by
  unfold Extracted.pattern
  split <;> rfl

@[simp] theorem floatToFloat_width (d : FloatSpec) (x : Extracted) :
    (floatToFloat cfg f d rm nosub x).width = d.w := by
  unfold floatToFloat
  split <;> simp

@[simp] theorem integralOf_width (fn : ℚ → ℤ) (a : FloatOperand) : (integralOf cfg fn a).width = a.spec.w := by
  unfold integralOf
  split
  case h_1 => simp
  case h_2 | h_3 => rfl
  case h_4 | h_5 => split <;> simp

/-- A unit answers its table's row or, where no row applies, its generic result: of the width of the spec, if every row
and the generic result are. -/
theorem special_or_generic_width {special : Option Bits} {generic : Bits} (hs : ∀ r ∈ special, r.width = f.w)
    (hg : generic.width = f.w) :
    (match special with | some r => r | none => generic).width = f.w := by
  cases special with
  | none => exact hg
  | some r => exact hs r rfl

variable (a b c : Extracted)

theorem addUnit_width : (addUnit cfg nosub f rm a b).width = f.w := by
  refine special_or_generic_width f ?_ (sumAssemble_width ..)
  unfold addSpecial
  split_ifs <;> simp

theorem mulUnit_width : (mulUnit cfg nosub f rm a b).width = f.w := by
  refine special_or_generic_width f ?_ (roundAssemble_width ..)
  unfold mulSpecial
  split_ifs <;> simp

theorem divUnit_width : (divUnit cfg nosub f rm a b).width = f.w := by
  refine special_or_generic_width f ?_ (roundAssemble_width ..)
  unfold divSpecial
  split_ifs <;> simp

theorem fmaUnit_width : (fmaUnit cfg nosub f rm a b c).width = f.w := by
  refine special_or_generic_width f ?_ (sumAssemble_width ..)
  unfold fmaSpecial
  simp only
  split_ifs <;> simp

theorem sqrtUnit_width : (sqrtUnit cfg nosub f rm a).width = f.w := by
  refine special_or_generic_width f ?_ (rootAssemble_width ..)
  unfold sqrtSpecial
  split_ifs <;> simp

end

/-! ### The formats -/

section
variable {cfg : Config} {r : Request} {q : BitVec 3} {o : OverflowMode} {nosub norm mapinf : Bool}

theorem fixedBinary_rOfWidth {x : FixedOperand → FixedOperand → Except Cause ℚ} :
    ROfWidth (some r.dst.w) (fixedBinary cfg r q o x) :=
  .bind fun _ _ => .bind fun _ _ => .bind fun _ hd => .bind fun _ _ => .bind fun _ _ =>
    .ofR (fixedSpec_eq_ok_w hd)

theorem fixedUnary_rOfWidth {extra : FixedOperand → FixedSpec → Bool} {x : FixedOperand → ℚ} :
    ROfWidth (some r.dst.w) (fixedUnary cfg r q o extra x) :=
  .bind fun _ _ => .bind fun _ hd => .bind fun _ _ => .bind fun _ _ => .ofR (fixedSpec_eq_ok_w hd)

theorem fixedShift_rOfWidth {x : FixedOperand → ℤ → ℚ} :
    ROfWidth (some r.dst.w) (fixedShift cfg r q o x) :=
  .bind fun _ _ => .bind fun _ hd => .bind fun _ _ => .bind fun _ _ => .ofR (fixedSpec_eq_ok_w hd)

theorem fixedCompare_rOfWidth {p : ℤ → ℤ → Bool} : ROfWidth (some 1) (fixedCompare cfg r p) :=
  .bind fun _ _ => .bind fun _ _ => .ofR rfl

/-- A float unit's result, in the spec the destination was accepted as. -/
theorem floatBits_width {d : FloatSpec} {y : Bits} (hd : floatSpec cfg r.dst = .ok d) (hy : y.width = d.w) :
    (y.width : ℤ) = r.dst.w := by rw [hy, floatSpec_eq_ok_w hd]

theorem floatBinary_rOfWidth {x : FloatSpec → FloatMode → Extracted → Extracted → Bits}
    (hx : ∀ f rm a b, (x f rm a b).width = f.w) : ROfWidth (some r.dst.w) (floatBinary cfg r q nosub x) :=
  .bind fun _ _ => .bind fun _ _ => .bind fun _ hd => .bind fun _ _ => .bind fun _ _ => .bind fun _ _ =>
    .ofR (floatBits_width hd (hx ..))

theorem floatTernary_rOfWidth {x : FloatSpec → FloatMode → Extracted → Extracted → Extracted → Bits}
    (hx : ∀ f rm a b c, (x f rm a b c).width = f.w) : ROfWidth (some r.dst.w) (floatTernary cfg r q nosub x) :=
  .bind fun _ _ => .bind fun _ _ => .bind fun _ _ => .bind fun _ hd => .bind fun _ _ => .bind fun _ _ =>
    .bind fun _ _ => .bind fun _ _ => .ofR (floatBits_width hd (hx ..))

theorem floatUnary_rOfWidth {x : FloatSpec → FloatMode → Extracted → Bits}
    (hx : ∀ f rm a, (x f rm a).width = f.w) : ROfWidth (some r.dst.w) (floatUnary cfg r q nosub x) :=
  .bind fun _ _ => .bind fun _ hd => .bind fun _ _ => .bind fun _ _ =>
    .ofR (floatBits_width hd (hx ..))

theorem floatCompare_rOfWidth {p : FloatOperand → FloatOperand → Bool} :
    ROfWidth (some 1) (floatCompare cfg r p) :=
  .bind fun _ _ => .bind fun _ _ => .bind fun _ _ => .ofR rfl

theorem floatIntegral_rOfWidth {fn : ℚ → ℤ} : ROfWidth (some r.dst.w) (floatIntegral cfg r fn) :=
  .bind fun _ _ => .bind fun _ hd => .bind fun _ hs =>
    .ofR (floatBits_width hd ((integralOf_width ..).trans (congrArg FloatSpec.w (sameSpec_eq_ok hs))))

/-! ### The operations with a format of their own -/

theorem cvtResult_rOfWidth : ROfWidth (some r.dst.w) (cvtResult q o cfg r) :=
  .bind fun _ _ => .bind fun _ hd => .bind fun _ _ => .pure (congrArg some (fixedSpec_eq_ok_w hd))

theorem rndResult_rOfWidth : ROfWidth none (rndResult q cfg r) :=
  .bind fun _ _ => .bind fun _ _ => .bind fun _ _ => .pure rfl

theorem ovfResult_rOfWidth : ROfWidth (some r.dst.w) (ovfResult o cfg r) :=
  .bind fun _ hd => .pure (congrArg some (fixedSpec_eq_ok_w hd))

/-- A slice in range has at least one bit, so its width is `N` itself (R178). -/
theorem slcResult_rOfWidth : ROfWidth (some r.n) (slcResult cfg r) :=
  .bind fun a _ => .bind fun _ hr => .ofR <| by
    have hrange : sliceInRange a.spec.w r.lsb r.n = true := require_eq_ok hr
    simp only [sliceInRange, Bool.and_eq_true, decide_eq_true_eq] at hrange
    exact Int.toNat_of_nonneg (by omega)

theorem setslcResult_rOfWidth : ROfWidth (some r.srcA.w) (setslcResult cfg r) :=
  .bind fun _ ha => .bind fun _ _ => .bind fun _ _ => .bind fun _ _ => .ofR (fixedOperand_eq_ok_fits (p := r.a) ha)

theorem tointResult_rOfWidth : ROfWidth (some r.dst.w) (tointResult cfg r) :=
  .bind fun _ _ => .bind fun _ hd => .bind fun _ _ => .ofR (fixedSpec_eq_ok_w hd)

theorem extractResult_rOfWidth : ROfWidth none (extractResult nosub norm cfg r) :=
  .bind fun _ _ => .pure rfl

theorem rndasmResult_rOfWidth : ROfWidth (some r.dst.w) (rndasmResult q nosub cfg r) :=
  .bind fun _ hd => .bind fun _ _ => .bind fun _ _ =>
    .ofR (floatBits_width hd (roundAssemble_width ..))

theorem fx2fResult_rOfWidth : ROfWidth (some r.dst.w) (fx2fResult q nosub cfg r) :=
  .bind fun _ _ => .bind fun _ hd => .bind fun _ _ => .ofR (floatBits_width hd (fixedToFloat_width ..))

theorem f2fxResult_rOfWidth : ROfWidth (some r.dst.w) (f2fxResult q o mapinf cfg r) :=
  .bind fun _ _ => .bind fun _ hd => .bind fun _ _ => by
    split
    · exact .bind fun _ _ => .ofR (fixedSpec_eq_ok_w hd)
    · exact .ofR (fixedSpec_eq_ok_w hd)

theorem f2fResult_rOfWidth : ROfWidth (some r.dst.w) (f2fResult q nosub cfg r) :=
  .bind fun _ _ => .bind fun _ hd => .bind fun _ _ => .ofR (floatBits_width hd (floatToFloat_width ..))

end

/-- Settles O19, operation by operation: the width is that of its format, and a response handed over is the outcome
of the operation. -/
theorem resultsHaveTheirWidth : Obligations.ResultsHaveTheirWidth := by
  intro i s resp h
  cases i with
  | fxqCvt q o => exact width_of_serve h cvtResult_rOfWidth
  | fxqRnd q => exact width_of_serve h rndResult_rOfWidth
  | fxqOvf o => exact width_of_serve h ovfResult_rOfWidth
  | fxAdd q o | fxSub q o | fxMul q o | fxDiv q o | fxAnd q o | fxOr q o | fxXor q o =>
    exact width_of_serve h fixedBinary_rOfWidth
  | fxShl q o | fxShr q o => exact width_of_serve h fixedShift_rOfWidth
  | fxNeg q o | fxNot q o | fxInc q o | fxDec q o | fxFromint q o => exact width_of_serve h fixedUnary_rOfWidth
  | fxEq | fxNe | fxLt | fxLe | fxGt | fxGe => exact width_of_serve h fixedCompare_rOfWidth
  | fxSlc => exact width_of_serve h slcResult_rOfWidth
  | fxSetslc => exact width_of_serve h setslcResult_rOfWidth
  | fxToint => exact width_of_serve h tointResult_rOfWidth
  | fpExtract nosub norm => exact width_of_serve h extractResult_rOfWidth
  | fpRndasm q nosub => exact width_of_serve h rndasmResult_rOfWidth
  | fpAdd q nosub | fpSub q nosub =>
    exact width_of_serve h (floatBinary_rOfWidth fun _ _ _ _ => addUnit_width ..)
  | fpMul q nosub => exact width_of_serve h (floatBinary_rOfWidth fun _ _ _ _ => mulUnit_width ..)
  | fpDiv q nosub => exact width_of_serve h (floatBinary_rOfWidth fun _ _ _ _ => divUnit_width ..)
  | fpFma q nosub => exact width_of_serve h (floatTernary_rOfWidth fun _ _ _ _ _ => fmaUnit_width ..)
  | fpSqrt q nosub => exact width_of_serve h (floatUnary_rOfWidth fun _ _ _ => sqrtUnit_width ..)
  | fpEq | fpNe | fpLt | fpLe | fpGt | fpGe => exact width_of_serve h floatCompare_rOfWidth
  | fpCeil | fpFloor | fpTrunc | fpRound => exact width_of_serve h floatIntegral_rOfWidth
  | cvFx2f q nosub => exact width_of_serve h fx2fResult_rOfWidth
  | cvF2fx q o mapinf => exact width_of_serve h f2fxResult_rOfWidth
  | cvF2f q nosub => exact width_of_serve h f2fResult_rOfWidth

end Sys2Proof.Machine
end

section
/-! PROOFS. The operation-select word: what each field of an assembled word is, what a mask leaves of a word, and the
obligations about the decoder and the encoder that follow. -/

namespace Sys2Proof

open Sys2Proof.Machine

/-! ## The fields of an assembled word (R77) -/

section
variable (op : BitVec 6) (q : BitVec 3) (o : OverflowMode) (nosub mapinf norm : Bool)

/-- The two readings of the table of R83 invert each other. -/
@[simp] theorem overflowModeOf_overflowCode : overflowModeOf (overflowCode o) = o := by cases o <;> rfl

@[simp] theorem overflowCode_overflowModeOf (c : BitVec 2) : overflowCode (overflowModeOf c) = c := by
  revert c; decide

/-- Each bit of an assembled word is a bit of the field that holds its place (R77). -/
theorem getLsbD_opselWord (k : ℕ) :
    (opselWord op q o nosub mapinf norm).getLsbD k =
      if k < 6 then op.getLsbD k
      else if k < 9 then q.getLsbD (k - 6)
      else if k < 11 then (overflowCode o).getLsbD (k - 9)
      else if k = 11 then nosub
      else if k = 12 then mapinf
      else if k = 13 then norm
      else false := by
  by_cases h : k < 16
  · simp only [opselWord, BitVec.getLsbD_append]
    interval_cases k <;> simp
  · rw [BitVec.getLsbD_of_ge _ _ (by omega)]
    simp [show ¬ k < 6 by omega, show ¬ k < 9 by omega, show ¬ k < 11 by omega, show k ≠ 11 by omega,
      show k ≠ 12 by omega, show k ≠ 13 by omega]

@[simp] theorem fieldOp_opselWord : fieldOp (opselWord op q o nosub mapinf norm) = op := by
  refine BitVec.eq_of_getLsbD_eq fun k hk => ?_
  simp only [fieldOp, BitVec.getLsbD_extractLsb', getLsbD_opselWord]
  simp [hk]

@[simp] theorem fieldQ_opselWord : fieldQ (opselWord op q o nosub mapinf norm) = q := by
  refine BitVec.eq_of_getLsbD_eq fun k hk => ?_
  simp only [fieldQ, BitVec.getLsbD_extractLsb', getLsbD_opselWord]
  simp [hk, show 6 + k < 9 by omega]

@[simp] theorem fieldO_opselWord : fieldO (opselWord op q o nosub mapinf norm) = o := by
  have : (opselWord op q o nosub mapinf norm).extractLsb' 9 2 = overflowCode o := by
    refine BitVec.eq_of_getLsbD_eq fun k hk => ?_
    simp only [BitVec.getLsbD_extractLsb', getLsbD_opselWord]
    simp [hk, show 9 + k < 11 by omega, show ¬ 9 + k < 6 by omega]
  rw [fieldO, this, overflowModeOf_overflowCode]

@[simp] theorem fieldNosub_opselWord : fieldNosub (opselWord op q o nosub mapinf norm) = nosub :=
  getLsbD_opselWord ..

@[simp] theorem fieldMapinf_opselWord : fieldMapinf (opselWord op q o nosub mapinf norm) = mapinf :=
  getLsbD_opselWord ..

@[simp] theorem fieldNorm_opselWord : fieldNorm (opselWord op q o nosub mapinf norm) = norm :=
  getLsbD_opselWord ..

@[simp] theorem fieldReserved_opselWord : fieldReserved (opselWord op q o nosub mapinf norm) = 0#2 :=
  Laws.ReservedBitsZero.opselWord_reserved ..
end

/-- A word without reserved bits is assembled from its own fields (R77). -/
theorem eq_opselWord_of_fields {w : BitVec 16} (hr : fieldReserved w = 0#2) :
    w = opselWord (fieldOp w) (fieldQ w) (fieldO w) (fieldNosub w) (fieldMapinf w) (fieldNorm w) := by
  refine BitVec.eq_of_getLsbD_eq fun k hk => ?_
  have hr' : ∀ j, (fieldReserved w).getLsbD j = false := by simp [hr]
  simp only [fieldReserved, BitVec.getLsbD_extractLsb'] at hr'
  have h14 := hr' 0
  have h15 := hr' 1
  rw [getLsbD_opselWord, fieldO, overflowCode_overflowModeOf]
  simp only [fieldNorm, fieldMapinf, fieldNosub, fieldQ, fieldOp, BitVec.getLsbD_extractLsb']
  interval_cases k <;> simp_all

/-! ## The fields of a word under a mask -/

section
variable {w m : BitVec 16}

theorem fieldOp_and : fieldOp (w &&& m) = fieldOp w &&& fieldOp m := BitVec.extractLsb'_and ..
theorem fieldQ_and : fieldQ (w &&& m) = fieldQ w &&& fieldQ m := BitVec.extractLsb'_and ..
theorem fieldReserved_and : fieldReserved (w &&& m) = fieldReserved w &&& fieldReserved m :=
  BitVec.extractLsb'_and ..

theorem fieldNosub_and : fieldNosub (w &&& m) = (fieldNosub w && fieldNosub m) :=
  BitVec.getLsbD_and ..
theorem fieldMapinf_and : fieldMapinf (w &&& m) = (fieldMapinf w && fieldMapinf m) :=
  BitVec.getLsbD_and ..
theorem fieldNorm_and : fieldNorm (w &&& m) = (fieldNorm w && fieldNorm m) :=
  BitVec.getLsbD_and ..

/-- A mask that has both bits of `O` keeps the overflow mode. -/
theorem fieldO_and_of_kept (h : m.extractLsb' 9 2 = 3#2) : fieldO (w &&& m) = fieldO w := by
  rw [fieldO, fieldO, BitVec.extractLsb'_and, h, show 3#2 = BitVec.allOnes 2 from rfl, BitVec.and_allOnes]

/-- A mask that has neither bit of `O` leaves the mode of code 0. -/
theorem fieldO_and_of_masked (h : m.extractLsb' 9 2 = 0#2) : fieldO (w &&& m) = .wrap := by
  rw [fieldO, BitVec.extractLsb'_and, h, BitVec.and_zero]
  rfl

theorem fieldQ_and_of_kept (h : fieldQ m = 7#3) : fieldQ (w &&& m) = fieldQ w := by
  rw [fieldQ_and, h, show 7#3 = BitVec.allOnes 3 from rfl, BitVec.and_allOnes]

theorem fieldQ_and_of_masked (h : fieldQ m = 0#3) : fieldQ (w &&& m) = 0#3 := by
  rw [fieldQ_and, h, BitVec.and_zero]

end

/-! ## Decoding what was encoded -/

/-- Settles O1, operation by operation: an encoded word has no reserved bit, its `OP` selects the operation's row, and
each field the row reads is the one the encoder put there. -/
theorem decodeEncodeRoundTrip : Obligations.DecodeEncodeRoundTrip := by
  intro i
  cases i <;> simp only [encode, decode, fieldReserved_opselWord, fieldOp_opselWord, fieldQ_opselWord,
    fieldO_opselWord, fieldNosub_opselWord, fieldMapinf_opselWord, fieldNorm_opselWord, ne_eq, not_true_eq_false,
    if_false, BitVec.reduceToNat]

/-- Different instructions have different words. -/
theorem encode_injective {i j : Instr} (h : encode i = encode j) : i = j := by
  have hi := decodeEncodeRoundTrip i
  rw [h, decodeEncodeRoundTrip j] at hi
  injection hi with hi
  exact hi.symm

/-! ## The bits a format reads (R80)

One lemma per mask of `readMask`, named after the fields that the mask keeps beside `OP`. -/

section
variable {w : BitVec 16} {n : ℕ} (hr : fieldReserved w = 0#2) (hn : (fieldOp w).toNat = n)
include hr hn

/-- A word under a mask that keeps `OP` is assembled from `OP` and from what the mask leaves of the other fields. -/
theorem and_eq_opselWord {m : BitVec 16} (hm : fieldOp m = BitVec.allOnes 6) :
    w &&& m = opselWord (BitVec.ofNat 6 n) (fieldQ (w &&& m)) (fieldO (w &&& m)) (fieldNosub w && fieldNosub m)
      (fieldMapinf w && fieldMapinf m) (fieldNorm w && fieldNorm m) := by
  have hr' : fieldReserved (w &&& m) = 0#2 := by rw [fieldReserved_and, hr, BitVec.zero_and]
  conv_lhs => rw [eq_opselWord_of_fields hr', fieldOp_and, hm, BitVec.and_allOnes, fieldNosub_and, fieldMapinf_and,
    fieldNorm_and]
  rw [← hn, BitVec.ofNat_toNat, BitVec.setWidth_eq]

theorem and_maskQO : w &&& 0xC7FF#16 = opselWord (BitVec.ofNat 6 n) (fieldQ w) (fieldO w) false false false := by
  rw [and_eq_opselWord hr hn rfl, fieldQ_and_of_kept rfl, fieldO_and_of_kept rfl]
  simp [fieldNosub, fieldMapinf, fieldNorm]

theorem and_maskQ : w &&& 0xC1FF#16 = opselWord (BitVec.ofNat 6 n) (fieldQ w) .wrap false false false := by
  rw [and_eq_opselWord hr hn rfl, fieldQ_and_of_kept rfl, fieldO_and_of_masked rfl]
  simp [fieldNosub, fieldMapinf, fieldNorm]

theorem and_maskO : w &&& 0xC63F#16 = opselWord (BitVec.ofNat 6 n) 0#3 (fieldO w) false false false := by
  rw [and_eq_opselWord hr hn rfl, fieldQ_and_of_masked rfl, fieldO_and_of_kept rfl]
  simp [fieldNosub, fieldMapinf, fieldNorm]

theorem and_maskOp : w &&& 0xC03F#16 = opselWord (BitVec.ofNat 6 n) 0#3 .wrap false false false := by
  rw [and_eq_opselWord hr hn rfl, fieldQ_and_of_masked rfl, fieldO_and_of_masked rfl]
  simp [fieldNosub, fieldMapinf, fieldNorm]

theorem and_maskNosubNorm :
    w &&& 0xE83F#16 = opselWord (BitVec.ofNat 6 n) 0#3 .wrap (fieldNosub w) false (fieldNorm w) := by
  rw [and_eq_opselWord hr hn rfl, fieldQ_and_of_masked rfl, fieldO_and_of_masked rfl]
  simp [fieldNosub, fieldMapinf, fieldNorm]

theorem and_maskQNosub :
    w &&& 0xC9FF#16 = opselWord (BitVec.ofNat 6 n) (fieldQ w) .wrap (fieldNosub w) false false := by
  rw [and_eq_opselWord hr hn rfl, fieldQ_and_of_kept rfl, fieldO_and_of_masked rfl]
  simp [fieldNosub, fieldMapinf, fieldNorm]

theorem and_maskQOMapinf :
    w &&& 0xD7FF#16 = opselWord (BitVec.ofNat 6 n) (fieldQ w) (fieldO w) false (fieldMapinf w) false := by
  rw [and_eq_opselWord hr hn rfl, fieldQ_and_of_kept rfl, fieldO_and_of_kept rfl]
  simp [fieldNosub, fieldMapinf, fieldNorm]

end

/-- A word that names an instruction has no reserved bit (R86). -/
theorem reserved_of_decode {w : BitVec 16} {i : Instr} (h : decode w = .ok i) : fieldReserved w = 0#2 := by
  by_contra hr
  rw [decode, if_pos hr] at h
  cases h

/-- A word that names an instruction is its encoding on the bits that the format reads: one case per row of the table,
closed by what the format's mask leaves of the word. -/
theorem and_readMask_of_decode {w : BitVec 16} {i : Instr} (h : decode w = .ok i) :
    w &&& readMask i = encode i := by
  have hr := reserved_of_decode h
  rw [decode, if_neg (not_not.mpr hr)] at h
  dsimp only at h
  split at h
  all_goals cases h
  case h_1 | h_4 | h_5 | h_6 | h_7 | h_8 | h_9 | h_10 | h_11 | h_12 | h_13 | h_14 | h_15 | h_16 | h_26 =>
    exact and_maskQO hr ‹_›
  case h_2 => exact and_maskQ hr ‹_›
  case h_3 => exact and_maskO hr ‹_›
  case h_27 => exact and_maskNosubNorm hr ‹_›
  case h_28 | h_29 | h_30 | h_31 | h_32 | h_33 | h_34 | h_45 | h_47 => exact and_maskQNosub hr ‹_›
  case h_46 => exact and_maskQOMapinf hr ‹_›
  all_goals exact and_maskOp hr ‹_›

/-- `OP` and the reserved bits alone decide whether a word names an instruction, and of which format. -/
theorem decode_of_same_op {v w : BitVec 16} {i : Instr} (hr : fieldReserved w = fieldReserved v)
    (ho : fieldOp w = fieldOp v) (h : decode v = .ok i) : ∃ j, decode w = .ok j ∧ readMask j = readMask i := by
  unfold decode at h ⊢
  rw [hr, ho]
  split at h
  · cases h
  · rw [if_neg ‹_›]
    dsimp only at h ⊢
    split at h
    case h_48 => cases h
    all_goals
      cases h
      exact ⟨_, rfl, rfl⟩

/-- Every format reads the whole of `OP`. -/
theorem fieldOp_readMask (i : Instr) : fieldOp (readMask i) = BitVec.allOnes 6 := by
  cases i <;> (rw [readMask]; rfl)

/-- Every format reads the reserved bits. -/
theorem fieldReserved_readMask (i : Instr) : fieldReserved (readMask i) = BitVec.allOnes 2 := by
  cases i <;> (rw [readMask]; rfl)

/-- Settles O2. From right to left: the word has the reserved bits and the `OP` of the encoding, so it names some
instruction of the same format; the encodings of the two agree, and so do they. -/
theorem decoderReadsExactlyItsFields : Obligations.DecoderReadsExactlyItsFields := by
  intro w i
  refine ⟨and_readMask_of_decode, fun h => ?_⟩
  have hr : fieldReserved w = fieldReserved (encode i) := by
    rw [← h, fieldReserved_and, fieldReserved_readMask, BitVec.and_allOnes]
  have ho : fieldOp w = fieldOp (encode i) := by rw [← h, fieldOp_and, fieldOp_readMask, BitVec.and_allOnes]
  obtain ⟨j, hj, hmask⟩ := decode_of_same_op hr ho (decodeEncodeRoundTrip i)
  have hw : encode j = encode i := by rw [← and_readMask_of_decode hj, hmask, h]
  rw [hj, encode_injective hw]

/-! ## The words refused (R86) and sample words -/

/-- Settles O3: past the reserved bits, the last row of the decoder's table is taken by exactly the codes between the
families and above the last one. -/
theorem illegalWordsAreRefused : Obligations.IllegalWordsAreRefused := by
  intro w
  have hlt := (fieldOp w).isLt
  by_cases hr : fieldReserved w = 0#2
  · rw [decode, if_neg (not_not.mpr hr)]
    dsimp only
    generalize (fieldOp w).toNat = n at hlt ⊢
    split
    case h_48 =>
      refine iff_of_true ⟨_, rfl⟩ (.inr ?_)
      simp only [imp_false] at *
      omega
    all_goals exact iff_of_false (fun ⟨e, he⟩ => nomatch he) (by simp [hr])
  · rw [decode, if_pos hr]
    exact iff_of_true ⟨_, rfl⟩ (.inl hr)

/-- Settles O4: each word is decoded by evaluation. -/
theorem sampleWordsDecode : Obligations.SampleWordsDecode := by
  unfold Obligations.SampleWordsDecode
  decide

end Sys2Proof
end

section
/-! PROOFS. The fields, the class and the value of a float pattern, the NaN that a NaN result carries, and the integer
converted to a fixed spec. -/

namespace Sys2Proof.Machine

/-! ## Conversion from an integer -/

/-- Under an integer spec, `I = W`, a pattern stands for its integer (R71). -/
theorem fxVal_of_integer {d : FixedSpec} (hd : d.i = d.w) (p : Bits) : fxVal d p = fixedInt d.s p := by
  have hf : d.f = 0 := by rw [FixedSpec.f, hd, sub_self]
  rw [fxVal, hf, neg_zero, zpow_zero, mul_one]

/-- Settles O36: the format's own result, with the integer for the operand's value. -/
theorem fxFromintResult : Obligations.FxFromintResult := by
  intro s q m o h hm hi
  have hint : s.request.srcA.fixed.i = s.request.srcA.fixed.w := hi.trans (SpecRecord.fixed_w h.2.1).symm
  refine ⟨?_, fxVal_of_integer hint _⟩
  have hres := fixedUnary_ready o (fun a _ => a.spec.i = a.spec.w) (fun a => (a.k : ℚ)) h (decide_eq_true hint) hm
  exact (congrArg (serve s) hres).trans (serve_answer h.1)

variable {f : FloatSpec}

/-! ## The exponents of a float spec -/

/-- `2^E` is twice `2^(E−1)`, which is at least 2. -/
theorem FloatSpec.Legal.two_pow_e (hl : f.Legal) :
    (2 : ℤ) ^ f.e = 2 * 2 ^ (f.e - 1) ∧ (2 : ℤ) ≤ 2 ^ (f.e - 1) := by
  obtain ⟨n, hn⟩ : ∃ n, f.e = n + 2 := ⟨f.e - 2, by have := hl.1; omega⟩
  have : (1 : ℤ) ≤ 2 ^ n := one_le_pow₀ (by norm_num)
  rw [hn]
  constructor
  · rw [show n + 2 - 1 = n + 1 by omega]
    ring
  · rw [show n + 2 - 1 = n + 1 by omega, pow_succ]
    omega

/-- There is more than one normal exponent. -/
theorem FloatSpec.Legal.emin_lt_emax (hl : f.Legal) : f.emin < f.emax := by
  obtain ⟨h1, h2⟩ := hl.two_pow_e
  unfold FloatSpec.emin FloatSpec.emax FloatSpec.bias
  omega

/-- The all-ones exponent field follows that of `emax` (R73). -/
theorem FloatSpec.cast_efMax (f : FloatSpec) : (f.efMax : ℤ) = f.emax + f.bias + 1 := by
  have : (1 : ℕ) ≤ 2 ^ f.e := Nat.one_le_two_pow
  unfold FloatSpec.efMax FloatSpec.emax
  push_cast [Nat.cast_sub this]
  ring

theorem FloatSpec.efMax_lt (f : FloatSpec) : f.efMax < 2 ^ f.e := by
  have : (1 : ℕ) ≤ 2 ^ f.e := Nat.one_le_two_pow
  unfold FloatSpec.efMax
  omega

/-- How the exponents of a spec and their fields lie to each other (R73). -/
theorem FloatSpec.Legal.exponents (hl : f.Legal) :
    f.emin = 1 - f.bias ∧ (f.efMax : ℤ) = f.emax + f.bias + 1 ∧ f.efMax < 2 ^ f.e ∧ f.emin < f.emax :=
  ⟨rfl, f.cast_efMax, f.efMax_lt, hl.emin_lt_emax⟩

theorem FloatSpec.Legal.efMax_pos (hl : f.Legal) : 0 < f.efMax := by
  obtain ⟨hmin, hmax, -, hlt⟩ := hl.exponents
  omega

/-- A mantissa has at least one bit (R9). -/
theorem FloatSpec.Legal.m_pos (hl : f.Legal) : 1 ≤ f.m := by
  have := hl.2
  unfold FloatSpec.m
  omega

theorem FloatSpec.Legal.two_dvd_two_pow_m (hl : f.Legal) : 2 ∣ 2 ^ f.m :=
  dvd_pow_self 2 (by have := hl.m_pos; omega)

/-! ## The fields of a float pattern -/

section
variable (a : FloatOperand)

/-! The bits of a pattern are those of its three fields (R73). -/

theorem FloatOperand.sign_eq_testBit : a.sign = a.p.testBit (a.spec.w - 1) :=
  (Nat.testBit_eq_decide_div_mod_eq).symm

theorem FloatOperand.testBit_ef (k : ℕ) :
    a.ef.testBit k = (decide (k < a.spec.e) && a.p.testBit (a.spec.m + k)) := by
  rw [FloatOperand.ef, Nat.testBit_mod_two_pow, Nat.testBit_div_two_pow, Nat.add_comm]

theorem FloatOperand.testBit_mf (k : ℕ) : a.mf.testBit k = (decide (k < a.spec.m) && a.p.testBit k) :=
  Nat.testBit_mod_two_pow ..

theorem FloatOperand.ef_lt : a.ef < 2 ^ a.spec.e := Nat.mod_lt _ (by positivity)

theorem FloatOperand.mf_lt : a.mf < 2 ^ a.spec.m := Nat.mod_lt _ (by positivity)

theorem FloatOperand.pattern_getLsbD {k : ℕ} (hk : k < a.spec.w) : a.pattern.val.getLsbD k = a.p.testBit k := by
  rw [FloatOperand.pattern, BitVec.getLsbD_ofNat, decide_eq_true hk, Bool.true_and]

end

/-- The bits of a built pattern are those of the fields it was built from (R73). -/
theorem FloatSpec.pack_getLsbD (hl : f.Legal) (s : Bool) {ef mf : ℕ} (he : ef < 2 ^ f.e)
    (hm : mf < 2 ^ f.m) {k : ℕ} (hk : k < f.w) :
    (f.pack s ef mf).val.getLsbD k =
      if k < f.m then mf.testBit k else if k < f.w - 1 then ef.testBit (k - f.m) else s := by
  have hw := hl.width
  have hn : s.toNat * 2 ^ (f.w - 1) + ef * 2 ^ f.m + mf = 2 ^ f.m * (2 ^ f.e * s.toNat + ef) + mf := by
    rw [show f.w - 1 = f.m + f.e by omega, pow_add]
    ring
  simp only [FloatSpec.pack, BitVec.getLsbD_ofNat, hk, decide_true, Bool.true_and, hn]
  rw [Nat.testBit_two_pow_mul_add _ hm]
  split
  · rfl
  · rw [Nat.testBit_two_pow_mul_add _ he]
    by_cases h : k < f.w - 1
    · rw [if_pos h, if_pos (by omega)]
    · rw [if_neg h, if_neg (by omega), show k - f.m - f.e = 0 by omega]
      cases s <;> rfl

/-! ## The class and the value of a float pattern -/

section
variable {a : FloatOperand}

/-- A NaN has the exponent field all ones and a mantissa that is not zero (R74). -/
theorem FloatOperand.cls_eq_nan_iff (hl : a.spec.Legal) :
    a.cls = .nan ↔ a.ef = a.spec.efMax ∧ a.mf ≠ 0 := by
  have h0 := hl.efMax_pos.ne'
  unfold FloatOperand.cls
  split_ifs <;> simp_all [eq_comm]

/-- The patterns with a value are those whose exponent field is not all ones (R74). -/
theorem FloatOperand.finite_iff (hl : a.spec.Legal) : a.Finite ↔ a.ef < a.spec.efMax := by
  have hmax : a.ef ≤ a.spec.efMax := Nat.le_sub_one_of_lt a.ef_lt
  have h0 := hl.efMax_pos
  unfold FloatOperand.Finite FloatOperand.cls
  split_ifs <;> simp <;> omega

theorem FloatOperand.cls_eq_subnormal_iff : a.cls = .subnormal ↔ a.ef = 0 ∧ a.mf ≠ 0 := by
  unfold FloatOperand.cls
  split_ifs <;> simp_all

theorem FloatOperand.cls_eq_zero_iff : a.cls = .zero ↔ a.ef = 0 ∧ a.mf = 0 := by
  unfold FloatOperand.cls
  split_ifs <;> simp_all

theorem FloatOperand.ef_ne_zero_of_normal (h : a.cls = .normal) : a.ef ≠ 0 := by
  intro h0
  rw [FloatOperand.cls, if_pos h0] at h
  split at h <;> cases h

theorem abs_signOf (s : Bool) : |signOf s| = 1 := by cases s <;> simp [signOf]

/-- The magnitude of a finite pattern is that of its extract record (R203). -/
theorem FloatOperand.abs_val (h : a.Finite) :
    |a.val| = a.extract.mant * (2 : ℚ) ^ (a.extract.exp - a.spec.m) := by
  obtain ⟨hn, hi⟩ := h
  have hcls : a.cls = .zero ∨ a.cls = .subnormal ∨ a.cls = .normal := by
    cases hc : a.cls <;> simp_all
  rcases hcls with hc | hc | hc
  · obtain ⟨he, hm⟩ := cls_eq_zero_iff.mp hc
    simp [FloatOperand.val, hc, FloatOperand.extract, he, hm]
  · obtain ⟨he, -⟩ := cls_eq_subnormal_iff.mp hc
    simp [FloatOperand.val, hc, FloatOperand.extract, he, abs_mul, abs_signOf]
  · have he := ef_ne_zero_of_normal hc
    simp only [FloatOperand.val, hc, FloatOperand.extract, if_pos he, abs_mul, abs_signOf, one_mul, Nat.abs_cast,
      abs_zpow, abs_two]

/-- A mantissa with its leading bit explicit has `M + 1` bits (R202). -/
theorem FloatOperand.extract_mant_lt (a : FloatOperand) : a.extract.mant < 2 ^ (a.spec.m + 1) := by
  have := a.mf_lt
  have : 2 ^ (a.spec.m + 1) = 2 ^ a.spec.m + 2 ^ a.spec.m := by ring
  simp only [FloatOperand.extract]
  split <;> omega

/-- The exponent of a finite pattern is one of a normal value (R73, R202). -/
theorem FloatOperand.extract_exp_range (hl : a.spec.Legal) (h : a.Finite) :
    a.spec.emin ≤ a.extract.exp ∧ a.extract.exp ≤ a.spec.emax := by
  have h1 := (a.finite_iff hl).mp h
  obtain ⟨hmin, hmax, -, hlt⟩ := hl.exponents
  simp only [FloatOperand.extract]
  split <;> omega

/-- Above the least exponent the leading bit is set (R203). -/
theorem FloatOperand.le_extract_mant (h : a.spec.emin < a.extract.exp) : 2 ^ a.spec.m ≤ a.extract.mant := by
  simp only [FloatOperand.extract] at h ⊢
  split at h
  · rw [if_pos ‹_›]
    omega
  · exact absurd h (lt_irrefl _)

end

/-- The pattern `r` is finite, has the sign `s` and the magnitude `t · 2^q`, and its mantissa has the parity of `t`. -/
structure FloatOperand.Shows (r : FloatOperand) (s : Bool) (t : ℕ) (q : ℤ) : Prop where
  sign : r.sign = s
  finite : r.Finite
  abs_val : |r.val| = t * (2 : ℚ) ^ q
  parity : r.mf % 2 = t % 2

@[simp] theorem FloatSpec.read_spec (f : FloatSpec) (r : Bits) : (f.read r).spec = f := rfl

/-- A mantissa below `2^M` under the exponent field 0 (R75). -/
theorem FloatSpec.read_pack_subnormal (hl : f.Legal) (s : Bool) {t : ℕ} (ht : t < 2 ^ f.m) :
    (f.read (f.pack s 0 t)).Shows s t (f.emin - f.m) := by
  obtain ⟨hs, he, hm⟩ := f.read_pack hl (s := s) (ef := 0) (by positivity) ht
  have hfin : (f.read (f.pack s 0 t)).Finite := (FloatOperand.finite_iff hl).mpr (by rw [he]; exact hl.efMax_pos)
  refine ⟨hs, hfin, ?_, by rw [hm]⟩
  rw [FloatOperand.abs_val hfin]
  simp [FloatOperand.extract, he, hm]

/-- A mantissa with its leading bit, under the field of its exponent (R75). -/
theorem FloatSpec.read_pack_normal (hl : f.Legal) (s : Bool) {t : ℕ} {E : ℤ} (ht : 2 ^ f.m ≤ t)
    (ht' : t < 2 ^ (f.m + 1)) (hE : f.emin ≤ E) (hE' : E ≤ f.emax) :
    (f.read (f.pack s (E + f.bias).toNat (t - 2 ^ f.m))).Shows s t (E - f.m) := by
  have hpow : 2 ^ (f.m + 1) = 2 ^ f.m + 2 ^ f.m := by ring
  obtain ⟨hmin, hmax, hlt, -⟩ := hl.exponents
  obtain ⟨hs, he, hm⟩ := f.read_pack hl (s := s) (ef := (E + f.bias).toNat) (mf := t - 2 ^ f.m)
    (by omega) (by omega)
  set r := f.read (f.pack s (E + f.bias).toNat (t - 2 ^ f.m)) with hr
  have hfin : r.Finite := (FloatOperand.finite_iff hl).mpr (by rw [he]; show _ < f.efMax; omega)
  have he0 : r.ef ≠ 0 := by omega
  have hmant : r.extract.mant = t := by
    simp only [FloatOperand.extract, if_pos he0, hm]
    show 2 ^ f.m + _ = t
    omega
  have hexp : r.extract.exp = E := by
    simp only [FloatOperand.extract]
    rw [if_pos he0, he]
    show _ - f.bias = E
    omega
  refine ⟨hs, hfin, ?_, ?_⟩
  · rw [FloatOperand.abs_val hfin, hmant, hexp]
    rfl
  · have := hl.two_dvd_two_pow_m
    omega

/-- `Zero(s)` (R76). -/
theorem FloatSpec.read_zero_shows (hl : f.Legal) (s : Bool) : (f.read (f.zero s)).Shows s 0 (f.emin - f.m) :=
  f.read_pack_subnormal hl s (by positivity)

/-- `MaxFinite(s)` (R76): the largest mantissa under the largest exponent. -/
theorem FloatSpec.read_maxFinite_shows (hl : f.Legal) (s : Bool) :
    (f.read (f.maxFinite s)).Shows s (2 ^ (f.m + 1) - 1) (f.emax - f.m) := by
  have hpos : 0 < 2 ^ f.m := by positivity
  have hpow : 2 ^ (f.m + 1) = 2 ^ f.m + 2 ^ f.m := by ring
  have hef := f.cast_efMax
  have hr := f.read_pack_normal hl s (t := 2 ^ (f.m + 1) - 1) (E := f.emax) (by omega) (by omega)
    hl.emin_lt_emax.le le_rfl
  rwa [show (f.emax + f.bias).toNat = f.efMax - 1 by omega,
    show 2 ^ (f.m + 1) - 1 - 2 ^ f.m = 2 ^ f.m - 1 by omega] at hr

theorem FloatSpec.read_inf_sign (hl : f.Legal) (s : Bool) : (f.read (f.inf s)).sign = s :=
  (f.read_pack hl f.efMax_lt (by positivity)).1

/-! ## The NaN of a NaN result (R208) -/

theorem FloatOperand.isNan_extract (a : FloatOperand) : a.extract.isNan = decide (a.cls = .nan) := rfl

/-- Where no operand is a NaN, none is found (R208). -/
theorem find?_isNan_of_none {xs : List FloatOperand} (h : ∀ a ∈ xs, a.cls ≠ .nan) :
    (xs.map FloatOperand.extract).find? Extracted.isNan = none := by
  simpa [List.find?_eq_none, FloatOperand.isNan_extract] using h

/-- The NaN found is the first (R208). -/
theorem find?_isNan_append {before after : List FloatOperand} {a : FloatOperand} (h : ∀ b ∈ before, b.cls ≠ .nan)
    (ha : a.cls = .nan) :
    ((before ++ a :: after).map FloatOperand.extract).find? Extracted.isNan = some a.extract := by
  rw [List.map_append, List.find?_append, find?_isNan_of_none h]
  simp [FloatOperand.isNan_extract, ha]

/-- Under `propagate` the NaN carried is built from the sign and the mantissa of the one found (R208). -/
theorem nanResult_propagate {cfg : Config} {xs : List Extracted} {x : Extracted}
    (hp : cfg.nanPolicy = .propagate) (hx : xs.find? Extracted.isNan = some x) :
    nanResult cfg f xs = f.pack x.sign f.efMax ((x.mant - 2 ^ f.m) ||| 2 ^ (f.m - 1)) := by
  simp only [nanResult, hp, hx]

/-- Setting the top mantissa bit of a pattern changes no other bit (R208). -/
theorem FloatOperand.quieted_getLsbD {a : FloatOperand} (hl : a.spec.Legal) {k : ℕ} (hk : k < a.spec.w) :
    (a.spec.pack a.sign a.ef (a.mf ||| 2 ^ (a.spec.m - 1))).val.getLsbD k =
      (k == a.spec.m - 1 || a.pattern.val.getLsbD k) := by
  have hw := hl.width
  have hm := hl.m_pos
  have htop : 2 ^ (a.spec.m - 1) < 2 ^ a.spec.m := Nat.pow_lt_pow_right (by norm_num) (by omega)
  rw [FloatSpec.pack_getLsbD hl _ a.ef_lt (Nat.or_lt_two_pow a.mf_lt htop) hk, a.pattern_getLsbD hk, Nat.testBit_or,
    Nat.testBit_two_pow, a.testBit_mf, a.testBit_ef, a.sign_eq_testBit]
  by_cases h1 : k < a.spec.m
  · rw [if_pos h1, decide_eq_true h1, Bool.true_and, Bool.or_comm]
    simp only [beq_eq_decide, eq_comm (a := k)]
  · have hne : (k == a.spec.m - 1) = false := beq_eq_false_iff_ne.mpr (by omega)
    rw [if_neg h1, hne, Bool.false_or]
    by_cases h2 : k < a.spec.w - 1
    · rw [if_pos h2, show a.spec.m + (k - a.spec.m) = k by omega, decide_eq_true (by omega), Bool.true_and]
    · rw [if_neg h2, show a.spec.w - 1 = k by omega]

/-- Settles O45, by the policy and, under `propagate`, by whether an operand is a NaN. -/
theorem nanResultFollowsThePolicy : Obligations.NanResultFollowsThePolicy := by
  intro cfg f operands hl hspec
  refine ⟨fun hc => ?_, fun hp hno => ?_, fun hp before a after hsplit hbefore ha => ⟨nanResult_width .., ?_⟩⟩
  · simp only [nanResult, hc]
  · simp only [nanResult, hp, find?_isNan_of_none hno]
  · subst hsplit
    obtain ⟨rfl, -⟩ := hspec a (by simp)
    obtain ⟨hef, -⟩ := (FloatOperand.cls_eq_nan_iff hl).mp ha
    have hef0 : a.ef ≠ 0 := hef ▸ hl.efMax_pos.ne'
    have hmant : a.extract.mant - 2 ^ a.spec.m = a.mf := by simp [FloatOperand.extract, hef0]
    intro k hk
    rw [nanResult_propagate hp (find?_isNan_append hbefore ha), hmant, ← hef]
    exact a.quieted_getLsbD hl hk

end Sys2Proof.Machine
end

section
/-! PROOFS. Rounding once: the grid of the finite magnitudes, the mantissa that a mode keeps, the pattern that shows it,
and what `RoundAssemble` answers. -/

namespace Sys2Proof.Machine

variable {f : FloatSpec}

/-! ## The grid of finite magnitudes -/

/-! ### Powers of two -/

theorem two_zpow_add_natCast (E : ℤ) (n : ℕ) : (2 : ℚ) ^ (E + n) = 2 ^ n * 2 ^ E := by
  rw [zpow_add₀ two_ne_zero, zpow_natCast, mul_comm]

section
variable (E : ℤ) (m : ℕ)

theorem two_pow_mul_unit : (2 : ℚ) ^ m * 2 ^ (E - m) = 2 ^ E := by
  rw [← two_zpow_add_natCast, sub_add_cancel]

theorem two_pow_succ_mul_unit : (2 : ℚ) ^ (m + 1) * 2 ^ (E - m) = 2 ^ (E + 1) := by
  rw [pow_succ', mul_assoc, two_pow_mul_unit, zpow_add_one₀ two_ne_zero, mul_comm]

end

theorem two_zpow_lt_iff {a b : ℤ} : (2 : ℚ) ^ a < 2 ^ b ↔ a < b := zpow_lt_zpow_iff_right₀ one_lt_two

theorem two_zpow_le_iff {a b : ℤ} : (2 : ℚ) ^ a ≤ 2 ^ b ↔ a ≤ b := zpow_le_zpow_iff_right₀ one_lt_two

/-! ### Neighbours -/

/-- No finite magnitude lies strictly between two neighbours `n` and `n + 1` of the grid of the exponent `E`, where `n`
fills the mantissa unless the exponent is the least one. -/
theorem finite_abs_val_grid {p : FloatOperand} (hl : p.spec.Legal) (hp : p.Finite) {E : ℤ} {n : ℕ}
    (hE : p.spec.emin ≤ E) (hn : p.spec.emin < E → 2 ^ p.spec.m ≤ n) :
    |p.val| ≤ n * (2 : ℚ) ^ (E - p.spec.m) ∨ (n + 1) * (2 : ℚ) ^ (E - p.spec.m) ≤ |p.val| := by
  have hq : (0 : ℚ) < 2 ^ (E - p.spec.m) := by positivity
  obtain ⟨h1, -⟩ := FloatOperand.extract_exp_range hl hp
  rw [FloatOperand.abs_val hp]
  rcases le_or_gt E p.extract.exp with hle | hgt
  · obtain ⟨d, hd⟩ := Int.eq_ofNat_of_zero_le (sub_nonneg.mpr hle)
    have hval : (p.extract.mant : ℚ) * 2 ^ (p.extract.exp - p.spec.m) =
        (p.extract.mant * 2 ^ d : ℕ) * (2 : ℚ) ^ (E - p.spec.m) := by
      rw [show p.extract.exp - p.spec.m = E - p.spec.m + d by omega, two_zpow_add_natCast]
      push_cast
      ring
    rw [hval]
    rcases Nat.lt_or_ge n (p.extract.mant * 2 ^ d) with h | h
    · right; gcongr; exact_mod_cast h
    · left; gcongr
  · left
    have hmant : (p.extract.mant : ℚ) ≤ 2 ^ (p.spec.m + 1) := by exact_mod_cast p.extract_mant_lt.le
    have hn' : ((2 ^ p.spec.m : ℕ) : ℚ) ≤ n := by exact_mod_cast hn (by omega)
    calc (p.extract.mant : ℚ) * 2 ^ (p.extract.exp - p.spec.m)
        ≤ 2 ^ (p.spec.m + 1) * 2 ^ (E - 1 - p.spec.m) := by
          gcongr
          · norm_num
          · omega
      _ = (2 ^ p.spec.m : ℕ) * 2 ^ (E - p.spec.m) := by
          rw [show E - p.spec.m = E - 1 - p.spec.m + (1 : ℕ) by push_cast; ring, two_zpow_add_natCast]
          push_cast
          ring
      _ ≤ n * 2 ^ (E - p.spec.m) := by gcongr

/-- Every finite magnitude lies below `2^(emax+1)`. -/
theorem finite_abs_val_lt {p : FloatOperand} (hl : p.spec.Legal) (hp : p.Finite) :
    |p.val| < 2 ^ (p.spec.emax + 1) := by
  obtain ⟨-, h2⟩ := FloatOperand.extract_exp_range hl hp
  have hmant : (p.extract.mant : ℚ) < 2 ^ (p.spec.m + 1) := by exact_mod_cast p.extract_mant_lt
  calc |p.val| = p.extract.mant * 2 ^ (p.extract.exp - p.spec.m) := FloatOperand.abs_val hp
    _ < 2 ^ (p.spec.m + 1) * 2 ^ (p.extract.exp - p.spec.m) := by gcongr
    _ ≤ 2 ^ (p.spec.m + 1) * 2 ^ (p.spec.emax - p.spec.m) := by gcongr; norm_num
    _ = 2 ^ (p.spec.emax + 1) := two_pow_succ_mul_unit ..

/-- No finite magnitude exceeds that of `MaxFinite` (R76). -/
theorem finite_abs_val_le_maxFinite (hl : f.Legal) (s : Bool) {p : FloatOperand} (hp : p.spec = f) (hpf : p.Finite) :
    |p.val| ≤ |(f.read (f.maxFinite s)).val| := by
  subst hp
  have hpos : 0 < 2 ^ p.spec.m := by positivity
  have hpow : 2 ^ (p.spec.m + 1) = 2 ^ p.spec.m + 2 ^ p.spec.m := by ring
  rw [(FloatSpec.read_maxFinite_shows hl s).abs_val]
  refine (finite_abs_val_grid hl hpf hl.emin_lt_emax.le fun _ => by omega).resolve_right (not_le.mpr ?_)
  refine (finite_abs_val_lt hl hpf).trans_eq ?_
  rw [← two_pow_succ_mul_unit _ p.spec.m]
  congr 1
  push_cast [Nat.cast_sub (Nat.one_le_two_pow (n := p.spec.m + 1))]
  ring

/-! ## The rounded mantissa -/

/-- The mantissa `RoundAssemble` keeps of a magnitude of `y` units: truncated, and incremented as the mode says. -/
def roundedMant (rm : FloatMode) (y : ℚ) : ℕ :=
  ⌊y⌋.toNat + (floatRoundUp rm (guardBit (Int.fract y)) (stickyBit (Int.fract y)) (lsbOf ⌊y⌋.toNat)).toNat

/-- What R210 says of the mantissa `t` that a nearest mode takes from a tie between `t` and `z` units. -/
def TieMant (rm : FloatMode) (t : ℕ) (z : ℚ) : Prop :=
  match rm with
  | .truncateTowardZero => True
  | .roundNearestEven => t % 2 = 0
  | .roundNearestAwayFromZero => z < t
  | .roundNearestOdd => t % 2 = 1

theorem roundedMant_truncate (y : ℚ) : roundedMant .truncateTowardZero y = ⌊y⌋.toNat := rfl

/-- The increment is at most one unit. -/
theorem roundedMant_range (rm : FloatMode) (y : ℚ) :
    ⌊y⌋.toNat ≤ roundedMant rm y ∧ roundedMant rm y ≤ ⌊y⌋.toNat + 1 := by
  have := Bool.toNat_le (floatRoundUp rm (guardBit (Int.fract y)) (stickyBit (Int.fract y)) (lsbOf ⌊y⌋.toNat))
  unfold roundedMant
  omega

theorem lsbOf_natCast (n : ℕ) : lsbOf n = decide (n % 2 = 1) := decide_eq_decide.mpr (by omega)

section
variable {n y z : ℚ} (hz : z ≤ n ∨ n + 1 ≤ z)
include hz

/-- In the lower half of the interval from `n` to `n + 1`, nothing outside it is nearer than `n`; only `n + 1` can be as
near, and only from the middle. -/
theorem lower_end_nearest (h0 : n ≤ y) (h : y ≤ n + 1 / 2) :
    |y - n| ≤ |y - z| ∧ (z ≠ n → |y - n| = |y - z| → y = n + 1 / 2 ∧ z = n + 1) := by
  rw [abs_of_nonneg (sub_nonneg.mpr h0)]
  rcases hz with hz | hz
  · rw [abs_of_nonneg (by linarith)]
    exact ⟨by linarith, fun hne he => absurd (by linarith) hne⟩
  · rw [abs_of_nonpos (by linarith)]
    exact ⟨by linarith, fun _ he => ⟨by linarith, by linarith⟩⟩

/-- In the upper half of the interval, the same of `n + 1`. -/
theorem upper_end_nearest (h1 : y ≤ n + 1) (h : n + 1 / 2 ≤ y) :
    |y - (n + 1)| ≤ |y - z| ∧ (z ≠ n + 1 → |y - (n + 1)| = |y - z| → y = n + 1 / 2 ∧ z = n) := by
  rw [abs_of_nonpos (sub_nonpos.mpr h1)]
  rcases hz with hz | hz
  · rw [abs_of_nonneg (by linarith)]
    exact ⟨by linarith, fun _ he => ⟨by linarith, by linarith⟩⟩
  · rw [abs_of_nonpos (by linarith)]
    exact ⟨by linarith, fun hne he => absurd (by linarith) hne⟩

end

section
variable {rm : FloatMode} {y : ℚ} (hy : 0 ≤ y)
include hy

/-- The floor of a magnitude brackets it, and its fraction is what is left. -/
theorem floor_toNat_bounds : (⌊y⌋.toNat : ℚ) ≤ y ∧ y < ⌊y⌋.toNat + 1 ∧ Int.fract y = y - ⌊y⌋.toNat := by
  have h : ((⌊y⌋.toNat : ℤ) : ℚ) = ⌊y⌋ := by rw [Int.toNat_of_nonneg (Int.floor_nonneg.mpr hy)]
  rw [Int.cast_natCast] at h
  rw [h]
  exact ⟨Int.floor_le y, Int.lt_floor_add_one y, rfl⟩

/-- Below a half no mode increments. -/
theorem roundedMant_of_lt (h : y < ⌊y⌋.toNat + 1 / 2) : roundedMant rm y = ⌊y⌋.toNat := by
  obtain ⟨-, -, hfr⟩ := floor_toNat_bounds hy
  have hg : guardBit (Int.fract y) = false := decide_eq_false (by rw [hfr]; linarith)
  rw [roundedMant, hg]
  cases rm <;> rfl

/-- Above a half every nearest mode increments. -/
theorem roundedMant_of_gt (hrm : rm ≠ .truncateTowardZero) (h : ⌊y⌋.toNat + 1 / 2 < y) :
    roundedMant rm y = ⌊y⌋.toNat + 1 := by
  obtain ⟨-, -, hfr⟩ := floor_toNat_bounds hy
  have hg : guardBit (Int.fract y) = true := decide_eq_true (by rw [hfr]; linarith)
  have hs : stickyBit (Int.fract y) = true := by
    simp only [stickyBit, Bool.and_eq_true, decide_eq_true_eq, hfr]
    constructor <;> intro h0 <;> linarith
  rw [roundedMant, hg, hs]
  cases rm with
  | truncateTowardZero => exact absurd rfl hrm
  | roundNearestEven | roundNearestAwayFromZero | roundNearestOdd => rfl

/-- At a half the mode decides by the low bit alone. -/
theorem roundedMant_of_tie (h : y = ⌊y⌋.toNat + 1 / 2) :
    roundedMant rm y = ⌊y⌋.toNat + (floatRoundUp rm true false (lsbOf ⌊y⌋.toNat)).toNat := by
  obtain ⟨-, -, hfr⟩ := floor_toNat_bounds hy
  have hhalf : Int.fract y = 1 / 2 := by rw [hfr]; linarith
  have hg : guardBit (1 / 2) = true := decide_eq_true le_rfl
  have hs : stickyBit (1 / 2) = false := by simp [stickyBit]
  rw [roundedMant, hhalf, hg, hs]

/-- At a half the mantissa kept and the one left obey the mode's rule for ties (R210). -/
theorem roundedMant_tieMant (h : y = ⌊y⌋.toNat + 1 / 2) :
    (roundedMant rm y = ⌊y⌋.toNat ∧ TieMant rm ⌊y⌋.toNat (⌊y⌋.toNat + 1)) ∨
    (roundedMant rm y = ⌊y⌋.toNat + 1 ∧ TieMant rm (⌊y⌋.toNat + 1) ⌊y⌋.toNat) := by
  rw [roundedMant_of_tie hy h]
  generalize ⌊y⌋.toNat = n
  cases rm with
  | truncateTowardZero => exact .inl ⟨rfl, trivial⟩
  | roundNearestAwayFromZero => exact .inr ⟨rfl, by simp [TieMant]⟩
  | roundNearestEven =>
    rcases Nat.mod_two_eq_zero_or_one n with hn | hn
    · exact .inl ⟨by simp [floatRoundUp, lsbOf_natCast, hn], hn⟩
    · exact .inr ⟨by simp [floatRoundUp, lsbOf_natCast, hn], show (n + 1) % 2 = 0 by omega⟩
  | roundNearestOdd =>
    rcases Nat.mod_two_eq_zero_or_one n with hn | hn
    · exact .inr ⟨by simp [floatRoundUp, lsbOf_natCast, hn], show (n + 1) % 2 = 1 by omega⟩
    · exact .inl ⟨by simp [floatRoundUp, lsbOf_natCast, hn], hn⟩

/-- No value on the far side of a unit interval is nearer to `y` than the multiple of a unit that a nearest mode keeps;
one as near is the other end of the interval, and the tie went as the mode says (R210). -/
theorem roundedMant_nearest (hrm : rm ≠ .truncateTowardZero) {z : ℚ} (hz : z ≤ ⌊y⌋.toNat ∨ ⌊y⌋.toNat + 1 ≤ z) :
    |y - roundedMant rm y| ≤ |y - z| ∧
      (z ≠ roundedMant rm y → |y - roundedMant rm y| = |y - z| → TieMant rm (roundedMant rm y) z) := by
  obtain ⟨h0, h1, -⟩ := floor_toNat_bounds hy
  rcases lt_trichotomy y (⌊y⌋.toNat + 1 / 2) with h | h | h
  · obtain ⟨hle, htie⟩ := lower_end_nearest hz h0 h.le
    rw [roundedMant_of_lt hy h]
    exact ⟨hle, fun hne he => absurd (htie hne he).1 h.ne⟩
  · rcases roundedMant_tieMant (rm := rm) hy h with ⟨ht, hrule⟩ | ⟨ht, hrule⟩
    · obtain ⟨hle, htie⟩ := lower_end_nearest hz h0 h.le
      rw [ht]
      exact ⟨hle, fun hne he => by rw [(htie hne he).2]; exact hrule⟩
    · obtain ⟨hle, htie⟩ := upper_end_nearest hz h1.le h.ge
      rw [ht, Nat.cast_succ]
      exact ⟨hle, fun hne he => by rw [(htie hne he).2]; exact hrule⟩
  · obtain ⟨hle, htie⟩ := upper_end_nearest hz h1.le h.le
    rw [roundedMant_of_gt hy hrm h, Nat.cast_succ]
    exact ⟨hle, fun hne he => absurd (htie hne he).1 h.ne'⟩

/-- A nearest mode passes an odd mantissa `n` from the middle above it on, the middle included unless the mode takes a
tie to the odd mantissa (R210). -/
theorem lt_roundedMant_iff (hrm : rm ≠ .truncateTowardZero) {n : ℕ} (hn : n % 2 = 1) :
    n < roundedMant rm y ↔ (n : ℚ) + 1 / 2 < y ∨ y = n + 1 / 2 ∧ rm ≠ .roundNearestOdd := by
  obtain ⟨h0, h1, -⟩ := floor_toNat_bounds hy
  obtain ⟨r0, r1⟩ := roundedMant_range rm y
  rcases lt_trichotomy ⌊y⌋.toNat n with h | h | h
  · have hle : (⌊y⌋.toNat : ℚ) + 1 ≤ n := by exact_mod_cast h
    refine iff_of_false (by omega) ?_
    rintro (h | ⟨h, -⟩) <;> linarith
  · subst h
    rcases lt_trichotomy y (⌊y⌋.toNat + 1 / 2) with h | h | h
    · rw [roundedMant_of_lt hy h]
      refine iff_of_false (lt_irrefl _) ?_
      rintro (h' | ⟨h', -⟩) <;> linarith
    · rw [roundedMant_of_tie hy h]
      have hlsb : lsbOf ⌊y⌋.toNat = true := decide_eq_true (by omega)
      rw [hlsb]
      have hirr : ¬ (⌊y⌋.toNat : ℚ) + 1 / 2 < y := by linarith
      rw [or_iff_right hirr, and_iff_right h]
      cases rm with
      | truncateTowardZero => exact absurd rfl hrm
      | roundNearestEven | roundNearestAwayFromZero | roundNearestOdd => simp [floatRoundUp]
    · rw [roundedMant_of_gt hy hrm h]
      exact iff_of_true (Nat.lt_succ_self _) (.inl h)
  · have hle : (n : ℚ) + 1 ≤ ⌊y⌋.toNat := by exact_mod_cast h
    exact iff_of_true (by omega) (.inl (by linarith))

end

/-! ## Placing the rounded mantissa -/

/-- What R212 stores for a magnitude above `MaxFinite`. -/
def FloatSpec.overflowed (f : FloatSpec) (rm : FloatMode) (s : Bool) : Bits :=
  if rm = .truncateTowardZero then f.maxFinite s else f.inf s

/-- The pattern stored, before any flush, for the rounded mantissa `t` at the exponent `E` (R211 to R214). -/
def FloatSpec.place (f : FloatSpec) (rm : FloatMode) (s : Bool) (E : ℤ) (t : ℕ) : Bits :=
  if t < 2 ^ f.m then f.pack s 0 t
  else if t = 2 ^ (f.m + 1) then
    if f.emax < E + 1 then f.overflowed rm s else f.pack s (E + 1 + f.bias).toNat 0
  else if f.emax < E then f.overflowed rm s else f.pack s (E + f.bias).toNat (t - 2 ^ f.m)

/-- The end of `RoundAssemble` is a flush or the placing of the incremented mantissa (R210 to R215). -/
theorem assemble_eq_place (cfg : Config) (f : FloatSpec) (rm : FloatMode) (nosub s : Bool) (e : ℤ) (t0 : ℕ)
    (g st : Bool) :
    assemble cfg f rm nosub s e t0 g st =
      if nosub = true ∧ (cfg.ftzRule = .beforeRounding ∧ e < f.emin ∨
          t0 + (floatRoundUp rm g st (lsbOf t0)).toNat < 2 ^ f.m) then f.zero s
      else f.place rm s (max e f.emin) (t0 + (floatRoundUp rm g st (lsbOf t0)).toNat) := by
  unfold assemble FloatSpec.place FloatSpec.overflowed
  have hpow : 2 ^ (f.m + 1) = 2 ^ f.m + 2 ^ f.m := by ring
  have hpos : 0 < 2 ^ f.m := by positivity
  simp only
  generalize t0 + (floatRoundUp rm g st (lsbOf t0)).toNat = t
  by_cases hc : t = 2 ^ (f.m + 1)
  · have hlt : ¬ 2 ^ (f.m + 1) < 2 ^ f.m := by omega
    simp [hc, hlt, and_assoc]
  · by_cases hlt : t < 2 ^ f.m
    · cases nosub <;> simp [hc, hlt]
    · simp [hc, hlt, and_assoc, not_lt.mp hlt]

/-- The rounded magnitude is the value of the pattern stored, or it exceeds every finite one and overflows. -/
theorem FloatSpec.place_spec (hl : f.Legal) (rm : FloatMode) (s : Bool) {E : ℤ} {t : ℕ} (hE : f.emin ≤ E)
    (ht : f.emin < E → 2 ^ f.m ≤ t) (ht' : t ≤ 2 ^ (f.m + 1)) :
    ((t : ℚ) * 2 ^ (E - f.m) < 2 ^ (f.emax + 1) → (f.read (f.place rm s E t)).Shows s t (E - f.m)) ∧
    ((2 : ℚ) ^ (f.emax + 1) ≤ t * 2 ^ (E - f.m) → f.place rm s E t = f.overflowed rm s) := by
  have hlim := hl.emin_lt_emax
  unfold FloatSpec.place
  split_ifs with hsub hcarry hover hover
  · have hEmin : E = f.emin := by
      by_contra hne
      exact absurd (ht (by omega)) (by omega)
    subst hEmin
    refine ⟨fun _ => f.read_pack_subnormal hl s hsub, fun h => absurd h (not_le.mpr ?_)⟩
    calc (t : ℚ) * 2 ^ (f.emin - f.m) ≤ 2 ^ f.m * 2 ^ (f.emin - f.m) := by gcongr; exact_mod_cast hsub.le
      _ = 2 ^ f.emin := two_pow_mul_unit ..
      _ < 2 ^ (f.emax + 1) := two_zpow_lt_iff.mpr (by omega)
  · subst hcarry
    refine ⟨fun h => absurd h (not_lt.mpr ?_), fun _ => rfl⟩
    push_cast
    rw [two_pow_succ_mul_unit, two_zpow_le_iff]
    omega
  · subst hcarry
    refine ⟨fun _ => ?_, fun h => absurd h (not_le.mpr ?_)⟩
    · have hr := f.read_pack_normal hl s (t := 2 ^ f.m) le_rfl (Nat.pow_lt_pow_right (by norm_num) (by omega))
        (show f.emin ≤ E + 1 by omega) (by omega)
      rw [Nat.sub_self] at hr
      refine ⟨hr.sign, hr.finite, ?_, ?_⟩
      · rw [hr.abs_val]
        push_cast
        rw [two_pow_mul_unit, two_pow_succ_mul_unit]
      · have := hl.two_dvd_two_pow_m
        rw [hr.parity, pow_succ]
        omega
    · push_cast
      rw [two_pow_succ_mul_unit, two_zpow_lt_iff]
      omega
  · refine ⟨fun h => absurd h (not_lt.mpr ?_), fun _ => rfl⟩
    calc (2 : ℚ) ^ (f.emax + 1) ≤ 2 ^ E := two_zpow_le_iff.mpr (by omega)
      _ = 2 ^ f.m * 2 ^ (E - f.m) := (two_pow_mul_unit ..).symm
      _ ≤ t * 2 ^ (E - f.m) := by gcongr; exact_mod_cast not_lt.mp hsub
  · have htlt : t < 2 ^ (f.m + 1) := lt_of_le_of_ne ht' hcarry
    refine ⟨fun _ => f.read_pack_normal hl s (not_lt.mp hsub) htlt hE (not_lt.mp hover),
      fun h => absurd h (not_le.mpr ?_)⟩
    calc (t : ℚ) * 2 ^ (E - f.m) < 2 ^ (f.m + 1) * 2 ^ (E - f.m) := by gcongr; exact_mod_cast htlt
      _ = 2 ^ (E + 1) := two_pow_succ_mul_unit ..
      _ ≤ 2 ^ (f.emax + 1) := two_zpow_le_iff.mpr (by omega)

/-- A pattern with an exponent field other than 0 is no Subnormal (R74). -/
theorem FloatSpec.read_pack_cls_ne_subnormal (hl : f.Legal) (s : Bool) {ef mf : ℕ} (h0 : ef ≠ 0) (he : ef < 2 ^ f.e)
    (hm : mf < 2 ^ f.m) : (f.read (f.pack s ef mf)).cls ≠ .subnormal := fun h =>
  h0 ((f.read_pack hl he hm).2.1.symm.trans (FloatOperand.cls_eq_subnormal_iff.mp h).1)

theorem FloatSpec.read_overflowed_cls_ne_subnormal (hl : f.Legal) (rm : FloatMode) (s : Bool) :
    (f.read (f.overflowed rm s)).cls ≠ .subnormal := by
  obtain ⟨hmin, hmax, hfield, hlim⟩ := hl.exponents
  have hpos : 0 < 2 ^ f.m := by positivity
  unfold FloatSpec.overflowed
  split
  · exact read_pack_cls_ne_subnormal hl s (by omega) (by omega) (by omega)
  · exact read_pack_cls_ne_subnormal hl s (by omega) (by omega) (by omega)

/-- The pattern stored is a Subnormal iff its mantissa is below `2^M` and not 0 (R74). -/
theorem FloatSpec.read_place_subnormal_iff (hl : f.Legal) (rm : FloatMode) (s : Bool) {E : ℤ} {t : ℕ}
    (hE : f.emin ≤ E) (ht : t ≤ 2 ^ (f.m + 1)) :
    (f.read (f.place rm s E t)).cls = .subnormal ↔ t < 2 ^ f.m ∧ t ≠ 0 := by
  obtain ⟨hmin, hmax, hfield, hlim⟩ := hl.exponents
  have hpow : 2 ^ (f.m + 1) = 2 ^ f.m + 2 ^ f.m := by ring
  unfold FloatSpec.place
  split_ifs with hsub hcarry hover hover
  · obtain ⟨-, he, hm⟩ := f.read_pack hl (s := s) (ef := 0) (by positivity) hsub
    rw [FloatOperand.cls_eq_subnormal_iff, he, hm]
    simp [hsub]
  · exact iff_of_false (read_overflowed_cls_ne_subnormal hl rm s) (fun h => hsub h.1)
  · exact iff_of_false (read_pack_cls_ne_subnormal hl s (by omega) (by omega) (by positivity)) (fun h => hsub h.1)
  · exact iff_of_false (read_overflowed_cls_ne_subnormal hl rm s) (fun h => hsub h.1)
  · exact iff_of_false (read_pack_cls_ne_subnormal hl s (by omega) (by omega) (by omega)) (fun h => hsub h.1)

/-! ## Rounding a magnitude -/

/-- The exponent under which a magnitude is rounded (R214). -/
def FloatSpec.expOf (f : FloatSpec) (x : ℚ) : ℤ := max (ilog2 x) f.emin

/-- A magnitude in units of the last mantissa bit of its exponent (R214). -/
def FloatSpec.units (f : FloatSpec) (x : ℚ) : ℚ := x / 2 ^ (f.expOf x - f.m)

/-- `RoundAssemble` of a magnitude other than 0 (R214, R215). -/
theorem roundAssemble_eq_place (cfg : Config) (f : FloatSpec) (rm : FloatMode) (nosub s : Bool) {x : ℚ}
    (hx : x ≠ 0) :
    roundAssemble cfg f rm nosub s x =
      if nosub = true ∧ (cfg.ftzRule = .beforeRounding ∧ ilog2 x < f.emin ∨ roundedMant rm (f.units x) < 2 ^ f.m)
      then f.zero s
      else f.place rm s (f.expOf x) (roundedMant rm (f.units x)) := by
  rw [roundAssemble_of_ne_zero cfg f rm nosub s hx, assemble_eq_place]
  rfl

/-- A magnitude lies below a power of two iff its exponent does (R12). -/
theorem lt_two_zpow_iff_ilog2_lt {x : ℚ} (hx : 0 < x) (n : ℤ) : x < 2 ^ n ↔ ilog2 x < n := by
  obtain ⟨h1, h2⟩ := ilog2_spec hx
  exact ⟨fun h => two_zpow_lt_iff.mp (h1.trans_lt h), fun h => h2.trans_le (two_zpow_le_iff.mpr h)⟩

theorem FloatSpec.units_mul (f : FloatSpec) (x : ℚ) : f.units x * 2 ^ (f.expOf x - f.m) = x :=
  div_mul_cancel₀ _ (by positivity)

theorem FloatSpec.emin_le_ilog2_of_lt_expOf {x : ℚ} (h : f.emin < f.expOf x) : f.emin ≤ ilog2 x := by
  unfold FloatSpec.expOf at h
  omega

/-- The tie above `MaxFinite` lies between the last two powers of two (R214). -/
theorem FloatSpec.overflowTie_range (f : FloatSpec) :
    (2 : ℚ) ^ f.emax < f.overflowTie ∧ f.overflowTie < 2 ^ (f.emax + 1) := by
  have hm : (1 : ℚ) ≤ 2 ^ f.m := one_le_pow₀ (by norm_num)
  have hpow : (2 : ℚ) ^ (f.m + 1) = 2 ^ f.m + 2 ^ f.m := by ring
  unfold FloatSpec.overflowTie
  rw [← two_pow_succ_mul_unit f.emax f.m, ← two_pow_mul_unit f.emax f.m]
  constructor <;> (gcongr; linarith)

section
variable {x : ℚ} (hx : 0 < x)
include hx

/-! The units of a positive magnitude fill the mantissa above the least exponent, and never overfill it. -/

theorem FloatSpec.units_nonneg : 0 ≤ f.units x := div_nonneg hx.le (by positivity)

theorem FloatSpec.units_lt : f.units x < 2 ^ (f.m + 1) := by
  rw [FloatSpec.units, div_lt_iff₀ (by positivity), two_pow_succ_mul_unit, lt_two_zpow_iff_ilog2_lt hx,
    FloatSpec.expOf]
  omega

theorem FloatSpec.le_units (h : f.emin ≤ ilog2 x) : 2 ^ f.m ≤ f.units x := by
  rw [FloatSpec.units, le_div_iff₀ (by positivity), two_pow_mul_unit, FloatSpec.expOf, max_eq_left h]
  exact (ilog2_spec hx).1

/-- The truncated mantissa has at most `M + 1` bits. -/
theorem FloatSpec.floor_units_lt : ⌊f.units x⌋.toNat < 2 ^ (f.m + 1) := by
  have h := (floor_toNat_bounds (f.units_nonneg hx)).1.trans_lt (f.units_lt hx)
  exact_mod_cast h

/-- Above the least exponent the truncated mantissa has its leading bit. -/
theorem FloatSpec.le_floor_units (h : f.emin ≤ ilog2 x) : 2 ^ f.m ≤ ⌊f.units x⌋.toNat := by
  have h := (f.le_units hx h).trans_lt (floor_toNat_bounds (f.units_nonneg hx)).2.1
  exact Nat.lt_succ_iff.mp (by exact_mod_cast h)

theorem FloatSpec.roundedMant_units_le (rm : FloatMode) : roundedMant rm (f.units x) ≤ 2 ^ (f.m + 1) :=
  (roundedMant_range rm _).2.trans (f.floor_units_lt hx)

theorem FloatSpec.le_roundedMant_units (rm : FloatMode) (h : f.emin ≤ ilog2 x) :
    2 ^ f.m ≤ roundedMant rm (f.units x) :=
  (f.le_floor_units hx h).trans (roundedMant_range rm _).1

/-- At the largest exponent the tie above `MaxFinite` is the middle between the last mantissa, which is odd, and the
carry out of it (R210, R212). -/
theorem FloatSpec.overflows_iff_of_expOf {rm : FloatMode} (hrm : rm ≠ .truncateTowardZero) (hE : f.expOf x = f.emax) :
    f.Overflows rm x ↔ (2 : ℚ) ^ (f.emax + 1) ≤ roundedMant rm (f.units x) * 2 ^ (f.expOf x - f.m) := by
  have hq : (0 : ℚ) < 2 ^ (f.emax - f.m) := by positivity
  have hpos : 0 < 2 ^ f.m := by positivity
  obtain ⟨n, hn⟩ : ∃ n, 2 ^ (f.m + 1) = n + 1 := ⟨2 ^ (f.m + 1) - 1, by omega⟩
  have hodd : n % 2 = 1 := by rw [pow_succ] at hn; omega
  have hn' : (2 : ℚ) ^ (f.m + 1) = n + 1 := by exact_mod_cast hn
  have hx' : x = f.units x * 2 ^ (f.emax - f.m) := by rw [← hE, f.units_mul]
  have htie : f.overflowTie = (n + 1 / 2) * 2 ^ (f.emax - f.m) := by
    rw [FloatSpec.overflowTie, hn']
    ring
  have hlt : f.overflowTie < x ↔ (n : ℚ) + 1 / 2 < f.units x := by
    rw [htie]
    conv_lhs => rw [hx']
    exact mul_lt_mul_iff_left₀ hq
  have heq : x = f.overflowTie ↔ f.units x = n + 1 / 2 := by
    rw [htie]
    conv_lhs => rw [hx']
    exact mul_left_inj' hq.ne'
  rw [FloatSpec.Overflows, hlt, heq, ← lt_roundedMant_iff (f.units_nonneg hx) hrm hodd, hE,
    ← two_pow_succ_mul_unit f.emax f.m, mul_le_mul_iff_left₀ hq, hn']
  norm_cast

/-- The overflow of a nearest mode is that of the rounded magnitude (R212). -/
theorem FloatSpec.overflows_iff (hl : f.Legal) {rm : FloatMode} (hrm : rm ≠ .truncateTowardZero) :
    f.Overflows rm x ↔ (2 : ℚ) ^ (f.emax + 1) ≤ roundedMant rm (f.units x) * 2 ^ (f.expOf x - f.m) := by
  obtain ⟨htie, htie'⟩ := f.overflowTie_range
  have hlim := hl.emin_lt_emax
  obtain ⟨hlog, -⟩ := ilog2_spec hx
  rcases lt_trichotomy (ilog2 x) f.emax with h | h | h
  · have hxlt := (lt_two_zpow_iff_ilog2_lt hx f.emax).mpr h
    refine iff_of_false ?_ (not_le.mpr ?_)
    · rintro (h' | ⟨h', -⟩) <;> linarith
    · calc (roundedMant rm (f.units x) : ℚ) * 2 ^ (f.expOf x - f.m)
          ≤ 2 ^ (f.m + 1) * 2 ^ (f.expOf x - f.m) := by gcongr; exact_mod_cast f.roundedMant_units_le hx rm
        _ = 2 ^ (f.expOf x + 1) := two_pow_succ_mul_unit ..
        _ < 2 ^ (f.emax + 1) := two_zpow_lt_iff.mpr (by unfold FloatSpec.expOf; omega)
  · exact f.overflows_iff_of_expOf hx hrm (by unfold FloatSpec.expOf; omega)
  · refine iff_of_true (.inl ?_) ?_
    · calc f.overflowTie < 2 ^ (f.emax + 1) := htie'
        _ ≤ 2 ^ ilog2 x := two_zpow_le_iff.mpr (by omega)
        _ ≤ x := hlog
    · calc (2 : ℚ) ^ (f.emax + 1) ≤ 2 ^ f.expOf x := two_zpow_le_iff.mpr (by unfold FloatSpec.expOf; omega)
        _ = 2 ^ f.m * 2 ^ (f.expOf x - f.m) := (two_pow_mul_unit ..).symm
        _ ≤ roundedMant rm (f.units x) * 2 ^ (f.expOf x - f.m) := by
          gcongr
          exact_mod_cast f.le_roundedMant_units hx rm (by omega)

end

/-- A positive magnitude is rounded to the pattern of its rounded mantissa, or overflows (R212, R214). -/
theorem roundAssemble_spec (cfg : Config) (hl : f.Legal) (rm : FloatMode) (s : Bool) {x : ℚ} (hx : 0 < x) :
    ((roundedMant rm (f.units x) : ℚ) * 2 ^ (f.expOf x - f.m) < 2 ^ (f.emax + 1) →
      (f.read (roundAssemble cfg f rm false s x)).Shows s (roundedMant rm (f.units x)) (f.expOf x - f.m)) ∧
    ((2 : ℚ) ^ (f.emax + 1) ≤ roundedMant rm (f.units x) * 2 ^ (f.expOf x - f.m) →
      roundAssemble cfg f rm false s x = f.overflowed rm s) := by
  rw [roundAssemble_eq_place cfg f rm false s hx.ne', if_neg (by simp)]
  exact f.place_spec hl rm s (le_max_right _ _)
    (fun h => f.le_roundedMant_units hx rm (f.emin_le_ilog2_of_lt_expOf h)) (f.roundedMant_units_le hx rm)

section
variable {cfg : Config} {s : Bool} {tiny : Prop} [Decidable tiny] {u : Bits}

theorem flushOutput_afterRounding (h : cfg.ftzRule = .afterRounding) :
    flushOutput cfg f true s tiny u = if (f.read u).cls = .subnormal then f.zero s else u := by
  simp [flushOutput, h]

theorem flushOutput_beforeRounding (h : cfg.ftzRule = .beforeRounding) :
    flushOutput cfg f true s tiny u = if tiny then f.zero s else u := by
  simp [flushOutput, h]

end

/-- Without `NOSUB` nothing is flushed. -/
theorem roundAssemble_false (cfg : Config) (f : FloatSpec) (rm : FloatMode) (s : Bool) {x : ℚ} (hx : x ≠ 0) :
    roundAssemble cfg f rm false s x = f.place rm s (f.expOf x) (roundedMant rm (f.units x)) := by
  rw [roundAssemble_eq_place cfg f rm false s hx, if_neg (fun h => Bool.false_ne_true h.1)]

/-- `NOSUB` flushes the unflushed result of a positive magnitude, as `FTZ_RULE` says (R215). -/
theorem roundAssemble_nosub_of_pos (cfg : Config) (hl : f.Legal) (rm : FloatMode) (s : Bool) {x : ℚ} (hx : 0 < x) :
    roundAssemble cfg f rm true s x =
      flushOutput cfg f true s (x < 2 ^ f.emin) (roundAssemble cfg f rm false s x) := by
  have htiny := lt_two_zpow_iff_ilog2_lt hx f.emin
  have hsub := f.read_place_subnormal_iff hl rm s (le_max_right (ilog2 x) f.emin) (f.roundedMant_units_le hx rm)
  rw [roundAssemble_eq_place cfg f rm true s hx.ne', roundAssemble_false cfg f rm s hx.ne']
  cases hftz : cfg.ftzRule with
  | afterRounding =>
    rw [flushOutput_afterRounding hftz]
    by_cases h0 : roundedMant rm (f.units x) = 0
    · have hz : f.place rm s (f.expOf x) 0 = f.zero s := if_pos (by positivity)
      rw [h0, hz, ite_self, ite_self]
    · refine if_congr ?_ rfl rfl
      rw [FloatSpec.expOf, hsub]
      simp [h0]
  | beforeRounding =>
    rw [flushOutput_beforeRounding hftz]
    refine if_congr ?_ rfl rfl
    rw [htiny]
    refine ⟨fun ⟨_, h⟩ => h.elim And.right fun hlt => ?_, fun h => ⟨rfl, .inl ⟨rfl, h⟩⟩⟩
    by_contra hge
    exact absurd (f.le_roundedMant_units hx rm (not_lt.mp hge)) (not_le.mpr hlt)

/-! ## The rounding is nearest -/

/-- The rule for a tie between mantissas is the one between the patterns that show them (R210). -/
theorem FloatOperand.Shows.tieRule {r p : FloatOperand} {rm : FloatMode} {s : Bool} {t : ℕ} {q : ℤ} {z : ℚ}
    (hr : r.Shows s t q) (hp : |p.val| = z * 2 ^ q) (h : TieMant rm t z) : TieRule rm r p := by
  cases rm with
  | truncateTowardZero => trivial
  | roundNearestEven => exact hr.parity.trans h
  | roundNearestAwayFromZero =>
    have hlt : z < t := h
    show |p.val| < |r.val|
    rw [hp, hr.abs_val]
    gcongr
  | roundNearestOdd => exact hr.parity.trans h

/-- A finite magnitude, in the units of `x`, does not lie inside the unit interval that `x` lies in. -/
theorem finite_abs_val_units {x : ℚ} (hx : 0 < x) (hl : f.Legal) {p : FloatOperand} (hp : p.spec = f)
    (hpf : p.Finite) :
    ∃ z : ℚ, |p.val| = z * 2 ^ (f.expOf x - f.m) ∧
      (z ≤ ⌊f.units x⌋.toNat ∨ ⌊f.units x⌋.toNat + 1 ≤ z) := by
  subst hp
  have hq : (0 : ℚ) < 2 ^ (p.spec.expOf x - p.spec.m) := by positivity
  refine ⟨|p.val| / 2 ^ (p.spec.expOf x - p.spec.m), (div_mul_cancel₀ _ hq.ne').symm, ?_⟩
  rw [div_le_iff₀ hq, le_div_iff₀ hq]
  exact finite_abs_val_grid hl hpf (le_max_right _ _)
    fun h => p.spec.le_floor_units hx (p.spec.emin_le_ilog2_of_lt_expOf h)

/-- Under a nearest mode the pattern of the rounded mantissa is nearest, and a tie goes as the mode says (R210). -/
theorem nearest_of_shows (hl : f.Legal) {rm : FloatMode} (hrm : rm ≠ .truncateTowardZero) {s : Bool} {x : ℚ}
    {r : FloatOperand} (hx : 0 < x) (hr : r.Shows s (roundedMant rm (f.units x)) (f.expOf x - f.m))
    {p : FloatOperand} (hp : p.spec = f) (hpf : p.Finite) :
    |(x - |r.val|)| ≤ |(x - |p.val|)| ∧
      (|p.val| ≠ |r.val| → |(x - |r.val|)| = |(x - |p.val|)| → TieRule rm r p) := by
  have hq : (0 : ℚ) < 2 ^ (f.expOf x - f.m) := by positivity
  obtain ⟨z, hz, hside⟩ := finite_abs_val_units hx hl hp hpf
  obtain ⟨hle, htie⟩ := roundedMant_nearest (f.units_nonneg hx) hrm hside
  have hdist : ∀ c : ℚ, |x - c * 2 ^ (f.expOf x - f.m)| = |f.units x - c| * 2 ^ (f.expOf x - f.m) := by
    intro c
    have hfactor : x - c * 2 ^ (f.expOf x - f.m) = (f.units x - c) * 2 ^ (f.expOf x - f.m) := by
      rw [sub_mul, f.units_mul]
    rw [hfactor, abs_mul, abs_of_pos hq]
  rw [hr.abs_val, hz, hdist, hdist]
  refine ⟨by gcongr, fun hne heq => hr.tieRule hz (htie ?_ (mul_right_cancel₀ hq.ne' heq))⟩
  rintro rfl
  exact hne rfl

/-- Under TruncateTowardZero the pattern of the rounded mantissa is the largest not above the magnitude (R217 (d)). -/
theorem largest_of_shows (hl : f.Legal) {s : Bool} {x : ℚ} {r : FloatOperand} (hx : 0 < x)
    (hr : r.Shows s (roundedMant .truncateTowardZero (f.units x)) (f.expOf x - f.m)) :
    |r.val| ≤ x ∧ ∀ p : FloatOperand, p.spec = f → p.Finite → |p.val| ≤ x → |p.val| ≤ |r.val| := by
  have hq : (0 : ℚ) < 2 ^ (f.expOf x - f.m) := by positivity
  obtain ⟨hfl, hfl', -⟩ := floor_toNat_bounds (f.units_nonneg hx)
  rw [hr.abs_val, roundedMant_truncate]
  refine ⟨?_, fun p hp hpf hle => ?_⟩
  · exact (mul_le_mul_of_nonneg_right hfl hq.le).trans_eq (f.units_mul x)
  · obtain ⟨z, hz, hside⟩ := finite_abs_val_units hx hl hp hpf
    rw [hz]
    rcases hside with h | h
    · gcongr
    · rw [hz] at hle
      have := le_of_mul_le_mul_right (hle.trans_eq (f.units_mul x).symm) hq
      linarith

/-- The table of R84. -/
theorem floatModeOf_table :
    floatModeOf 3#3 = some .roundNearestAwayFromZero ∧ floatModeOf 4#3 = some .roundNearestEven ∧
    floatModeOf 5#3 = some .roundNearestOdd ∧ floatModeOf 6#3 = some .truncateTowardZero ∧
    floatModeOf 0#3 = none ∧ floatModeOf 1#3 = none ∧ floatModeOf 2#3 = none ∧ floatModeOf 7#3 = none := by
  decide

section
variable (cfg : Config) (hl : f.Legal) (rm : FloatMode) (s : Bool) {x : ℚ}
include hl

/-- The result has the sign handed in. -/
theorem roundAssemble_sign (hx : 0 ≤ x) : (f.read (roundAssemble cfg f rm false s x)).sign = s := by
  rcases hx.eq_or_lt with rfl | hx
  · rw [roundAssemble_zero]
    exact (f.read_zero_shows hl s).sign
  · obtain ⟨hfin, hover⟩ := roundAssemble_spec cfg hl rm s hx
    rcases lt_or_ge ((roundedMant rm (f.units x) : ℚ) * 2 ^ (f.expOf x - f.m)) (2 ^ (f.emax + 1)) with h | h
    · exact (hfin h).sign
    · rw [hover h, FloatSpec.overflowed]
      split
      · exact (f.read_maxFinite_shows hl s).sign
      · exact f.read_inf_sign hl s

/-- TruncateTowardZero gives the largest representable magnitude not above `x`, `MaxFinite` on overflow (R212,
R217 (d)). -/
theorem roundAssemble_truncate (hx : 0 ≤ x) :
    (f.read (roundAssemble cfg f .truncateTowardZero false s x)).Finite ∧
    |(f.read (roundAssemble cfg f .truncateTowardZero false s x)).val| ≤ x ∧
    ∀ p : FloatOperand, p.spec = f → p.Finite → |p.val| ≤ x →
      |p.val| ≤ |(f.read (roundAssemble cfg f .truncateTowardZero false s x)).val| := by
  rcases hx.eq_or_lt with rfl | hx
  · rw [roundAssemble_zero]
    have hz := f.read_zero_shows hl s
    have hval : |(f.read (f.zero s)).val| = 0 := by rw [hz.abs_val, Nat.cast_zero, zero_mul]
    rw [hval]
    exact ⟨hz.finite, le_rfl, fun _ _ _ h => h⟩
  · obtain ⟨hfin, hover⟩ := roundAssemble_spec cfg hl .truncateTowardZero s hx
    rcases lt_or_ge ((roundedMant .truncateTowardZero (f.units x) : ℚ) * 2 ^ (f.expOf x - f.m)) (2 ^ (f.emax + 1))
      with h | h
    · exact ⟨(hfin h).finite, largest_of_shows hl hx (hfin h)⟩
    · have hmax := f.read_maxFinite_shows hl s
      have hle : (2 : ℚ) ^ (f.emax + 1) ≤ x := by
        refine h.trans ((mul_le_mul_of_nonneg_right ?_ (by positivity)).trans_eq (f.units_mul x))
        exact (floor_toNat_bounds (f.units_nonneg hx)).1
      rw [hover h, FloatSpec.overflowed, if_pos rfl]
      exact ⟨hmax.finite, (finite_abs_val_lt (p := f.read _) hl hmax.finite).le.trans hle,
        fun p hp hpf _ => finite_abs_val_le_maxFinite hl s hp hpf⟩

/-- `NOSUB` flushes the unflushed result (R215). -/
theorem roundAssemble_nosub (hx : 0 ≤ x) :
    roundAssemble cfg f rm true s x =
      flushOutput cfg f true s (x < 2 ^ f.emin) (roundAssemble cfg f rm false s x) := by
  rcases hx.eq_or_lt with rfl | hx
  · rw [roundAssemble_zero, roundAssemble_zero, flushOutput, ite_self]
  · exact roundAssemble_nosub_of_pos cfg hl rm s hx

variable (hrm : rm ≠ .truncateTowardZero)
include hrm

/-- A nearest mode gives an Infinity on overflow (R212). -/
theorem roundAssemble_overflow (ho : f.Overflows rm x) : roundAssemble cfg f rm false s x = f.inf s := by
  have hpos : 0 < x := by
    have htie : 0 < f.overflowTie := (by positivity : (0 : ℚ) < 2 ^ f.emax).trans f.overflowTie_range.1
    rcases ho with h | ⟨h, -⟩ <;> linarith
  rw [(roundAssemble_spec cfg hl rm s hpos).2 ((f.overflows_iff hpos hl hrm).mp ho), FloatSpec.overflowed, if_neg hrm]

/-- A nearest mode otherwise gives a nearest representable value, and ties go as it says (R210). -/
theorem roundAssemble_nearest (hx : 0 ≤ x) (hno : ¬ f.Overflows rm x) :
    (f.read (roundAssemble cfg f rm false s x)).Finite ∧ ∀ p : FloatOperand, p.spec = f → p.Finite →
      |(x - |(f.read (roundAssemble cfg f rm false s x)).val|)| ≤ |(x - |p.val|)| ∧
        (|p.val| ≠ |(f.read (roundAssemble cfg f rm false s x)).val| →
          |(x - |(f.read (roundAssemble cfg f rm false s x)).val|)| = |(x - |p.val|)| →
          TieRule rm (f.read (roundAssemble cfg f rm false s x)) p) := by
  rcases hx.eq_or_lt with rfl | hx
  · rw [roundAssemble_zero]
    have hz := f.read_zero_shows hl s
    have hval : |(f.read (f.zero s)).val| = 0 := by rw [hz.abs_val, Nat.cast_zero, zero_mul]
    refine ⟨hz.finite, fun p _ _ => ?_⟩
    rw [hval, sub_zero, abs_zero, zero_sub, abs_neg, abs_abs]
    exact ⟨abs_nonneg _, fun hne he => absurd he.symm hne⟩
  · have hshows := (roundAssemble_spec cfg hl rm s hx).1 (not_le.mp (mt (f.overflows_iff hx hl hrm).mpr hno))
    exact ⟨hshows.finite, fun p hp hpf => nearest_of_shows hl hrm hx hshows hp hpf⟩

end

/-- Settles O44: the mantissa kept is nearest among the multiples of a unit, every finite magnitude is such a multiple
or lies further off, and the pattern stored shows the mantissa kept unless it overflows. -/
theorem roundAssembleIsNearest : Obligations.RoundAssembleIsNearest := by
  refine ⟨floatModeOf_table, fun cfg f rm s x hl hx => ⟨roundAssemble_sign cfg hl rm s hx, ?_, fun hrm => ?_, ?_⟩⟩
  · rintro rfl
    exact roundAssemble_truncate cfg hl s hx
  · exact ⟨roundAssemble_overflow cfg hl rm s hrm, roundAssemble_nearest cfg hl rm s hrm hx⟩
  · exact roundAssemble_nosub cfg hl rm s hx

end Sys2Proof.Machine
end

section
/-! PROOFS. The fixed-point rounder: what the increment decision turns on, what each mode makes of a number of quanta,
and that rounding keeps order. -/

namespace Sys2Proof.Machine

/-! ## Rounding a number of quanta (R115, R117) -/

/-- Whether the rounder adds a quantum to the floor of a value of `y` quanta. -/
def increments (literal : Bool) (m : FixedMode) (y : ℚ) : Bool :=
  roundUp literal m (guardBit (Int.fract y)) (stickyBit (Int.fract y)) (⌊y⌋ < 0) (lsbOf ⌊y⌋)

/-- The integer the rounder makes of a value of `y` quanta. -/
def roundUnits (literal : Bool) (m : FixedMode) (y : ℚ) : ℤ := ⌊y⌋ + (increments literal m y).toNat

/-- A quantum is positive, so a value has the sign of its number of quanta, which is that of the floor. -/
theorem floor_units_neg_iff (x : ℚ) (fd : ℤ) : ⌊x * 2 ^ fd⌋ < 0 ↔ x < 0 := by
  have hq : (0 : ℚ) < 2 ^ fd := by positivity
  rw [Int.floor_lt, Int.cast_zero, mul_neg_iff]
  simp [hq, hq.not_gt]

/-- The rounder on a rational rounds its number of quanta (R123). -/
theorem roundRat_eq (cfg : Config) (m : FixedMode) (x : ℚ) (fd : ℤ) :
    roundRat cfg m x fd = ⟨roundUnits cfg.literalRoundTable m (x * 2 ^ fd),
      increments cfg.literalRoundTable m (x * 2 ^ fd)⟩ := by
  simp only [roundUnits, increments, floor_units_neg_iff]
  rfl

variable {literal : Bool} {m : FixedMode} {y z f : ℚ}

/-- Both discarded bits are set for a fraction above a half. -/
theorem guardBit_and_stickyBit : (guardBit f && stickyBit f) = true ↔ 1 / 2 < f := by
  simp only [guardBit, stickyBit, Bool.and_eq_true, decide_eq_true_eq]
  constructor
  · rintro ⟨hge, -, hne⟩
    exact lt_of_le_of_ne hge hne.symm
  · intro h
    exact ⟨h.le, by linarith, h.ne'⟩

/-- One of the discarded bits is set for a fraction that is not zero. -/
theorem guardBit_or_stickyBit : (guardBit f || stickyBit f) = true ↔ f ≠ 0 := by
  simp only [guardBit, stickyBit, Bool.or_eq_true, Bool.and_eq_true, decide_eq_true_eq]
  constructor
  · rintro (h | h)
    · intro h0
      norm_num [h0] at h
    · exact h.1
  · intro h0
    by_cases h : f = 1 / 2
    · exact .inl h.ge
    · exact .inr ⟨h0, h⟩

/-- With nothing discarded no mode adds a quantum (R112). -/
theorem roundUp_exact (literal : Bool) (m : FixedMode) (s lsb : Bool) : roundUp literal m false false s lsb = false := by
  cases m <;> simp [roundUp]

/-- A mode other than Truncate and TruncateTowardZero adds nothing where the guard bit is clear. -/
theorem roundUp_of_not_guard (hz : m ≠ .truncateTowardZero) (r s lsb : Bool) :
    roundUp literal m false r s lsb = false := by
  cases m with
  | truncateTowardZero => exact absurd rfl hz
  | truncate | roundMinInf | roundInf | roundConvergent | roundConvergentOdd => rfl
  | roundZero => simp [roundUp]

/-- A mode other than Truncate and TruncateTowardZero adds a quantum where both bits are set. -/
theorem roundUp_of_guard_of_sticky (ht : m ≠ .truncate) (hz : m ≠ .truncateTowardZero) (s lsb : Bool) :
    roundUp literal m true true s lsb = true := by
  cases m with
  | truncate => exact absurd rfl ht
  | truncateTowardZero => exact absurd rfl hz
  | roundMinInf => rfl
  | roundZero | roundInf | roundConvergent | roundConvergentOdd => simp [roundUp]

theorem roundUnits_of_lt_half (hz : m ≠ .truncateTowardZero) (h : Int.fract y < 1 / 2) :
    roundUnits literal m y = ⌊y⌋ := by
  have hg : guardBit (Int.fract y) = false := decide_eq_false h.not_ge
  simp [roundUnits, increments, hg, roundUp_of_not_guard hz]

theorem roundUnits_of_half_lt (ht : m ≠ .truncate) (hz : m ≠ .truncateTowardZero) (h : 1 / 2 < Int.fract y) :
    roundUnits literal m y = ⌊y⌋ + 1 := by
  obtain ⟨hg, hs⟩ := Bool.and_eq_true_iff.mp (guardBit_and_stickyBit.mpr h)
  simp [roundUnits, increments, hg, hs, roundUp_of_guard_of_sticky ht hz]

/-- At a tie the mode decides by the sign and the low bit alone. -/
theorem roundUnits_of_tie (h : Int.fract y = 1 / 2) :
    roundUnits literal m y = ⌊y⌋ + (roundUp literal m true false (⌊y⌋ < 0) (lsbOf ⌊y⌋)).toNat := by
  have hg : guardBit (1 / 2) = true := decide_eq_true le_rfl
  have hs : stickyBit (1 / 2) = false := by simp [stickyBit]
  rw [roundUnits, increments, h, hg, hs]

theorem roundUnits_truncate : roundUnits literal .truncate y = ⌊y⌋ := add_zero _

/-- TruncateTowardZero takes the floor of what is not negative and the ceiling of what is (R117). -/
theorem roundUnits_truncateTowardZero :
    roundUnits false .truncateTowardZero y = if 0 ≤ y then ⌊y⌋ else ⌈y⌉ := by
  have hinc : increments false .truncateTowardZero y = decide (⌊y⌋ < 0 ∧ Int.fract y ≠ 0) := by
    rw [Bool.decide_and, Bool.eq_iff_iff]
    simp only [increments, roundUp, Bool.and_eq_true, guardBit_or_stickyBit, decide_eq_true_eq,
      Bool.false_eq_true, if_false]
  rw [roundUnits, hinc]
  split
  · rename_i h
    simp [(Int.floor_nonneg.mpr h).not_gt]
  · rename_i h
    have hneg : ⌊y⌋ < 0 := Int.floor_lt.mpr (by simpa using h)
    by_cases hf : Int.fract y = 0
    · obtain ⟨k, rfl⟩ := Int.fract_eq_zero_iff.mp hf
      simp
    · have hceil : ⌈y⌉ = ⌊y⌋ + 1 :=
        (Int.ceil_eq_floor_add_one_iff_notMem y).mpr (mt Int.fract_eq_zero_iff.mpr hf)
      simp [hneg, hf, hceil]

/-- Every other mode takes a nearest integer (R117). -/
theorem roundUnits_nearest (ht : m ≠ .truncate) (hz : m ≠ .truncateTowardZero) :
    |y - roundUnits literal m y| ≤ 1 / 2 := by
  have hy := Int.floor_add_fract y
  have hf0 := Int.fract_nonneg y
  have hf1 := Int.fract_lt_one y
  rcases lt_trichotomy (Int.fract y) (1 / 2) with h | h | h
  · rw [roundUnits_of_lt_half hz h, abs_le]
    constructor <;> linarith
  · rw [roundUnits_of_tie h, abs_le]
    have hinc : ((roundUp literal m true false (⌊y⌋ < 0) (lsbOf ⌊y⌋)).toNat : ℚ) ≤ 1 :=
      mod_cast Bool.toNat_le _
    have hinc' := Nat.cast_nonneg (α := ℚ) (roundUp literal m true false (⌊y⌋ < 0) (lsbOf ⌊y⌋)).toNat
    push_cast
    constructor <;> linarith
  · rw [roundUnits_of_half_lt ht hz h, abs_le]
    push_cast
    constructor <;> linarith

/-! ## Ties (R117) -/

/-- The upper end of a negative tie is the smaller in magnitude. -/
theorem abs_tie_of_neg {n : ℤ} (hn : n < 0) :
    |((n + 1 : ℤ) : ℚ)| < |(n : ℚ) + 1 / 2| ∧ |(n : ℚ) + 1 / 2| < |(n : ℚ)| := by
  have hn' : (n : ℚ) + 1 ≤ 0 := by exact_mod_cast hn
  push_cast
  rw [abs_of_nonpos hn', abs_of_nonpos (by linarith), abs_of_nonpos (by linarith)]
  constructor <;> linarith

/-- The lower end of a tie that is not negative is the smaller in magnitude. -/
theorem abs_tie_of_nonneg {n : ℤ} (hn : 0 ≤ n) :
    |(n : ℚ)| < |(n : ℚ) + 1 / 2| ∧ |(n : ℚ) + 1 / 2| < |((n + 1 : ℤ) : ℚ)| := by
  have hn' : (0 : ℚ) ≤ n := by exact_mod_cast hn
  push_cast
  rw [abs_of_nonneg hn', abs_of_nonneg (by linarith), abs_of_nonneg (by linarith)]
  constructor <;> linarith

/-- What each of the five nearest modes makes of a tie (R117). -/
theorem roundUnits_tie (h : Int.fract y = 1 / 2) :
    |(roundUnits false .roundZero y : ℚ)| < |y| ∧
    roundUnits false .roundMinInf y = ⌊y⌋ ∧
    |y| < |(roundUnits false .roundInf y : ℚ)| ∧
    Even (roundUnits false .roundConvergent y) ∧
    Odd (roundUnits false .roundConvergentOdd y) := by
  have hy : y = ⌊y⌋ + 1 / 2 := by rw [← h, Int.floor_add_fract]
  simp only [roundUnits_of_tie h, roundUp]
  generalize ⌊y⌋ = n at hy ⊢
  subst hy
  refine ⟨?roundZero, by simp, ?roundInf, ?convergent, ?convergentOdd⟩
  case roundZero =>
    rcases lt_or_ge n 0 with hn | hn
    · simpa [hn] using (abs_tie_of_neg hn).1
    · simpa [hn.not_gt] using (abs_tie_of_nonneg hn).1
  case roundInf =>
    rcases lt_or_ge n 0 with hn | hn
    · simpa [hn] using (abs_tie_of_neg hn).2
    · simpa [hn.not_gt] using (abs_tie_of_nonneg hn).2
  case convergent =>
    rcases Int.emod_two_eq_zero_or_one n with hn | hn
    · simpa [lsbOf, hn] using Int.even_iff.mpr hn
    · simpa [lsbOf, hn] using (Int.odd_iff.mpr hn).add_one
  case convergentOdd =>
    rcases Int.emod_two_eq_zero_or_one n with hn | hn
    · simpa [lsbOf, hn] using (Int.even_iff.mpr hn).add_one
    · simpa [lsbOf, hn] using Int.odd_iff.mpr hn

/-- The table of R82. -/
theorem fixedModeOf_table :
    fixedModeOf 0#3 = some .truncate ∧ fixedModeOf 1#3 = some .roundZero ∧ fixedModeOf 2#3 = some .roundMinInf ∧
    fixedModeOf 3#3 = some .roundInf ∧ fixedModeOf 4#3 = some .roundConvergent ∧
    fixedModeOf 5#3 = some .roundConvergentOdd ∧ fixedModeOf 6#3 = some .truncateTowardZero ∧
    fixedModeOf 7#3 = none := by
  decide

/-- Settles O20: the rounder is `roundUnits` on the number of quanta. -/
theorem roundingModesRoundAsNamed : Obligations.RoundingModesRoundAsNamed := by
  refine ⟨fixedModeOf_table, fun cfg x fd hlit => ?_⟩
  simp only [roundRat_eq, hlit]
  exact ⟨roundUnits_truncate, roundUnits_truncateTowardZero, fun m ht hz => roundUnits_nearest ht hz, roundUnits_tie⟩

/-! ## The printed rounding table (R115; D9, D10) -/

/-- Settles O21: the rows of the printed table are those of the other two modes, and the switch is read in no other
row. -/
theorem literalRoundTable : Obligations.LiteralRoundTable := by
  refine fun cfg x fd => ⟨rfl, rfl, fun m hz ht => ?_⟩
  cases m with
  | roundZero => exact absurd rfl hz
  | truncateTowardZero => exact absurd rfl ht
  | truncate | roundMinInf | roundInf | roundConvergent | roundConvergentOdd => rfl

/-! ## Rounding keeps order -/

/-- More discarded never takes an increment back: every row turns on the guard bit, on whether the fraction passes a
half, or on whether anything is discarded. -/
theorem roundUp_mono {g r g' r' s lsb : Bool} (hg : g = true → g' = true)
    (hand : (g && r) = true → (g' && r') = true) (hor : (g || r) = true → (g' || r') = true)
    (h : roundUp literal m g r s lsb = true) : roundUp literal m g' r' s lsb = true := by
  cases m with
  | truncate => exact h
  | roundZero | roundMinInf | roundInf | roundConvergent | roundConvergentOdd | truncateTowardZero =>
    revert literal g r g' r' s lsb
    decide

/-- Between two integers, the larger value has the increment if the smaller has it. -/
theorem increments_mono (hfl : ⌊y⌋ = ⌊z⌋) (hle : y ≤ z) (h : increments literal m y = true) :
    increments literal m z = true := by
  have hfract : Int.fract y ≤ Int.fract z := by rw [Int.fract, Int.fract, hfl]; linarith
  rw [increments, hfl] at h
  refine roundUp_mono ?_ ?_ ?_ h
  · simp only [guardBit, decide_eq_true_eq]
    exact hfract.trans'
  · rw [guardBit_and_stickyBit, guardBit_and_stickyBit]
    exact hfract.trans_lt'
  · rw [guardBit_or_stickyBit, guardBit_or_stickyBit]
    exact fun h0 => ((Int.fract_nonneg y).lt_of_ne' h0 |>.trans_le hfract).ne'

theorem roundUnits_mono (hle : y ≤ z) : roundUnits literal m y ≤ roundUnits literal m z := by
  unfold roundUnits
  rcases (Int.floor_le_floor hle).lt_or_eq with h | h
  · have := Bool.toNat_le (increments literal m y)
    omega
  · rw [h]
    gcongr
    exact Bool.toNat_le_toNat (increments_mono h hle)

/-- Rounding keeps order under every mode. -/
theorem roundRat_mono (cfg : Config) (m : FixedMode) {x x' : ℚ} (fd : ℤ) (h : x ≤ x') :
    (roundRat cfg m x fd).t ≤ (roundRat cfg m x' fd).t := by
  simp only [roundRat_eq]
  exact roundUnits_mono (by gcongr)

end Sys2Proof.Machine
end

section
/-! PROOFS. The rounder on bits refines the rounder on rationals, and the overflow handler on the rounded integer: FXQ.CVT,
FXQ.RND and FXQ.OVF. -/

namespace Sys2Proof.Machine

/-! ## The rounder on bits (R112, R113, R118) -/

theorem toNat_bitAt (k : ℤ) (j : ℕ) : ((bitAt k j).toNat : ℤ) = k / 2 ^ j % 2 := by
  rcases Int.emod_two_eq_zero_or_one (k / 2 ^ j) with h | h <;> simp [bitAt, h]

/-- The low `j + 1` bits are the low `j` bits and the bit above them. -/
theorem emod_two_pow_succ (k : ℤ) (j : ℕ) : k % 2 ^ (j + 1) = k % 2 ^ j + 2 ^ j * (bitAt k j).toNat := by
  have hdiv : k / 2 ^ (j + 1) = k / 2 ^ j / 2 := by rw [pow_succ, Int.ediv_ediv_of_nonneg (by positivity)]
  rw [toNat_bitAt, Int.emod_def, Int.emod_def k, Int.emod_def (k / 2 ^ j), hdiv]
  ring

/-- What a right shift by `j + 1` discards: bit `j` stands for a half, and the bits below it for less. -/
theorem fract_div_two_pow_succ (k : ℤ) (j : ℕ) :
    ∃ low : ℚ, Int.fract ((k : ℚ) / 2 ^ (j + 1)) = low + (bitAt k j).toNat / 2 ∧ 0 ≤ low ∧ low < 1 / 2 ∧
      (low = 0 ↔ k % 2 ^ j = 0) := by
  have hpow : (0 : ℤ) < 2 ^ j := by positivity
  have hpow' : (0 : ℚ) < 2 ^ (j + 1) := by positivity
  have h0 : (0 : ℚ) ≤ (k % 2 ^ j : ℤ) := mod_cast Int.emod_nonneg k hpow.ne'
  have h1 : ((k % 2 ^ j : ℤ) : ℚ) < 2 ^ j := mod_cast Int.emod_lt_of_pos k hpow
  refine ⟨(k % 2 ^ j : ℤ) / 2 ^ (j + 1), ?_, by positivity, ?_, ?_⟩
  · have hfract := Int.fract_div_intCast_eq_div_intCast_mod (k := ℚ) (m := k) (n := 2 ^ (j + 1))
    push_cast at hfract
    rw [hfract, emod_two_pow_succ]
    push_cast
    field_simp
    ring
  · rw [div_lt_iff₀ hpow', pow_succ]
    linarith
  · rw [div_eq_zero_iff, or_iff_left hpow'.ne', Int.cast_eq_zero]

/-- The guard bit of a shifted integer is the highest bit discarded (R113). -/
theorem guardBit_fract_div (k : ℤ) (j : ℕ) : guardBit (Int.fract ((k : ℚ) / 2 ^ (j + 1))) = bitAt k j := by
  obtain ⟨low, hfract, h0, h1, -⟩ := fract_div_two_pow_succ k j
  rw [hfract]
  cases bitAt k j with
  | false => exact decide_eq_false (by simpa using h1)
  | true => exact decide_eq_true (by simpa using h0)

/-- The round bit of a shifted integer is the or of the bits below (R113). -/
theorem stickyBit_fract_div (k : ℤ) (j : ℕ) :
    stickyBit (Int.fract ((k : ℚ) / 2 ^ (j + 1))) = decide (k % 2 ^ j ≠ 0) := by
  obtain ⟨low, hfract, h0, h1, hlow⟩ := fract_div_two_pow_succ k j
  rw [hfract, Bool.eq_iff_iff, decide_eq_true_eq, ne_eq, ← hlow, stickyBit, Bool.and_eq_true, decide_eq_true_eq,
    decide_eq_true_eq]
  cases bitAt k j with
  | false =>
    rw [Bool.toNat_false, Nat.cast_zero, zero_div, add_zero]
    exact and_iff_left h1.ne
  | true =>
    rw [Bool.toNat_true, Nat.cast_one, ne_eq, ne_eq, add_eq_right]
    exact and_iff_right (by linarith)

/-- With at least as many fractional bits in the destination the rounder shifts left and adds nothing (R112). -/
theorem roundInt_of_le (cfg : Config) (m : FixedMode) (ks : ℤ) {fs fd : ℤ} (h : fs ≤ fd) :
    roundInt cfg m ks fs fd = ⟨ks * 2 ^ (fd - fs).toNat, false⟩ := by
  simp [roundInt, h, roundUp_exact]

/-- With `j + 1` fewer the rounder shifts right and decides as it does of the rational (R113, R118). -/
theorem roundInt_of_lt (cfg : Config) (m : FixedMode) (ks : ℤ) {fs fd : ℤ} {j : ℕ} (h : fs - fd = (j + 1 : ℕ)) :
    roundInt cfg m ks fs fd = ⟨roundUnits cfg.literalRoundTable m (ks / 2 ^ (j + 1)),
      increments cfg.literalRoundTable m (ks / 2 ^ (j + 1))⟩ := by
  have hlt : ¬ fs ≤ fd := by omega
  have hfloor : ⌊(ks : ℚ) / 2 ^ (j + 1)⌋ = ks / 2 ^ (j + 1) := by
    have := Rat.floor_intCast_div_natCast ks (2 ^ (j + 1))
    push_cast at this
    exact this
  have hneg : ks / 2 ^ (j + 1) < 0 ↔ ks < 0 := by
    rw [Int.ediv_lt_iff_lt_mul (by positivity), zero_mul]
  simp only [roundInt, if_neg hlt, h, Int.toNat_natCast, Nat.add_sub_cancel, roundUnits, increments,
    guardBit_fract_div, stickyBit_fract_div, hfloor, hneg]

/-- A fixed value counted in quanta of `fd` fractional bits. -/
theorem zpow_neg_mul_zpow (k fs fd : ℤ) : (k : ℚ) * 2 ^ (-fs) * 2 ^ fd = k * 2 ^ (fd - fs) := by
  rw [mul_assoc, ← zpow_add₀ two_ne_zero, neg_add_eq_sub]

/-- The rounder on bits is the rounder on the exact value (R118, R123). -/
theorem roundInt_eq_roundRat (cfg : Config) (m : FixedMode) (ks fs fd : ℤ) :
    roundInt cfg m ks fs fd = roundRat cfg m (ks * 2 ^ (-fs)) fd := by
  rcases le_or_gt fs fd with h | h
  · obtain ⟨n, hn⟩ := Int.eq_ofNat_of_zero_le (sub_nonneg.mpr h)
    have hint : (ks : ℚ) * 2 ^ (-fs) * 2 ^ fd = (ks * 2 ^ n : ℤ) := by
      rw [zpow_neg_mul_zpow, hn, zpow_natCast]
      push_cast
      rfl
    rw [roundInt_of_le cfg m ks h, roundRat_of_int cfg m hint, hn, Int.toNat_natCast]
  · obtain ⟨j, hj⟩ : ∃ j : ℕ, fs - fd = (j + 1 : ℕ) := ⟨(fs - fd - 1).toNat, by omega⟩
    have hy : (ks : ℚ) * 2 ^ (-fs) * 2 ^ fd = ks / 2 ^ (j + 1) := by
      rw [zpow_neg_mul_zpow, ← neg_sub, hj, zpow_neg, zpow_natCast, div_eq_mul_inv]
    rw [roundInt_of_lt cfg m ks hj, roundRat_eq, hy]

/-! ## The overflow handler (R119, R120, R122) -/

theorem overflows_eq_decide (kmin kmax t : ℤ) : overflows kmin kmax t = decide (t < kmin ∨ kmax < t) :=
  (Bool.decide_or ..).symm

section
variable {d : FixedSpec} {o : OverflowMode} {t : ℤ}

theorem fitInt_ovf : (fitInt d o t).ovf = decide (t < d.kmin ∨ d.kmax < t) := overflows_eq_decide ..

/-- The greatest integer of a signed spec is not its least. -/
theorem FixedSpec.kmin_lt_kmax (hs : d.s = true) : d.kmin < d.kmax := by
  have : (0 : ℤ) < 2 ^ (d.w - 1) := by positivity
  simp only [FixedSpec.kmin, FixedSpec.kmax, hs, if_true]
  omega

/-- What is stored of an integer above the range (R120). -/
theorem fitInt_above (h : d.kmax < t) :
    (fitInt d o t).v = if o = .wrap then t else if o = .saturateToZero then 0 else d.kmax := by
  have hov : overflows d.kmin d.kmax t = true := by simp [overflows, h]
  cases o with
  | wrap | saturateToZero => simp [fitInt, hov]
  | saturate => simp [fitInt, hov, h]
  | saturateSymmetric =>
    have hne : d.s = true → d.kmax ≠ d.kmin := fun hs => (FixedSpec.kmin_lt_kmax hs).ne'
    simp only [fitInt, hov, h, if_true]
    exact if_neg (by simpa using hne)

/-- What is stored of an integer below the range (R120, R122). -/
theorem fitInt_below (h : t < d.kmin) :
    (fitInt d o t).v =
      if o = .wrap then t else if o = .saturateToZero then 0 else if o = .saturate then d.kmin else d.symmetricMin := by
  have hov : overflows d.kmin d.kmax t = true := by simp [overflows, h]
  have hle : ¬ d.kmax < t := by
    obtain ⟨h0, h1⟩ := d.kmin_le_zero_le_kmax
    omega
  cases o with
  | wrap | saturateToZero => simp [fitInt, hov]
  | saturate => simp [fitInt, hov, hle]
  | saturateSymmetric =>
    have hne : d.s = true → d.symmetricMin ≠ d.kmin := fun hs => by simp [FixedSpec.symmetricMin, hs]
    simp only [fitInt, hov, hle, if_true, if_false]
    exact if_neg (by simpa using hne)

end

/-! ## FXQ.CVT, FXQ.RND and FXQ.OVF -/

/-- The rounder on the bits of an operand is the rounder on its value. -/
theorem roundInt_fixedOf (cfg : Config) (m : FixedMode) (rec : SpecRecord) (p : Bits) (fd : ℤ) :
    roundInt cfg m (rec.fixedOf p).k (rec.fixedOf p).spec.f fd = roundRat cfg m (fxVal rec.fixed p) fd :=
  roundInt_eq_roundRat ..

/-- FXQ.CVT of a legal request. -/
theorem cvtResult_ready {s : State} {q : BitVec 3} {m : FixedMode} (o : OverflowMode) (h : FixedReady1 s)
    (hm : fixedModeOf q = some m) :
    let d := s.request.dst.fixed
    let x := fxVal s.request.srcA.fixed s.request.a
    let t := roundRat s.cfg m x d.f
    cvtResult q o s.cfg s.request =
      .ok { r := some (quantize s.cfg x d m o), auxT := some t.t, auxInc := some t.inc,
            auxOvf := some (decide (t.t < d.kmin ∨ d.kmax < t.t)) } := by
  obtain ⟨-, ha, pa, hd⟩ := h
  simp only [cvtResult, fixedOperand_of_legal ha pa, fixedSpec_of_legal hd, needFixedMode_of_some hm, bind_ok,
    roundInt_fixedOf, fitInt_ovf]
  rfl

/-- FXQ.RND of a legal request. -/
theorem rndResult_ready {s : State} {q : BitVec 3} {m : FixedMode} (h : FixedReady1 s)
    (hm : fixedModeOf q = some m) :
    let t := roundRat s.cfg m (fxVal s.request.srcA.fixed s.request.a) s.request.dst.fixed.f
    rndResult q s.cfg s.request = .ok { auxT := some t.t, auxInc := some t.inc } := by
  obtain ⟨-, ha, pa, hd⟩ := h
  simp only [rndResult, fixedOperand_of_legal ha pa, fixedSpec_of_legal hd, needFixedMode_of_some hm, bind_ok,
    roundInt_fixedOf]
  rfl

/-- FXQ.OVF of a legal request. -/
theorem ovfResult_ready {cfg : Config} {r : Request} (o : OverflowMode) (h : r.dst.FixedLegal cfg) :
    let d := r.dst.fixed
    ovfResult o cfg r =
      .ok { r := some (bitsOf d.w (fitInt d o r.t).v), auxOvf := some (decide (r.t < d.kmin ∨ d.kmax < r.t)) } := by
  simp only [ovfResult, fixedSpec_of_legal h, bind_ok, fitInt_ovf]
  rfl

/-- Settles O22: the rounder on the operand's bits is the rounder on its value, and the overflow handler sees the
rounded integer. -/
theorem fxqCvtAndRndResults : Obligations.FxqCvtAndRndResults := fun s _ _ o h hm =>
  ⟨(congrArg (serve s) (cvtResult_ready o h hm)).trans (serve_ok h.1 _),
    (congrArg (serve s) (rndResult_ready h hm)).trans (serve_ok h.1 _)⟩

/-- Settles O23: the integer stored is that of the overflow handler, in, above and below the range. -/
theorem fxqOvfResult : Obligations.FxqOvfResult := by
  intro s o hh hd
  refine ⟨(fitInt s.request.dst.fixed o s.request.t).v, ?_, fun h1 h2 => ?_, fun h => ?_, fun h => ?_⟩
  · exact (congrArg (serve s) (ovfResult_ready o hd)).trans (serve_ok hh _)
  · rw [fitInt_of_range h1 h2]
  · rw [fitInt_above h]
    cases o <;> rfl
  · rw [fitInt_below h]
    cases o <;> rfl

end Sys2Proof.Machine
end

section
/-! PROOFS. The overflow test on the bits of the rounded integer, and the laws of the engine. -/

namespace Sys2Proof.Machine

/-! ## The overflow test on bits (R119) -/

/-- Bit `n` of what a right shift by `m` leaves. -/
theorem bitAt_add (t : ℤ) (m n : ℕ) : bitAt t (m + n) = bitAt (t / 2 ^ m) n := by
  rw [bitAt, bitAt, pow_add, Int.ediv_ediv_of_nonneg (by positivity)]

theorem bitAt_succ (k : ℤ) (n : ℕ) : bitAt k (n + 1) = bitAt (k / 2) n := by
  rw [add_comm, bitAt_add, pow_one]

/-- The expansions of 0 and of −1. -/
theorem bitAt_neg_toNat (b : Bool) (n : ℕ) : bitAt (-b.toNat) n = b := by
  induction n with
  | zero => cases b <;> rfl
  | succ n ih =>
    have hhalf : -(b.toNat : ℤ) / 2 = -b.toNat := by cases b <;> rfl
    rw [bitAt_succ, hhalf, ih]

/-- An expansion all of whose bits are equal is that of 0 or of −1. The induction is on a bound of the magnitude, which
halving lowers until one of the two is reached. -/
theorem eq_of_bitAt_const {b : Bool} {N : ℕ} {k : ℤ} (hN : k.natAbs ≤ N) (h : ∀ n, bitAt k n = b) :
    k = -b.toNat := by
  have hlow : (b.toNat : ℤ) = k % 2 := by rw [← h 0, toNat_bitAt, pow_zero, Int.ediv_one]
  induction N generalizing k with
  | zero => omega
  | succ N ih =>
    by_cases hk : k = -1
    · omega
    · have hhalf : ∀ n, bitAt (k / 2) n = b := fun n => by rw [← bitAt_succ, h]
      have hlow' : (b.toNat : ℤ) = k / 2 % 2 := by rw [← hhalf 0, toNat_bitAt, pow_zero, Int.ediv_one]
      have hk2 : k / 2 = -b.toNat := ih (by omega) hhalf hlow'
      omega

/-- All bits from `m` on are `b` exactly where the integer shifted right by `m` is 0 or −1. -/
theorem bits_above_iff (t : ℤ) (m : ℕ) (b : Bool) : (∀ n, m ≤ n → bitAt t n = b) ↔ t / 2 ^ m = -b.toNat := by
  constructor
  · intro h
    exact eq_of_bitAt_const le_rfl fun n => by rw [← bitAt_add, h _ (Nat.le_add_right m n)]
  · intro h n hn
    obtain ⟨j, rfl⟩ := Nat.exists_eq_add_of_le hn
    rw [bitAt_add, h, bitAt_neg_toNat]

/-- Sign bits alone above the kept width (R119). -/
theorem sign_bits_iff (t : ℤ) (m : ℕ) :
    (∀ n, m ≤ n → bitAt t n = bitAt t m) ↔ -2 ^ m ≤ t ∧ t < 2 ^ m := by
  have hpow : (0 : ℤ) < 2 ^ m := by positivity
  have hle : -1 ≤ t / 2 ^ m ↔ -1 * 2 ^ m ≤ t := Int.le_ediv_iff_mul_le hpow
  have hlt : t / 2 ^ m < 1 ↔ t < 1 * 2 ^ m := Int.ediv_lt_iff_lt_mul hpow
  rw [bits_above_iff, toNat_bitAt]
  omega

/-- No bits above the kept width (R119). -/
theorem zero_bits_iff (t : ℤ) (m : ℕ) : (∀ n, m ≤ n → bitAt t n = false) ↔ 0 ≤ t ∧ t < 2 ^ m := by
  have hpow : (0 : ℤ) < 2 ^ m := by positivity
  have hle : 0 ≤ t / 2 ^ m ↔ 0 * 2 ^ m ≤ t := Int.le_ediv_iff_mul_le hpow
  have hlt : t / 2 ^ m < 1 ↔ t < 1 * 2 ^ m := Int.ediv_lt_iff_lt_mul hpow
  rw [bits_above_iff, Bool.toNat_false]
  omega

theorem overflows_eq_true_iff {kmin kmax t : ℤ} : overflows kmin kmax t = true ↔ t < kmin ∨ kmax < t := by
  rw [overflows_eq_decide, decide_eq_true_eq]

theorem overflows_eq_false_iff {kmin kmax t : ℤ} : overflows kmin kmax t = false ↔ kmin ≤ t ∧ t ≤ kmax := by
  rw [overflows_eq_decide, decide_eq_false_iff_not, not_or, not_lt, not_lt]

/-- Settles O24: in a signed range the bits from `W − 1` on are sign bits, in an unsigned range those from `W` on are
clear. -/
theorem overflowTestOnBits : Obligations.OverflowTestOnBits := by
  refine fun d t _ => ⟨overflows_eq_true_iff, fun hs => ?_, fun hs => ?_⟩
  · rw [overflows_eq_false_iff, sign_bits_iff, FixedSpec.kmin, FixedSpec.kmax, if_pos hs, if_pos hs, Int.le_sub_one_iff]
  · rw [overflows_eq_false_iff, zero_bits_iff, FixedSpec.kmin, FixedSpec.kmax, if_neg (by simp [hs]),
      if_neg (by simp [hs]), Int.le_sub_one_iff]

/-! ## Values of the destination's own grid (R127) -/

variable {d d' : FixedSpec} {m : FixedMode} {o : OverflowMode} {x : ℚ} {k : ℤ} {p : Bits}

/-- The least integer of a signed range, which SaturateSymmetric excludes (R122). -/
def FixedSpec.Excludes (d : FixedSpec) (o : OverflowMode) (k : ℤ) : Prop :=
  o = .saturateSymmetric ∧ d.s = true ∧ k = d.kmin

/-- An integer of the range that the overflow mode does not exclude is stored as it is. -/
theorem quantize_of_int (cfg : Config) (hx : x * 2 ^ d.f = k) (h1 : d.kmin ≤ k) (h2 : k ≤ d.kmax)
    (hex : ¬ d.Excludes o k) : quantize cfg x d m o = bitsOf d.w k := by
  have hk : (fitInt d o k).v = k := by
    rw [fitInt_of_range h1 h2]
    exact if_neg hex
  rw [quantize, roundRat_of_int cfg m hx, fitBits, hk]

/-- The value of a pattern in quanta of `fd` fractional bits, at least as many as its own. -/
theorem fxVal_mul_zpow (d : FixedSpec) (p : Bits) {fd : ℤ} {n : ℕ} (h : fd - d.f = n) :
    fxVal d p * 2 ^ fd = (fixedInt d.s p * 2 ^ n : ℤ) := by
  rw [fxVal, zpow_neg_mul_zpow, h, zpow_natCast]
  push_cast
  rfl

/-- A value converted into its own spec is unchanged. -/
theorem quantize_own_spec (cfg : Config) (hp : p.width = d.w) (hex : ¬ d.Excludes o (fixedInt d.s p)) :
    quantize cfg (fxVal d p) d m o = p := by
  have hx := fxVal_mul_zpow d p (fd := d.f) (n := 0) (sub_self _)
  rw [pow_zero, mul_one] at hx
  obtain ⟨h1, h2⟩ := fixedInt_range p hp
  rw [quantize_of_int cfg hx h1 h2 hex, ← hp, bitsOf_fixedInt]

/-! ## Narrowing, widening and narrowing again (R127) -/

/-- Under a mode other than Wrap the pattern stored reads back as the integer the overflow handler chose. -/
theorem fixedInt_quantize (cfg : Config) (hw : 1 ≤ d.w) (ho : o ≠ .wrap) :
    fixedInt d.s (quantize cfg x d m o) = (fitInt d o (roundRat cfg m x d.f).t).v :=
  fixedInt_bitsOf hw (fitInt_range ho).1 (fitInt_range ho).2

/-- SaturateSymmetric never chooses the integer it excludes (R122). -/
theorem fitInt_symmetric_ne_kmin (hs : d.s = true) (t : ℤ) : (fitInt d .saturateSymmetric t).v ≠ d.kmin := by
  rcases lt_or_ge t d.kmin with hlow | hlow
  · rw [fitInt_below hlow]
    simp [FixedSpec.symmetricMin, hs]
  · rcases lt_or_ge d.kmax t with hhigh | hhigh
    · rw [fitInt_above hhigh]
      exact (FixedSpec.kmin_lt_kmax hs).ne'
    · simp only [fitInt_of_range hlow hhigh, hs, true_and]
      split
      · omega
      · assumption

theorem not_excludes_quantize (cfg : Config) (hw : 1 ≤ d.w) :
    ¬ d.Excludes o (fixedInt d.s (quantize cfg x d m o)) := by
  rintro ⟨rfl, hs, hk⟩
  rw [fixedInt_quantize cfg hw (by decide)] at hk
  exact fitInt_symmetric_ne_kmin hs _ hk

/-- `n` more fractional bits, and no fewer integer bits, make room for every integer of the range times `2 ^ n`. -/
theorem range_scale (hs : d'.s = d.s) {n : ℕ} (hw : 1 ≤ d.w) (hn : d.w + n ≤ d'.w) :
    d'.kmin ≤ d.kmin * 2 ^ n ∧ (d.kmax + 1) * 2 ^ n ≤ d'.kmax + 1 := by
  have hsigned : (2 : ℤ) ^ (d.w - 1) * 2 ^ n ≤ 2 ^ (d'.w - 1) := by
    rw [← pow_add]
    exact pow_le_pow_right₀ one_le_two (by omega)
  have hunsigned : (2 : ℤ) ^ d.w * 2 ^ n ≤ 2 ^ d'.w := by
    rw [← pow_add]
    exact pow_le_pow_right₀ one_le_two hn
  simp only [FixedSpec.kmin, FixedSpec.kmax, hs]
  split
  · constructor <;> linarith
  · constructor <;> linarith

/-- A value that the narrower spec holds and `o` does not exclude there is kept exactly by the wider spec. -/
theorem fxVal_quantize_wider (cfg : Config) (hw : 1 ≤ d.w) (hi : d.i ≤ d'.i) (hf : d.f ≤ d'.f) (hs : d'.s = d.s)
    (hp : p.width = d.w) (hex : ¬ d.Excludes o (fixedInt d.s p)) :
    fxVal d' (quantize cfg (fxVal d p) d' m o) = fxVal d p := by
  obtain ⟨n, hn⟩ := Int.eq_ofNat_of_zero_le (sub_nonneg.mpr hf)
  have hwn : d.w + n ≤ d'.w := by simp only [FixedSpec.f] at hn; omega
  have hpow : (1 : ℤ) ≤ 2 ^ n := one_le_pow₀ one_le_two
  have hx := fxVal_mul_zpow d p hn
  obtain ⟨h1, h2⟩ := fixedInt_range p hp
  obtain ⟨hmin, hmax⟩ := range_scale hs hw hwn
  generalize fixedInt d.s p = k at hx h1 h2 hex
  have hlow : d'.kmin ≤ k * 2 ^ n := hmin.trans (by gcongr)
  have hhigh : k * 2 ^ n ≤ d'.kmax := by
    have : (k + 1) * 2 ^ n ≤ (d.kmax + 1) * 2 ^ n := by gcongr
    linarith
  have hex' : ¬ d'.Excludes o (k * 2 ^ n) := by
    rintro ⟨ho, hs', hk⟩
    have hle : k ≤ d.kmin := le_of_mul_le_mul_right (hk.trans_le hmin) (by positivity)
    exact hex ⟨ho, hs ▸ hs', hle.antisymm h1⟩
  rw [quantize_of_int cfg hx hlow hhigh hex', fxVal, fixedInt_bitsOf (by omega) hlow hhigh, ← hx, zpow_neg,
    mul_inv_cancel_right₀ (by positivity)]

/-! ## Order (R127) -/

/-- Saturate takes the nearest integer of the range. -/
theorem fitInt_saturate (d : FixedSpec) (t : ℤ) : (fitInt d .saturate t).v = max d.kmin (min t d.kmax) := by
  obtain ⟨h0, h1⟩ := d.kmin_le_zero_le_kmax
  rcases lt_or_ge t d.kmin with hlow | hlow
  · rw [fitInt_below hlow, min_eq_left (by omega), max_eq_left hlow.le]
    rfl
  · rcases lt_or_ge d.kmax t with hhigh | hhigh
    · rw [fitInt_above hhigh, min_eq_right hhigh.le, max_eq_right (h0.trans h1)]
      rfl
    · rw [fitInt_of_range hlow hhigh, min_eq_left hhigh, max_eq_right hlow]
      rfl

/-- Saturate never inverts an order. -/
theorem fxVal_quantize_saturate_mono (cfg : Config) (hw : 1 ≤ d.w) {y : ℚ} (h : x ≤ y) :
    fxVal d (quantize cfg x d m .saturate) ≤ fxVal d (quantize cfg y d m .saturate) := by
  have hround := roundRat_mono cfg m d.f h
  simp only [fxVal, fixedInt_quantize cfg hw (show OverflowMode.saturate ≠ .wrap by decide), fitInt_saturate]
  gcongr

/-- The unsigned integers of one bit. -/
def oneBit : FixedSpec := ⟨1, 1, false⟩

/-- An integer stored in one bit. -/
theorem fxVal_oneBit (k : ℤ) (o : OverflowMode) :
    fxVal oneBit (quantize .specDefault (k : ℚ) oneBit .truncate o) =
      fixedInt false (bitsOf 1 (fitInt oneBit o k).v) := by
  have hk : (k : ℚ) * 2 ^ oneBit.f = k := by
    rw [show oneBit.f = 0 from rfl, zpow_zero, mul_one]
  rw [fxVal_of_integer rfl, quantize, roundRat_of_int .specDefault .truncate hk]
  rfl

/-- Wrap and SaturateToZero store 0 for the 2 that one bit cannot hold, and 1 for the 1 that it can. -/
theorem wrap_and_saturateToZero_invert (ho : o = .wrap ∨ o = .saturateToZero) :
    fxVal oneBit (quantize .specDefault (2 : ℤ) oneBit .truncate o) <
      fxVal oneBit (quantize .specDefault (1 : ℤ) oneBit .truncate o) := by
  rw [fxVal_oneBit, fxVal_oneBit, Int.cast_lt]
  rcases ho with rfl | rfl <;> decide

/-- Settles O25: the four laws, each by its lemma. -/
theorem lawsOfTheEngine : Obligations.LawsOfTheEngine := by
  refine ⟨fun cfg d p m o _ hp hex => quantize_own_spec cfg hp hex, fun cfg d d' m o x hw hi hf hs => ?_,
    fun cfg d m x y hw hle => fxVal_quantize_saturate_mono cfg hw hle, fun o ho => ?_⟩
  · have hex := not_excludes_quantize (o := o) (m := m) (x := x) cfg hw
    rw [fxVal_quantize_wider cfg hw hi hf hs (quantize_width ..) hex, quantize_own_spec cfg (quantize_width ..) hex]
  · exact ⟨oneBit, .truncate, (1 : ℤ), (2 : ℤ), by norm_num, wrap_and_saturateToZero_invert ho⟩

end Sys2Proof.Machine
end

section
/-! PROOFS. The fixed-point operators: each format hands over its own exact result, quantized once; what aligned integers
say of the values; the floor that Truncate and Wrap keep. -/

namespace Sys2Proof.Machine

/-! ## One quantization of the exact result (R150) -/

section
variable {s : State} {q : BitVec 3} {m : FixedMode} {o : OverflowMode} {y : ℚ}

/-- Format XB serves the operation's exact result. -/
theorem serve_fixedBinary {x : FixedOperand → FixedOperand → Except Cause ℚ} (h : FixedReady2 s)
    (hm : fixedModeOf q = some m) (hx : x s.request.fixedA s.request.fixedB = .ok y) :
    serve s (fixedBinary s.cfg s.request q o x) = .next (s.answer (quantize s.cfg y s.request.dst.fixed m o)) := by
  rw [fixedBinary_ready o x h hm, hx]
  exact serve_answer h.1.1

/-- Format XB takes the operation's own violation. -/
theorem serve_fixedBinary_error {x : FixedOperand → FixedOperand → Except Cause ℚ} {c : Cause} (h : FixedReady2 s)
    (hm : fixedModeOf q = some m) (hx : x s.request.fixedA s.request.fixedB = .error c) :
    serve s (fixedBinary s.cfg s.request q o x) = .next (s.raise c) := by
  rw [fixedBinary_ready o x h hm, hx]
  exact serve_error h.1.1 c

/-- Format XU serves the operation's exact result, where the operation has no condition of its own on the specs. -/
theorem serve_fixedUnary (x : FixedOperand → ℚ) (h : FixedReady1 s) (hm : fixedModeOf q = some m) :
    serve s (fixedUnary s.cfg s.request q o (fun _ _ => true) x) =
      .next (s.answer (quantize s.cfg (x s.request.fixedA) s.request.dst.fixed m o)) := by
  rw [fixedUnary_ready o _ x h rfl hm]
  exact serve_answer h.1

/-- Format XN serves the operation's exact result for an amount that is not negative. -/
theorem serve_fixedShift (x : FixedOperand → ℤ → ℚ) (h : FixedReady1 s) (hm : fixedModeOf q = some m)
    (hn : 0 ≤ s.request.n) :
    serve s (fixedShift s.cfg s.request q o x) =
      .next (s.answer (quantize s.cfg (x s.request.fixedA s.request.n) s.request.dst.fixed m o)) := by
  rw [fixedShift_ready o x h hn hm]
  exact serve_answer h.1

/-- Format XN refuses a negative amount (R372 (f)). -/
theorem serve_fixedShift_of_neg (x : FixedOperand → ℤ → ℚ) (h : FixedReady1 s) (hn : s.request.n < 0) :
    serve s (fixedShift s.cfg s.request q o x) = .next (s.raise .malformedSpec) := by
  obtain ⟨hh, ha, pa, hd⟩ := h
  have hres : fixedShift s.cfg s.request q o x = .error .malformedSpec := by
    simp only [fixedShift, fixedOperand_of_legal ha pa, fixedSpec_of_legal hd, decide_eq_false hn.not_ge,
      require_false, bind_ok, bind_error]
  rw [hres]
  exact serve_error hh _

/-- Format XC serves the comparison of the aligned integers. -/
theorem serve_fixedCompare {p : ℤ → ℤ → Bool} {b : Bool} (h : FixedReadyPair s)
    (hp : p (s.request.fixedA.aligned (commonF s.request.fixedA s.request.fixedB))
      (s.request.fixedB.aligned (commonF s.request.fixedA s.request.fixedB)) = b) :
    serve s (fixedCompare s.cfg s.request p) = .next (s.answer (bitOf b)) := by
  rw [fixedCompare_ready p h, hp]
  exact serve_answer h.1

end

/-- The value of operand `A` is that of its pattern under its spec (R71). -/
theorem Request.fixedA_val (r : Request) : r.fixedA.val = fxVal r.srcA.fixed r.a := rfl

/-- Settles O26: the exact results are the sum, the difference and the product of the two values. -/
theorem fxArithmeticResults : Obligations.FxArithmeticResults := fun _ _ _ _ h hm =>
  ⟨serve_fixedBinary h hm rfl, serve_fixedBinary h hm rfl, serve_fixedBinary h hm rfl⟩

/-- Settles O27: the operation's own result is the quotient, or the violation where the divisor is zero. -/
theorem fxDivResult : Obligations.FxDivResult := fun _ _ _ _ h hm =>
  ⟨fun hy => serve_fixedBinary h hm (if_neg hy), fun hy => serve_fixedBinary_error h hm (if_pos hy)⟩

/-- Settles O29. -/
theorem fxShiftResults : Obligations.FxShiftResults := fun _ _ _ _ h hm =>
  ⟨fun hn => ⟨serve_fixedShift _ h hm hn, serve_fixedShift _ h hm hn⟩,
    fun hn => ⟨serve_fixedShift_of_neg _ h hn, serve_fixedShift_of_neg _ h hn⟩⟩

/-! ## Aligned integers (R159, R170) -/

/-- On a grid of at least its own fractional bits an operand's value is its aligned integer in quanta of that grid. -/
theorem FixedOperand.val_eq_aligned {a : FixedOperand} {f : ℤ} (h : a.spec.f ≤ f) :
    a.val = a.aligned f * 2 ^ (-f) := by
  obtain ⟨n, hn⟩ := Int.eq_ofNat_of_zero_le (sub_nonneg.mpr h)
  rw [FixedOperand.val, FixedOperand.aligned, hn, Int.toNat_natCast, show -a.spec.f = -f + n by omega,
    two_zpow_add_natCast]
  push_cast
  ring

/-- On such a grid the aligned integers are ordered as the values. -/
theorem aligned_le_aligned_iff {a b : FixedOperand} {f : ℤ} (ha : a.spec.f ≤ f) (hb : b.spec.f ≤ f) :
    a.aligned f ≤ b.aligned f ↔ a.val ≤ b.val := by
  have hq : (0 : ℚ) < 2 ^ (-f) := by positivity
  rw [FixedOperand.val_eq_aligned ha, FixedOperand.val_eq_aligned hb, mul_le_mul_iff_left₀ hq, Int.cast_le]

theorem aligned_eq_aligned_iff {a b : FixedOperand} {f : ℤ} (ha : a.spec.f ≤ f) (hb : b.spec.f ≤ f) :
    a.aligned f = b.aligned f ↔ a.val = b.val := by
  rw [le_antisymm_iff, aligned_le_aligned_iff ha hb, aligned_le_aligned_iff hb ha, ← le_antisymm_iff]

/-- Settles O32: the aligned integers are ordered as the values, and order decides the other comparisons. -/
theorem fxComparisonsCompareTheValues : Obligations.FxComparisonsCompareTheValues := by
  intro s h
  have ha : s.request.fixedA.spec.f ≤ commonF s.request.fixedA s.request.fixedB := le_max_left _ _
  have hb : s.request.fixedB.spec.f ≤ commonF s.request.fixedA s.request.fixedB := le_max_right _ _
  have hle := aligned_le_aligned_iff ha hb
  have hge := aligned_le_aligned_iff hb ha
  have hlt := lt_iff_lt_of_le_iff_le hge
  have hgt := lt_iff_lt_of_le_iff_le hle
  have heq := aligned_eq_aligned_iff ha hb
  exact ⟨serve_fixedCompare h (decide_eq_decide.mpr heq), serve_fixedCompare h (decide_eq_decide.mpr heq.not),
    serve_fixedCompare h (decide_eq_decide.mpr hlt), serve_fixedCompare h (decide_eq_decide.mpr hle),
    serve_fixedCompare h (decide_eq_decide.mpr hgt), serve_fixedCompare h (decide_eq_decide.mpr hge)⟩

/-- Settles O33: the comparison itself is on the aligned integers. -/
theorem fxGtAndGeOnAlignedIntegers : Obligations.FxGtAndGeOnAlignedIntegers :=
  ⟨rfl, rfl, fun _ h => ⟨serve_fixedCompare h rfl, serve_fixedCompare h rfl⟩⟩

/-! ## Truncate and Wrap (R184) -/

/-- Wrap stores the integer as it is, to be cut to the width (R120). -/
theorem fitInt_wrap (d : FixedSpec) (t : ℤ) : (fitInt d .wrap t).v = t := by simp [fitInt]

/-- Under Truncate and Wrap the result is the low bits of the floor of the number of quanta. -/
theorem quantize_truncate_wrap (cfg : Config) (d : FixedSpec) (x : ℚ) :
    quantize cfg x d .truncate .wrap = bitsOf d.w ⌊x * 2 ^ d.f⌋ := by
  rw [quantize, fitBits, fitInt_wrap, roundRat_eq]
  exact congrArg (bitsOf d.w) roundUnits_truncate

/-- Settles O35: an integer spec has quanta of 1. -/
theorem fxTointResult : Obligations.FxTointResult := by
  intro s ⟨hh, ha, pa, hd⟩ hi
  have hint : s.request.dst.fixed.i = s.request.dst.fixed.w := hi.trans (SpecRecord.fixed_w hd).symm
  have hf : s.request.dst.fixed.f = 0 := by rw [FixedSpec.f, hint, sub_self]
  have hres : tointResult s.cfg s.request =
      .ok (.ofR (bitsOf s.request.dst.w.toNat ⌊fxVal s.request.srcA.fixed s.request.a⌋)) := by
    simp only [tointResult, fixedOperand_of_legal ha pa, fixedSpec_of_legal hd, bind_ok, decide_eq_true hint,
      require_true, quantize_truncate_wrap, hf, zpow_zero, mul_one]
    rfl
  exact (congrArg (serve s) hres).trans (serve_answer hh)

/-! ## Shifts by the width or more (R186 (g)) -/

section
variable {cfg : Config} {d : FixedSpec} {p : Bits} {k : ℤ} {n : ℕ}

/-- The low bits of a multiple of `2 ^ W` are clear. -/
theorem bitsOf_mul_two_pow {w : ℕ} (h : w ≤ n) : bitsOf w (k * 2 ^ n) = bitsOf w 0 := by
  have hdvd : ((2 ^ w : ℕ) : ℤ) ∣ k * 2 ^ n := by
    push_cast
    exact (pow_dvd_pow 2 h).mul_left k
  have hval : BitVec.ofInt w (k * 2 ^ n) = BitVec.ofInt w 0 := by
    apply BitVec.eq_of_toNat_eq
    simp only [BitVec.toNat_ofInt, Int.emod_eq_zero_of_dvd hdvd, Int.zero_emod]
  rw [bitsOf, bitsOf, hval]

/-- The range of a spec lies below `2 ^ W` in magnitude (R72). -/
theorem FixedSpec.range_two_pow (d : FixedSpec) : -2 ^ d.w ≤ d.kmin ∧ d.kmax < 2 ^ d.w := by
  have hpow : (0 : ℤ) < 2 ^ d.w := by positivity
  have hle : (2 : ℤ) ^ (d.w - 1) ≤ 2 ^ d.w := pow_le_pow_right₀ one_le_two (Nat.sub_le _ _)
  unfold FixedSpec.kmin FixedSpec.kmax
  split <;> constructor <;> omega

/-- An integer moved left by the width or more is 0 or beyond the range on its own side. -/
theorem saturate_mul_two_pow (d : FixedSpec) (k : ℤ) (hn : d.w ≤ n) :
    max d.kmin (min (k * 2 ^ n) d.kmax) = if k = 0 then 0 else if 0 < k then d.kmax else d.kmin := by
  obtain ⟨hmin, hmax⟩ := d.range_two_pow
  obtain ⟨h0, h1⟩ := d.kmin_le_zero_le_kmax
  have hpow : (2 : ℤ) ^ d.w ≤ 2 ^ n := pow_le_pow_right₀ one_le_two hn
  rcases lt_trichotomy k 0 with hk | rfl | hk
  · have : k * 2 ^ n ≤ -1 * 2 ^ n := by gcongr; omega
    rw [if_neg hk.ne, if_neg hk.not_gt]
    omega
  · rw [if_pos rfl]
    omega
  · have : 1 * 2 ^ n ≤ k * 2 ^ n := by gcongr; omega
    rw [if_neg hk.ne', if_pos hk]
    omega

/-- An integer of the range moved right by the width or more is 0 or −1. -/
theorem floor_div_two_pow (hn : d.w ≤ n) (h1 : d.kmin ≤ k) (h2 : k ≤ d.kmax) :
    ⌊(k : ℚ) / 2 ^ n⌋ = if 0 ≤ k then 0 else -1 := by
  obtain ⟨hmin, hmax⟩ := d.range_two_pow
  have hpow : (2 : ℤ) ^ d.w ≤ 2 ^ n := pow_le_pow_right₀ one_le_two hn
  have hpos : (0 : ℚ) < 2 ^ n := by positivity
  have hlow : (-(2 ^ n) : ℚ) ≤ k := by exact_mod_cast (by omega : -2 ^ n ≤ k)
  have hhigh : (k : ℚ) < 2 ^ n := by exact_mod_cast (by omega : k < 2 ^ n)
  rw [Int.floor_eq_iff, le_div_iff₀ hpos, div_lt_iff₀ hpos]
  split
  · rename_i hk
    have hk' : (0 : ℚ) ≤ k := by exact_mod_cast hk
    push_cast
    constructor <;> linarith
  · rename_i hk
    have hk' : (k : ℚ) < 0 := by exact_mod_cast not_le.mp hk
    push_cast
    constructor <;> linarith

/-- A value moved left, in quanta of its own spec. -/
theorem fxVal_shl_units (d : FixedSpec) (p : Bits) (n : ℕ) :
    fxVal d p * 2 ^ (n : ℤ) * 2 ^ d.f = (fixedInt d.s p * 2 ^ n : ℤ) := by
  have hx := fxVal_mul_zpow d p (fd := d.f) (n := 0) (sub_self _)
  rw [mul_right_comm, hx, zpow_natCast]
  push_cast
  ring

/-- A value moved right, in quanta of its own spec. -/
theorem fxVal_shr_units (d : FixedSpec) (p : Bits) (n : ℕ) :
    fxVal d p * 2 ^ (-n : ℤ) * 2 ^ d.f = fixedInt d.s p / 2 ^ n := by
  have hx := fxVal_mul_zpow d p (fd := d.f) (n := 0) (sub_self _)
  rw [mul_right_comm, hx, zpow_neg, zpow_natCast, pow_zero, mul_one, div_eq_mul_inv]

theorem quantize_shl_wrap (hn : d.w ≤ n) :
    quantize cfg (fxVal d p * 2 ^ (n : ℤ)) d .truncate .wrap = bitsOf d.w 0 := by
  rw [quantize_truncate_wrap, fxVal_shl_units, Int.floor_intCast, bitsOf_mul_two_pow hn]

theorem quantize_shl_saturate (hn : d.w ≤ n) :
    quantize cfg (fxVal d p * 2 ^ (n : ℤ)) d .truncate .saturate =
      bitsOf d.w (if fixedInt d.s p = 0 then 0 else if 0 < fixedInt d.s p then d.kmax else d.kmin) := by
  rw [quantize, fitBits, roundRat_of_int cfg .truncate (fxVal_shl_units d p n), fitInt_saturate,
    saturate_mul_two_pow d _ hn]

theorem quantize_shr_wrap (hn : d.w ≤ n) (hp : p.width = d.w) :
    quantize cfg (fxVal d p * 2 ^ (-n : ℤ)) d .truncate .wrap = bitsOf d.w (if 0 ≤ fixedInt d.s p then 0 else -1) := by
  obtain ⟨h1, h2⟩ := fixedInt_range p hp
  rw [quantize_truncate_wrap, fxVal_shr_units, floor_div_two_pow hn h1 h2]

theorem SpecRecord.fixed_s (rec : SpecRecord) : rec.fixed.s = rec.s := rfl

/-- A pattern that fits a legal record has the width of the record's spec. -/
theorem SpecRecord.width_eq {rec : SpecRecord} (hl : rec.FixedLegal cfg) (hp : rec.Fits p) :
    p.width = rec.fixed.w := by
  have hw := SpecRecord.fixed_w hl
  exact_mod_cast hp.trans hw.symm

end

/-- Settles O30: into the operand's own spec the exact result is the operand's integer times or over `2 ^ N`. -/
theorem shiftsByTheWidthOrMore : Obligations.ShiftsByTheWidthOrMore := by
  intro s h hd hn
  have ⟨_, ha, pa, _⟩ := h
  have hw := SpecRecord.fixed_w ha
  obtain ⟨n, hN⟩ : ∃ n : ℕ, s.request.n = n := ⟨s.request.n.toNat, by omega⟩
  have hwn : s.request.srcA.fixed.w ≤ n := by omega
  have h0 : 0 ≤ s.request.n := by omega
  have hshl := fun o => serve_fixedShift (o := o) (fun a n => a.val * 2 ^ n) h (q := 0#3) rfl h0
  have hshr := fun o => serve_fixedShift (o := o) (fun a n => a.val * 2 ^ (-n)) h (q := 0#3) rfl h0
  simp only [hd, hN, Request.fixedA_val] at hshl hshr ⊢
  refine ⟨(hshl _).trans ?_, (hshl _).trans ?_, (hshr _).trans ?_⟩
  · rw [quantize_shl_wrap hwn]
  · rw [quantize_shl_saturate hwn, SpecRecord.fixed_s]
  · rw [quantize_shr_wrap hwn (SpecRecord.width_eq ha pa), SpecRecord.fixed_s]

end Sys2Proof.Machine
end

section
/-! PROOFS. The operators on bits: the infinite expansions that the bitwise operators and the complement give, and the
bits of a slice taken and of a slice replaced. -/

namespace Sys2Proof.Machine

/-! ## Infinite expansions (R12, R159) -/

/-- The expansion of a natural number. -/
theorem bitAt_ofNat (m n : ℕ) : bitAt (.ofNat m) n = m.testBit n := by
  have hdiv : (Int.ofNat m / 2 ^ n % 2 : ℤ) = (m / 2 ^ n % 2 : ℕ) := by
    push_cast
    rfl
  rw [Nat.testBit_eq_decide_div_mod_eq, bitAt, hdiv]
  exact decide_eq_decide.mpr Nat.cast_eq_one

/-- The expansion of `-k - 1` is that of `k` complemented. -/
theorem bitAt_bitNot (k : ℤ) (n : ℕ) : bitAt (bitNot k) n = !bitAt k n := by
  have hdiv : (-k - 1) / 2 ^ n = -(k / 2 ^ n) - 1 := by
    have hpow : (0 : ℤ) < 2 ^ n := by positivity
    have h0 := Int.emod_nonneg k hpow.ne'
    have h1 := Int.emod_lt_of_pos k hpow
    have hk := Int.mul_ediv_add_emod k (2 ^ n)
    rw [Int.ediv_eq_iff_of_pos hpow]
    constructor <;> linarith
  rw [bitAt, bitNot, hdiv, bitAt, ← decide_not]
  exact decide_eq_decide.mpr (by omega)

/-- A negative number is the complement of the natural number its constructor holds. -/
theorem bitAt_negSucc (m n : ℕ) : bitAt (.negSucc m) n = !m.testBit n := by
  have hneg : Int.negSucc m = bitNot (.ofNat m) := by
    simp only [bitNot, Int.negSucc_eq, Int.ofNat_eq_natCast]
    ring
  rw [hneg, bitAt_bitNot, bitAt_ofNat]

theorem bitAt_bitAnd (a b : ℤ) (n : ℕ) : bitAt (bitAnd a b) n = (bitAt a n && bitAt b n) := by
  cases a with
  | ofNat a =>
    cases b with
    | ofNat b => simp only [bitAnd, bitAt_ofNat, Nat.testBit_and]
    | negSucc b =>
      simp only [bitAnd, bitAt_ofNat, bitAt_negSucc, Nat.testBit_xor, Nat.testBit_and]
      cases a.testBit n <;> simp
  | negSucc a =>
    cases b with
    | ofNat b =>
      simp only [bitAnd, bitAt_ofNat, bitAt_negSucc, Nat.testBit_xor, Nat.testBit_and]
      cases b.testBit n <;> simp
    | negSucc b => simp only [bitAnd, bitAt_negSucc, Nat.testBit_or, Bool.not_or]

theorem bitAt_bitOr (a b : ℤ) (n : ℕ) : bitAt (bitOr a b) n = (bitAt a n || bitAt b n) := by
  simp only [bitOr, bitAt_bitNot, bitAt_bitAnd, Bool.not_and, Bool.not_not]

theorem bitAt_bitXor (a b : ℤ) (n : ℕ) : bitAt (bitXor a b) n = (bitAt a n ^^ bitAt b n) := by
  cases a with
  | ofNat a => cases b <;> simp only [bitXor, bitAt_ofNat, bitAt_negSucc, Nat.testBit_xor, Bool.bne_not]
  | negSucc a =>
    cases b <;> simp only [bitXor, bitAt_ofNat, bitAt_negSucc, Nat.testBit_xor, Bool.not_bne, Bool.bne_not, Bool.not_not]

/-- Settles O28: the integers are those of the three operators on the aligned operands. -/
theorem fxBitwiseResults : Obligations.FxBitwiseResults := fun _ _ _ _ h hm =>
  ⟨_, _, _, bitAt_bitAnd _ _, bitAt_bitOr _ _, bitAt_bitXor _ _,
    serve_fixedBinary h hm rfl, serve_fixedBinary h hm rfl, serve_fixedBinary h hm rfl⟩

/-- Settles O31: the exact results are those of the value, and the complement's integer has every bit inverted. -/
theorem fxUnaryResults : Obligations.FxUnaryResults := fun _ _ _ _ h hm =>
  ⟨serve_fixedUnary _ h hm, serve_fixedUnary _ h hm, serve_fixedUnary _ h hm, _, bitAt_bitNot _,
    serve_fixedUnary _ h hm⟩

/-! ## Slices (R178, R180, R181) -/

theorem testBit_uint (p : Bits) (k : ℕ) : (uint p).testBit k = p.val.getLsbD k := BitVec.testBit_toNat p.val

/-- The bits of a slice. -/
theorem getLsbD_sliceOf (p : Bits) {lsb n k : ℕ} (hk : k < n) :
    (sliceOf p lsb n).val.getLsbD k = p.val.getLsbD (lsb + k) := by
  simp only [sliceOf, BitVec.getLsbD_ofNat, hk, decide_true, Bool.true_and, Nat.testBit_div_two_pow,
    Nat.add_comm k, testBit_uint]

/-- The bits of a pattern with a slice replaced: those of the new slice inside it, and the pattern's own above and
below. -/
theorem getLsbD_withSlice (p : Bits) {lsb n v k : ℕ} (hk : k < p.width) :
    (withSlice p lsb n v).val.getLsbD k =
      if lsb ≤ k ∧ k < lsb + n then v.testBit (k - lsb) else p.val.getLsbD k := by
  have hsum : uint p / 2 ^ (lsb + n) * 2 ^ (lsb + n) + v % 2 ^ n * 2 ^ lsb + uint p % 2 ^ lsb =
      2 ^ lsb * (2 ^ n * (uint p / 2 ^ (lsb + n)) + v % 2 ^ n) + uint p % 2 ^ lsb := by ring
  have hlow : uint p % 2 ^ lsb < 2 ^ lsb := Nat.mod_lt _ (by positivity)
  have hmid : v % 2 ^ n < 2 ^ n := Nat.mod_lt _ (by positivity)
  simp only [withSlice, BitVec.getLsbD_ofNat, hk, decide_true, Bool.true_and, hsum,
    Nat.testBit_two_pow_mul_add _ hlow, Nat.testBit_two_pow_mul_add _ hmid, Nat.testBit_mod_two_pow,
    Nat.testBit_div_two_pow, testBit_uint]
  rcases lt_or_ge k lsb with h | h
  · rw [if_pos h, if_neg (by omega), decide_eq_true h, Bool.true_and]
  · rw [if_neg h.not_gt]
    rcases lt_or_ge k (lsb + n) with h' | h'
    · rw [if_pos (by omega), if_pos ⟨h, h'⟩, decide_eq_true (by omega), Bool.true_and]
    · rw [if_neg (by omega), if_neg (by omega), show k - lsb - n + (lsb + n) = k by omega]

section
variable {cfg : Config} {r : Request}

/-- Outside the range rule of R178 the slice check on the spec's width fails. -/
theorem sliceInRange_of_not {lsb n : ℤ} (ha : r.srcA.FixedLegal cfg)
    (hr : ¬ (0 ≤ lsb ∧ 1 ≤ n ∧ lsb + n ≤ r.srcA.w)) : sliceInRange r.srcA.fixed.w lsb n = false := by
  have hw := SpecRecord.fixed_w ha
  rw [← Bool.not_eq_true]
  simpa only [sliceInRange, hw, Bool.and_eq_true, decide_eq_true_eq, and_assoc] using hr

/-- FX.SLC of a legal request. -/
theorem slcResult_eq (ha : r.srcA.FixedLegal cfg) (pa : r.srcA.Fits r.a) :
    slcResult cfg r = if sliceInRange r.srcA.fixed.w r.lsb r.n then
      .ok (.ofR (sliceOf r.a r.lsb.toNat r.n.toNat)) else .error .sliceOutOfRange := by
  simp only [slcResult, fixedOperand_of_legal ha pa, bind_ok, require, bind_ite]
  rfl

/-- FX.SETSLC of a legal request. -/
theorem setslcResult_eq (ha : r.srcA.FixedLegal cfg) (pa : r.srcA.Fits r.a) (hb : r.srcB.FixedLegal cfg)
    (pb : r.srcB.Fits r.b) (hn : r.srcB.w = r.n) :
    setslcResult cfg r = if sliceInRange r.srcA.fixed.w r.lsb r.n then
      .ok (.ofR (withSlice r.a r.lsb.toNat r.n.toNat (uint r.b))) else .error .sliceOutOfRange := by
  have hwn : decide (((r.srcB.fixedOf r.b).spec.w : ℤ) = r.n) = true :=
    decide_eq_true ((SpecRecord.fixed_w hb).trans hn)
  simp only [setslcResult, fixedOperand_of_legal ha pa, fixedOperand_of_legal hb pb, bind_ok, hwn, require_true]
  simp only [require, bind_ite]
  rfl

end

/-- Settles O34: the range check is the rule of R178, and the bits are those of the slice taken or replaced. -/
theorem fxSliceResults : Obligations.FxSliceResults := by
  intro s hh ha pa
  have hslc := slcResult_eq ha pa
  refine ⟨fun hr => ?_, fun hr => ?_, fun hb pb hn => ?_⟩
  · rw [if_pos (sliceInRange_of ha hr)] at hslc
    exact ⟨_, (congrArg (serve s) hslc).trans (serve_answer hh), rfl, fun k hk => getLsbD_sliceOf _ hk⟩
  · rw [if_neg (by simp [sliceInRange_of_not ha hr])] at hslc
    exact (congrArg (serve s) hslc).trans (serve_error hh _)
  · have hset := setslcResult_eq ha pa hb pb hn
    refine ⟨fun hr => ?_, fun hr => ?_⟩
    · rw [if_pos (sliceInRange_of ha hr)] at hset
      refine ⟨_, (congrArg (serve s) hset).trans (serve_answer hh), rfl, fun k hk => ?_⟩
      rw [getLsbD_withSlice _ hk]
      exact if_congr (by omega) (testBit_uint _ _) rfl
    · rw [if_neg (by simp [sliceInRange_of_not ha hr])] at hset
      exact (congrArg (serve s) hset).trans (serve_error hh _)

end Sys2Proof.Machine
end

section
/-! PROOFS. The promoted result specs: what the range of a spec says of its integers and their bits, the common spec of
two operands, and that each promoted spec holds the exact result of its operator. -/

namespace Sys2Proof.Machine

/-! ## The integers of a spec (R72) -/

/-- The integer lies in the range of the spec. -/
def FixedSpec.Holds (d : FixedSpec) (k : ℤ) : Prop := d.kmin ≤ k ∧ k ≤ d.kmax

section
variable {c d : FixedSpec} {k l : ℤ}

theorem FixedSpec.holds_signed (hs : d.s = true) : d.Holds k ↔ -2 ^ (d.w - 1) ≤ k ∧ k < 2 ^ (d.w - 1) := by
  rw [FixedSpec.Holds, FixedSpec.kmin, FixedSpec.kmax, if_pos hs, if_pos hs, Int.le_sub_one_iff]

theorem FixedSpec.holds_unsigned (hs : d.s = false) : d.Holds k ↔ 0 ≤ k ∧ k < 2 ^ d.w := by
  rw [FixedSpec.Holds, FixedSpec.kmin, FixedSpec.kmax, if_neg (by simp [hs]), if_neg (by simp [hs]),
    Int.le_sub_one_iff]

/-- A further bit doubles the powers that bound the range (R72). -/
theorem two_pow_of_succ_width (hw : 1 ≤ c.w) (hd : d.w = c.w + 1) :
    (2 : ℤ) ^ (d.w - 1) = 2 * 2 ^ (c.w - 1) ∧ (2 : ℤ) ^ d.w = 2 * 2 ^ c.w ∧ (2 : ℤ) ^ c.w = 2 * 2 ^ (c.w - 1) := by
  obtain ⟨n, hn⟩ : ∃ n, c.w = n + 1 := ⟨c.w - 1, by omega⟩
  rw [hd, hn]
  simp only [Nat.add_sub_cancel, pow_succ]
  exact ⟨by ring, by ring, by ring⟩

/-- One bit more holds a sum (R155). -/
theorem FixedSpec.Holds.add (hw : 1 ≤ c.w) (hd : d.w = c.w + 1) (hs : d.s = c.s) (hk : c.Holds k) (hl : c.Holds l) :
    d.Holds (k + l) := by
  obtain ⟨h1, h2, -⟩ := two_pow_of_succ_width hw hd
  cases hc : c.s with
  | true =>
    rw [FixedSpec.holds_signed hc] at hk hl
    rw [FixedSpec.holds_signed (hs.trans hc)]
    omega
  | false =>
    rw [FixedSpec.holds_unsigned hc] at hk hl
    rw [FixedSpec.holds_unsigned (hs.trans hc)]
    omega

/-- One bit more, and a sign, hold a difference (R156). -/
theorem FixedSpec.Holds.sub (hw : 1 ≤ c.w) (hd : d.w = c.w + 1) (hs : d.s = true) (hk : c.Holds k) (hl : c.Holds l) :
    d.Holds (k - l) := by
  obtain ⟨h1, -, h3⟩ := two_pow_of_succ_width hw hd
  rw [FixedSpec.holds_signed hs]
  cases hc : c.s with
  | true =>
    rw [FixedSpec.holds_signed hc] at hk hl
    omega
  | false =>
    rw [FixedSpec.holds_unsigned hc] at hk hl
    omega

/-- A spec holds integers below `2 ^ W` in magnitude, a signed one only up to half of that. -/
theorem FixedSpec.Holds.abs_le_of_signed (hs : d.s = true) (hk : d.Holds k) : |k| ≤ 2 ^ (d.w - 1) := by
  obtain ⟨h1, h2⟩ := (FixedSpec.holds_signed hs).mp hk
  exact abs_le.mpr ⟨h1, h2.le⟩

theorem FixedSpec.Holds.abs_lt_two_pow (hw : 1 ≤ d.w) (hk : d.Holds k) : |k| < 2 ^ d.w := by
  cases hs : d.s with
  | true => exact (hk.abs_le_of_signed hs).trans_lt (pow_lt_pow_right₀ one_lt_two (by omega))
  | false =>
    obtain ⟨h1, h2⟩ := (FixedSpec.holds_unsigned hs).mp hk
    rwa [abs_of_nonneg h1]

/-- A product with a signed factor keeps a bit for the sign. -/
theorem FixedSpec.Holds.abs_mul_lt (hs : c.s = true) (hc : 1 ≤ c.w) (hd : 1 ≤ d.w) (hk : c.Holds k) (hl : d.Holds l) :
    |k * l| < 2 ^ (c.w + d.w - 1) := by
  calc |k * l| = |k| * |l| := abs_mul k l
    _ ≤ 2 ^ (c.w - 1) * |l| := by gcongr; exact hk.abs_le_of_signed hs
    _ < 2 ^ (c.w - 1) * 2 ^ d.w := by gcongr; exact hl.abs_lt_two_pow hd
    _ = 2 ^ (c.w + d.w - 1) := by rw [← pow_add, Nat.sub_add_comm hc]

/-- The widths of the factors together hold a product (R157). -/
theorem FixedSpec.Holds.mul (hc : 1 ≤ c.w) (hd : 1 ≤ d.w) (hk : c.Holds k) (hl : d.Holds l) :
    (promotedMul c d).Holds (k * l) := by
  cases hcs : c.s with
  | true =>
    rw [FixedSpec.holds_signed (by simp [promotedMul, hcs])]
    obtain ⟨h1, h2⟩ := abs_lt.mp (hk.abs_mul_lt hcs hc hd hl)
    exact ⟨h1.le, h2⟩
  | false =>
    cases hds : d.s with
    | true =>
      rw [FixedSpec.holds_signed (by simp [promotedMul, hds])]
      obtain ⟨h1, h2⟩ := abs_lt.mp (hl.abs_mul_lt hds hd hc hk)
      rw [mul_comm l k, add_comm d.w c.w] at h1 h2
      exact ⟨h1.le, h2⟩
    | false =>
      rw [FixedSpec.holds_unsigned hcs] at hk
      rw [FixedSpec.holds_unsigned hds] at hl
      rw [FixedSpec.holds_unsigned (by simp [promotedMul, hcs, hds]), promotedMul, pow_add]
      exact ⟨mul_nonneg hk.1 hl.1, mul_lt_mul'' hk.2 hl.2 hk.1 hl.1⟩

/-- The spec of both operands holds what a bitwise operator makes of them: above the kept width their bits are sign bits,
or clear, and so are the result's (R119, R159). -/
theorem FixedSpec.Holds.bitwise {op : ℤ → ℤ → ℤ} (g : Bool → Bool → Bool)
    (hop : ∀ k l n, bitAt (op k l) n = g (bitAt k n) (bitAt l n)) (hg : g false false = false)
    (hk : d.Holds k) (hl : d.Holds l) : d.Holds (op k l) := by
  cases hs : d.s with
  | true =>
    rw [FixedSpec.holds_signed hs, ← sign_bits_iff] at hk hl ⊢
    intro n hn
    rw [hop, hop, hk n hn, hl n hn]
  | false =>
    rw [FixedSpec.holds_unsigned hs, ← zero_bits_iff] at hk hl ⊢
    intro n hn
    rw [hop, hk n hn, hl n hn, hg]

/-- A sign holds the complement, in a further bit where the operand had none (R152, R167). -/
theorem FixedSpec.Holds.complement (hk : d.Holds k) : (promotedNot d).Holds (bitNot k) := by
  rw [FixedSpec.holds_signed rfl, bitNot]
  cases hs : d.s with
  | true =>
    rw [FixedSpec.holds_signed hs] at hk
    simp only [promotedNot, hs, Bool.not_true, Bool.toNat_false, Nat.add_zero]
    omega
  | false =>
    rw [FixedSpec.holds_unsigned hs] at hk
    simp only [promotedNot, hs, Bool.not_false, Bool.toNat_true, Nat.add_sub_cancel]
    omega

/-- A value whose integer the spec holds is quantized exactly. -/
theorem FixedSpec.Holds.quantize_exact (cfg : Config) (hw : 1 ≤ d.w) {x : ℚ} (hx : x = k * 2 ^ (-d.f))
    (hk : d.Holds k) : fxVal d (quantize cfg x d .truncate .wrap) = x := by
  obtain ⟨h1, h2⟩ := hk
  have hunits : x * 2 ^ d.f = k := by rw [hx, zpow_neg_mul_zpow, sub_self, zpow_zero, mul_one]
  have hex : ¬ d.Excludes .wrap k := by rintro ⟨ho, -⟩; cases ho
  rw [quantize_of_int cfg hunits h1 h2 hex, fxVal, fixedInt_bitsOf hw h1 h2, hx]

end

/-! ## The common spec of two operands (R152, R159) -/

/-- A grid of at least the operand's fractional bits, with room for its integer bits and a sign where one is added, holds
its aligned integer. -/
theorem FixedOperand.holds_aligned {a : FixedOperand} {c : FixedSpec} (hw : 1 ≤ a.spec.w) (hf : a.spec.f ≤ c.f)
    (hi : a.spec.i + (c.s && !a.spec.s).toNat ≤ c.i) (hs : a.spec.s = true → c.s = true) (hk : a.spec.Holds a.k) :
    c.Holds (a.aligned c.f) := by
  obtain ⟨n, hn⟩ := Int.eq_ofNat_of_zero_le (sub_nonneg.mpr hf)
  have hwn : a.spec.w + n + (c.s && !a.spec.s).toNat ≤ c.w := by
    simp only [FixedSpec.f] at hn
    omega
  rw [FixedOperand.aligned, hn, Int.toNat_natCast]
  by_cases hsame : c.s = a.spec.s
  · obtain ⟨hmin, hmax⟩ := range_scale hsame hw (n := n) (by omega)
    obtain ⟨h1, h2⟩ := hk
    have hpos : (0 : ℤ) < 2 ^ n := by positivity
    have hlow : a.spec.kmin * 2 ^ n ≤ a.k * 2 ^ n := by gcongr
    have hhigh : (a.k + 1) * 2 ^ n ≤ (a.spec.kmax + 1) * 2 ^ n := by gcongr
    exact ⟨hmin.trans hlow, by linarith⟩
  · have ha : a.spec.s = false := Bool.eq_false_iff.mpr fun ha => hsame ((hs ha).trans ha.symm)
    have hc : c.s = true := Bool.eq_true_of_not_eq_false (ha ▸ hsame)
    rw [FixedSpec.holds_unsigned ha] at hk
    rw [hc, ha] at hwn
    simp only [Bool.not_false, Bool.and_true, Bool.toNat_true] at hwn
    have hpow : (2 : ℤ) ^ a.spec.w * 2 ^ n ≤ 2 ^ (c.w - 1) := by
      rw [← pow_add]
      exact pow_le_pow_right₀ one_le_two (by omega)
    have hhigh : a.k * 2 ^ n < 2 ^ a.spec.w * 2 ^ n := by gcongr; exact hk.2
    have hlow : 0 ≤ a.k * 2 ^ n := mul_nonneg hk.1 (by positivity)
    rw [FixedSpec.holds_signed hc]
    constructor <;> linarith

/-- The parts of a spec add up to its width. -/
theorem specOfParts_w {i f : ℤ} (s : Bool) (h : 0 ≤ i + f) : ((specOfParts i f s).w : ℤ) = i + f :=
  Int.toNat_of_nonneg h

theorem specOfParts_f {i f : ℤ} (s : Bool) (h : 0 ≤ i + f) : (specOfParts i f s).f = f := by
  rw [FixedSpec.f, specOfParts_w s h]
  exact add_sub_cancel_left i f

section
variable (a b : FixedSpec)

/-- The common spec has room for the left operand. -/
theorem width_le_promotedI : (a.w : ℤ) ≤ promotedI a b + max a.f b.f := by
  unfold promotedI FixedSpec.f
  omega

theorem promotedBitwise_w : ((promotedBitwise a b).w : ℤ) = promotedI a b + max a.f b.f :=
  specOfParts_w _ ((Nat.cast_nonneg _).trans (width_le_promotedI a b))

theorem promotedBitwise_w_pos {a b : FixedSpec} (ha : 1 ≤ a.w) : 1 ≤ (promotedBitwise a b).w := by
  have h := width_le_promotedI a b
  have hw := promotedBitwise_w a b
  omega

theorem promotedBitwise_f : (promotedBitwise a b).f = max a.f b.f :=
  specOfParts_f _ ((Nat.cast_nonneg _).trans (width_le_promotedI a b))

/-- The specs of a sum and of a difference have one bit more, on the same grid. -/
theorem specOfParts_promotedI_succ (s : Bool) :
    (specOfParts (promotedI a b + 1) (max a.f b.f) s).w = (promotedBitwise a b).w + 1 ∧
      (specOfParts (promotedI a b + 1) (max a.f b.f) s).f = max a.f b.f := by
  have h := width_le_promotedI a b
  have hparts : 0 ≤ promotedI a b + 1 + max a.f b.f := by omega
  have hw := specOfParts_w s hparts
  have hc := promotedBitwise_w a b
  exact ⟨by omega, specOfParts_f s hparts⟩

theorem promotedMul_f : (promotedMul a b).f = a.f + b.f := by
  simp only [FixedSpec.f, promotedMul]
  push_cast
  ring

theorem promotedNeg_f : (promotedNeg a).f = a.f := by
  simp only [FixedSpec.f, promotedNeg]
  push_cast
  ring

theorem promotedNot_f : (promotedNot a).f = a.f := by
  simp only [FixedSpec.f, promotedNot]
  push_cast
  ring

end

/-- The common spec holds both aligned integers. -/
theorem promotedBitwise_holds_aligned {a b : FixedOperand} (hwa : 1 ≤ a.spec.w) (hwb : 1 ≤ b.spec.w)
    (ha : a.spec.Holds a.k) (hb : b.spec.Holds b.k) :
    (promotedBitwise a.spec b.spec).Holds (a.aligned (commonF a b)) ∧
      (promotedBitwise a.spec b.spec).Holds (b.aligned (commonF a b)) := by
  have hf : (promotedBitwise a.spec b.spec).f = commonF a b := promotedBitwise_f ..
  have hi : (promotedBitwise a.spec b.spec).i = promotedI a.spec b.spec := rfl
  have hs : (promotedBitwise a.spec b.spec).s = (a.spec.s || b.spec.s) := rfl
  rw [← hf]
  constructor
  · refine FixedOperand.holds_aligned hwa (hf ▸ le_max_left _ _) ?_ (fun h => by rw [hs, h, Bool.true_or]) ha
    rw [hi, hs, Bool.and_or_distrib_right, Bool.and_not_self, Bool.false_or]
    exact le_max_left _ _
  · refine FixedOperand.holds_aligned hwb (hf ▸ le_max_right _ _) ?_ (fun h => by rw [hs, h, Bool.or_true]) hb
    rw [hi, hs, Bool.and_or_distrib_right, Bool.and_not_self, Bool.or_false]
    exact le_max_right _ _

/-! ## The exact results (R152) -/

section
variable {cfg : Config} {a b : FixedOperand} (hwa : 1 ≤ a.spec.w) (hwb : 1 ≤ b.spec.w) (ha : a.spec.Holds a.k)
  (hb : b.spec.Holds b.k)
include hwa ha

theorem promotedNeg_exact :
    fxVal (promotedNeg a.spec) (quantize cfg (-a.val) (promotedNeg a.spec) .truncate .wrap) = -a.val := by
  have hk : (promotedNeg a.spec).Holds (0 - a.k) := .sub hwa rfl rfl a.spec.kmin_le_zero_le_kmax ha
  refine hk.quantize_exact cfg (Nat.le_add_left 1 _) ?_
  rw [promotedNeg_f, FixedOperand.val]
  push_cast
  ring

theorem promotedNot_exact :
    fxVal (promotedNot a.spec) (quantize cfg (bitNot a.k * 2 ^ (-a.spec.f)) (promotedNot a.spec) .truncate .wrap) =
      bitNot a.k * 2 ^ (-a.spec.f) :=
  ha.complement.quantize_exact cfg (le_add_right hwa) (by rw [promotedNot_f])

include hwb hb

/-- A product's integer is the product of the integers, on the grid of both fractions (R157). -/
theorem promotedMul_exact :
    fxVal (promotedMul a.spec b.spec) (quantize cfg (a.val * b.val) (promotedMul a.spec b.spec) .truncate .wrap) =
      a.val * b.val := by
  refine (ha.mul hwa hwb hb).quantize_exact cfg (le_add_right hwa) ?_
  rw [promotedMul_f, neg_add, zpow_add₀ two_ne_zero, FixedOperand.val, FixedOperand.val]
  push_cast
  ring

theorem promotedAdd_exact :
    fxVal (promotedAdd a.spec b.spec) (quantize cfg (a.val + b.val) (promotedAdd a.spec b.spec) .truncate .wrap) =
      a.val + b.val := by
  obtain ⟨hka, hkb⟩ := promotedBitwise_holds_aligned hwa hwb ha hb
  obtain ⟨hw, hf⟩ := specOfParts_promotedI_succ a.spec b.spec (a.spec.s || b.spec.s)
  have hk : (promotedAdd a.spec b.spec).Holds _ := hka.add (promotedBitwise_w_pos hwa) hw rfl hkb
  refine hk.quantize_exact cfg (hw ▸ Nat.le_add_left 1 _) ?_
  rw [promotedAdd, hf, FixedOperand.val_eq_aligned (a := a) (le_max_left _ b.spec.f),
    FixedOperand.val_eq_aligned (a := b) (le_max_right a.spec.f _)]
  push_cast
  exact (add_mul ..).symm

theorem promotedSub_exact :
    fxVal (promotedSub a.spec b.spec) (quantize cfg (a.val - b.val) (promotedSub a.spec b.spec) .truncate .wrap) =
      a.val - b.val := by
  obtain ⟨hka, hkb⟩ := promotedBitwise_holds_aligned hwa hwb ha hb
  obtain ⟨hw, hf⟩ := specOfParts_promotedI_succ a.spec b.spec true
  have hk : (promotedSub a.spec b.spec).Holds _ := hka.sub (promotedBitwise_w_pos hwa) hw rfl hkb
  refine hk.quantize_exact cfg (hw ▸ Nat.le_add_left 1 _) ?_
  rw [promotedSub, hf, FixedOperand.val_eq_aligned (a := a) (le_max_left _ b.spec.f),
    FixedOperand.val_eq_aligned (a := b) (le_max_right a.spec.f _)]
  push_cast
  exact (sub_mul ..).symm

/-- A bitwise operator acts inside the common spec. -/
theorem promotedBitwise_exact {op : ℤ → ℤ → ℤ} (g : Bool → Bool → Bool)
    (hop : ∀ k l n, bitAt (op k l) n = g (bitAt k n) (bitAt l n)) (hg : g false false = false) :
    fxVal (promotedBitwise a.spec b.spec)
      (quantize cfg (bitwiseValue op a b) (promotedBitwise a.spec b.spec) .truncate .wrap) = bitwiseValue op a b := by
  obtain ⟨hka, hkb⟩ := promotedBitwise_holds_aligned hwa hwb ha hb
  exact (hka.bitwise g hop hg hkb).quantize_exact cfg (promotedBitwise_w_pos hwa) (by rw [promotedBitwise_f]; rfl)

end

/-- Settles O37: each promoted spec holds the integer of its operator's exact result, on the grid of that result. -/
theorem promotedSpecsHoldTheExactResult : Obligations.PromotedSpecsHoldTheExactResult := by
  intro cfg a b hwa hwb ha1 ha2 hb1 hb2
  have ha : a.spec.Holds a.k := ⟨ha1, ha2⟩
  have hb : b.spec.Holds b.k := ⟨hb1, hb2⟩
  exact ⟨promotedAdd_exact hwa hwb ha hb, promotedSub_exact hwa hwb ha hb, promotedMul_exact hwa hwb ha hb,
    promotedNeg_exact hwa ha, promotedNot_exact hwa ha, promotedBitwise_exact hwa hwb ha hb and bitAt_bitAnd rfl,
    promotedBitwise_exact hwa hwb ha hb or bitAt_bitOr rfl, promotedBitwise_exact hwa hwb ha hb xor bitAt_bitXor rfl⟩

end Sys2Proof.Machine
end

section
/-! PROOFS. Extract, and FP.RNDASM: the value of the extract record, what the flush and the normalization make of it,
and what the two operations answer. -/

namespace Sys2Proof.Machine

/-! ## The extract record (R202, R203) -/

section
variable {a : FloatOperand}

/-- The value of a finite pattern is that of its extract record (R203). -/
theorem FloatOperand.val_eq_extract_val (h : a.Finite) : a.val = a.extract.val a.spec := by
  obtain ⟨hnan, hinf⟩ := h
  cases hc : a.cls with
  | zero =>
    obtain ⟨he, hm⟩ := cls_eq_zero_iff.mp hc
    simp [FloatOperand.val, Extracted.val, FloatOperand.extract, hc, he, hm]
  | subnormal =>
    obtain ⟨he, -⟩ := cls_eq_subnormal_iff.mp hc
    simp [FloatOperand.val, Extracted.val, FloatOperand.extract, hc, he]
  | normal =>
    have he := ef_ne_zero_of_normal hc
    simp only [FloatOperand.val, Extracted.val, FloatOperand.extract, hc, if_pos he]
  | infinity => exact absurd hc hinf
  | nan => exact absurd hc hnan

theorem FloatOperand.finite_of_subnormal (h : a.cls = .subnormal) : a.Finite := by simp [FloatOperand.Finite, h]

/-- The mantissa of a Normal has its leading bit (R203). -/
theorem FloatOperand.le_extract_mant_of_normal (h : a.cls = .normal) : 2 ^ a.spec.m ≤ a.extract.mant := by
  simp only [FloatOperand.extract, if_pos (ef_ne_zero_of_normal h)]
  omega

/-- That of a Subnormal is its mantissa field, which is not 0 (R203). -/
theorem FloatOperand.extract_mant_of_subnormal (h : a.cls = .subnormal) :
    a.extract.mant = a.mf ∧ 0 < a.extract.mant ∧ a.extract.mant < 2 ^ a.spec.m := by
  obtain ⟨he, hm⟩ := cls_eq_subnormal_iff.mp h
  have hmant : a.extract.mant = a.mf := by simp [FloatOperand.extract, he]
  rw [hmant]
  exact ⟨rfl, Nat.pos_of_ne_zero hm, a.mf_lt⟩

/-- That of a Zero is 0 (R203). -/
theorem FloatOperand.extract_mant_of_zero (h : a.cls = .zero) : a.extract.mant = 0 := by
  obtain ⟨he, hm⟩ := cls_eq_zero_iff.mp h
  simp [FloatOperand.extract, he, hm]

/-- The exponent of a Subnormal is the least one (R202). -/
theorem FloatOperand.extract_exp_of_subnormal (h : a.cls = .subnormal) : a.extract.exp = a.spec.emin := by
  obtain ⟨he, -⟩ := cls_eq_subnormal_iff.mp h
  simp [FloatOperand.extract, he]

end

/-- Settles O38, by the class of the pattern. -/
theorem extractRecordHasTheValue : Obligations.ExtractRecordHasTheValue := by
  intro a _ hfin
  exact ⟨a.val_eq_extract_val hfin, fun h => ⟨a.le_extract_mant_of_normal h, a.extract_mant_lt⟩,
    fun h => (a.extract_mant_of_subnormal h).2, a.extract_mant_of_zero⟩

/-! ## The flush and the normalization (R205, R206) -/

section
variable (f : FloatSpec) {x : Extracted}

/-- `NOSUB` makes a Subnormal the zero of its sign (R205). -/
theorem Extracted.flush_of_subnormal (h : x.cls = .subnormal) : x.flush f true = ⟨.zero, x.sign, f.emin, 0⟩ := by
  simp [Extracted.flush, h]

/-- Nothing else is flushed. -/
theorem Extracted.flush_of_not {nosub : Bool} (h : ¬ (x.cls = .subnormal ∧ nosub = true)) : x.flush f nosub = x := by
  rw [Extracted.flush, if_neg]
  simpa [and_comm] using h

/-- Nothing but a Subnormal under `NORM` is normalized (R206). -/
theorem Extracted.normalize_of_not {norm : Bool} (h : ¬ (x.cls = .subnormal ∧ norm = true)) :
    x.normalize f norm = x := by
  rw [Extracted.normalize, if_neg]
  simpa [and_comm] using h

/-- The normalization keeps class and sign. -/
theorem Extracted.normalize_cls_sign (norm : Bool) :
    (x.normalize f norm).cls = x.cls ∧ (x.normalize f norm).sign = x.sign := by
  unfold Extracted.normalize
  split <;> exact ⟨rfl, rfl⟩

/-- The normalization keeps the value: each place shifted in is taken off the exponent (R206). -/
theorem Extracted.normalize_val (norm : Bool) : (x.normalize f norm).val f = x.val f := by
  unfold Extracted.normalize
  split
  · generalize f.m - Nat.log2 x.mant = lz
    have hexp : x.exp - f.m = x.exp - lz - f.m + lz := by ring
    simp only [Extracted.val, hexp, two_zpow_add_natCast]
    push_cast
    ring
  · rfl

/-- The normalization brings the leading bit of a Subnormal's mantissa to bit `M` (R206). -/
theorem Extracted.normalize_range (h : x.cls = .subnormal) (h0 : 0 < x.mant) (hm : x.mant < 2 ^ f.m) :
    (x.normalize f true).exp < x.exp ∧ 2 ^ f.m ≤ (x.normalize f true).mant ∧
      (x.normalize f true).mant < 2 ^ (f.m + 1) := by
  have hlog : Nat.log2 x.mant < f.m := (Nat.log2_lt h0.ne').mpr hm
  have hlow := Nat.log2_self_le h0.ne'
  have hhigh := Nat.lt_log2_self (n := x.mant)
  rw [Extracted.normalize, if_pos (by simp [h])]
  obtain ⟨lz, hlz⟩ : ∃ lz, f.m = Nat.log2 x.mant + lz := ⟨f.m - Nat.log2 x.mant, by omega⟩
  simp only [show f.m - Nat.log2 x.mant = lz by omega]
  refine ⟨by omega, ?_, ?_⟩
  · calc 2 ^ f.m = 2 ^ Nat.log2 x.mant * 2 ^ lz := by rw [hlz, pow_add]
      _ ≤ x.mant * 2 ^ lz := Nat.mul_le_mul_right _ hlow
  · calc x.mant * 2 ^ lz < 2 ^ (Nat.log2 x.mant + 1) * 2 ^ lz := Nat.mul_lt_mul_of_pos_right hhigh (by positivity)
      _ = 2 ^ (f.m + 1) := by rw [hlz, ← pow_add, Nat.add_right_comm]

end

/-! ## FP.EXTRACT (R204) -/

/-- The record FP.EXTRACT hands over (R204). -/
def FloatOperand.extracted (a : FloatOperand) (nosub norm : Bool) : Extracted :=
  (a.input nosub).normalize a.spec norm

/-- FP.EXTRACT of a legal operand hands the record over field by field (R204). -/
theorem execFpExtract_of_legal {s : State} (nosub norm : Bool) (hh : s.halted = false)
    (ha : s.request.srcA.FloatLegal s.cfg) (hp : s.request.srcA.Fits s.request.a) :
    exec (.fpExtract nosub norm) s = .next (s.deliver (.done
      { auxClass := some (s.request.floatA.extracted nosub norm).cls.code
        auxSign := some (s.request.floatA.extracted nosub norm).sign
        auxExp := some (s.request.floatA.extracted nosub norm).exp
        auxMant := some (bitsOf (s.request.floatA.spec.m + 1) (s.request.floatA.extracted nosub norm).mant) })) := by
  refine (congrArg (serve s) ?_).trans (serve_ok hh _)
  rw [extractResult, floatOperand_of_legal ha hp, bind_ok]
  rfl

section
variable (a : FloatOperand) {nosub norm : Bool}

/-- Under `NOSUB` the record of a Subnormal is that of the zero of its sign, normalized or not (R205). -/
theorem FloatOperand.extracted_flushed (h : a.cls = .subnormal) (norm : Bool) :
    a.extracted true norm = ⟨.zero, a.sign, a.spec.emin, 0⟩ := by
  have hflush : a.input true = ⟨.zero, a.sign, a.spec.emin, 0⟩ := Extracted.flush_of_subnormal a.spec h
  rw [FloatOperand.extracted, hflush]
  exact Extracted.normalize_of_not a.spec (by simp)

/-- Where nothing is flushed the record is the extract record, normalized under `NORM` (R204). -/
theorem FloatOperand.extracted_of_not_flushed (h : ¬ (a.cls = .subnormal ∧ nosub = true)) :
    a.extracted nosub norm = a.extract.normalize a.spec norm :=
  congrArg (Extracted.normalize a.spec norm) (Extracted.flush_of_not a.spec h)

/-- Where nothing is normalized either it is the extract record itself (R202). -/
theorem FloatOperand.extracted_plain (h : ¬ (a.cls = .subnormal ∧ (nosub = true ∨ norm = true))) :
    a.extracted nosub norm = a.extract := by
  rw [a.extracted_of_not_flushed fun hn => h ⟨hn.1, .inl hn.2⟩]
  exact Extracted.normalize_of_not a.spec fun hn => h ⟨hn.1, .inr hn.2⟩

end

/-- Settles O39: a Subnormal is flushed, normalized or left, anything else is left. -/
theorem fpExtractResult : Obligations.FpExtractResult := by
  intro s nosub norm hh ha hp a f
  refine ⟨a.extracted nosub norm, execFpExtract_of_legal nosub norm hh ha hp, ?_, ?_, fun hplain => ?_⟩
  · rintro hsub rfl
    exact a.extracted_flushed hsub norm
  · rintro hsub rfl rfl
    obtain ⟨-, hpos, hlt⟩ := a.extract_mant_of_subnormal hsub
    obtain ⟨hcls, hsign⟩ := a.extract.normalize_cls_sign f true
    obtain ⟨hexp, hlow, hhigh⟩ := Extracted.normalize_range f hsub hpos hlt
    rw [a.extract_exp_of_subnormal hsub] at hexp
    have hval : a.val = a.extract.val f := a.val_eq_extract_val (FloatOperand.finite_of_subnormal hsub)
    rw [a.extracted_of_not_flushed fun hn => Bool.false_ne_true hn.2, hval]
    exact ⟨hcls.trans hsub, hsign, hexp, hlow, hhigh, Extracted.normalize_val f true⟩
  · rw [a.extracted_plain hplain]
    exact ⟨rfl, rfl, rfl, rfl⟩

/-! ## FP.RNDASM (R216) -/

/-- Condition (h) of R372: neither is `XM` negative nor does the sticky come without a true guard bit. -/
theorem rndasmLegal_iff {f : FloatSpec} {xm : ℤ} {xk : Bool} :
    rndasmLegal f xm xk = true ↔ 0 ≤ xm ∧ (xk = true → 2 ^ (f.m + 1) ≤ xm) := by
  cases xk <;> simp [rndasmLegal]

/-- FP.RNDASM under a legal destination and a supported mode: condition (h), and one rounding (R216). -/
theorem rndasmResult_of_legal {cfg : Config} {r : Request} {q : BitVec 3} {rm : FloatMode} (nosub : Bool)
    (hd : r.dst.FloatLegal cfg) (hq : floatModeOf q = some rm) :
    rndasmResult q nosub cfg r =
      if rndasmLegal r.dst.float r.xm r.xk then
        .ok (.ofR (roundAssemble cfg r.dst.float rm nosub r.xs
          ((2 * r.xm + if r.xk then 1 else 0) * 2 ^ (r.xe - 1))))
      else .error .malformedSpec := by
  rw [rndasmResult, floatSpec_of_legal hd, bind_ok, needFloatMode_of_some hq, bind_ok]
  cases rndasmLegal r.dst.float r.xm r.xk with
  | false => rfl
  | true =>
    rw [require_true, bind_ok]
    cases r.xk <;> simp [pure, Except.pure]

/-- Settles O40, by condition (h). -/
theorem fpRndasmResult : Obligations.FpRndasmResult := by
  intro s q rm nosub hh hd hq f r
  have hres := congrArg (serve s) (rndasmResult_of_legal nosub hd hq)
  refine ⟨fun hpos hsticky => ?_, fun hbad => ?_⟩
  · rw [if_pos (rndasmLegal_iff.mpr ⟨hpos, hsticky⟩)] at hres
    exact hres.trans (serve_answer hh)
  · rw [if_neg] at hres
    · exact hres.trans (serve_error hh _)
    · rw [rndasmLegal_iff]
      rintro ⟨hpos, hsticky⟩
      rcases hbad with hneg | ⟨hk, hlt⟩
      · exact absurd hpos (not_le.mpr hneg)
      · exact absurd (hsticky hk) (not_le.mpr hlt)

end Sys2Proof.Machine
end

section
/-! PROOFS. The laws of `RoundAssemble`: a magnitude known between two integers of half units is rounded like any other
there, a finite pattern is stored again, and the patterns stored are ordered as the magnitudes are. -/

namespace Sys2Proof.Machine

/-! ## The sticky bit (R216) -/

section
variable {y z : ℚ} {k : ℤ}

/-- All numbers strictly between two neighbouring integers of half units have one floor, guard bit and sticky bit. -/
theorem floor_guard_sticky_of_half_units (h1 : (k : ℚ) < 2 * y) (h2 : 2 * y < k + 1) :
    ⌊y⌋ = k / 2 ∧ guardBit (Int.fract y) = decide (k % 2 = 1) ∧ stickyBit (Int.fract y) = true := by
  have hk : (k : ℚ) = 2 * (k / 2 : ℤ) + (k % 2 : ℤ) := by exact_mod_cast (Int.mul_ediv_add_emod k 2).symm
  have hr0 : (0 : ℚ) ≤ (k % 2 : ℤ) := by exact_mod_cast Int.emod_nonneg k two_ne_zero
  have hr1 : ((k % 2 : ℤ) : ℚ) ≤ 1 := by exact_mod_cast Int.lt_add_one_iff.mp (Int.emod_lt_of_pos k two_pos)
  have hfloor : ⌊y⌋ = k / 2 := by
    rw [Int.floor_eq_iff]
    constructor <;> linarith
  have hfract : Int.fract y = y - (k / 2 : ℤ) := by rw [← hfloor]; rfl
  have hlow : ((k % 2 : ℤ) : ℚ) < 2 * Int.fract y := by linarith
  have hhigh : 2 * Int.fract y < (k % 2 : ℤ) + 1 := by linarith
  refine ⟨hfloor, ?_⟩
  simp only [guardBit, stickyBit, decide_eq_decide, Bool.and_eq_true, decide_eq_true_eq]
  rcases Int.emod_two_eq_zero_or_one k with h | h <;> rw [h] at hlow hhigh ⊢ <;> push_cast at hlow hhigh
  · exact ⟨iff_of_false (by linarith) (by decide), by linarith, by linarith⟩
  · exact ⟨iff_of_true (by linarith) rfl, by linarith, by linarith⟩

/-- They are rounded to one mantissa, under every mode (R216). -/
theorem roundedMant_eq_of_half_units (rm : FloatMode) (hy1 : (k : ℚ) < 2 * y) (hy2 : 2 * y < k + 1)
    (hz1 : (k : ℚ) < 2 * z) (hz2 : 2 * z < k + 1) : roundedMant rm y = roundedMant rm z := by
  obtain ⟨hfy, hgy, hsy⟩ := floor_guard_sticky_of_half_units hy1 hy2
  obtain ⟨hfz, hgz, hsz⟩ := floor_guard_sticky_of_half_units hz1 hz2
  rw [roundedMant, roundedMant, hfy, hgy, hsy, hfz, hgz, hsz]

end

/-- A magnitude of more than `n` and less than `n + 1` units has the exponent of `n` units (R12). -/
theorem ilog2_of_between {n : ℕ} {q : ℤ} {x : ℚ} (hn : n ≠ 0) (h1 : n * (2 : ℚ) ^ q ≤ x)
    (h2 : x < (n + 1) * (2 : ℚ) ^ q) : ilog2 x = Nat.log2 n + q := by
  have hlow := (two_zpow_log2_le hn).1
  have hhigh : ((n : ℚ) + 1) ≤ 2 ^ ((Nat.log2 n : ℤ) + 1) := by exact_mod_cast Nat.lt_log2_self (n := n)
  refine ilog2_eq ?_ ?_
  · calc (2 : ℚ) ^ (Nat.log2 n + q) = 2 ^ (Nat.log2 n : ℤ) * 2 ^ q := zpow_add₀ two_ne_zero _ _
      _ ≤ n * 2 ^ q := by gcongr
      _ ≤ x := h1
  · calc x < (n + 1) * 2 ^ q := h2
      _ ≤ 2 ^ ((Nat.log2 n : ℤ) + 1) * 2 ^ q := by gcongr
      _ = 2 ^ (Nat.log2 n + q + 1) := by rw [← zpow_add₀ two_ne_zero]; congr 1; ring

variable {f : FloatSpec}

/-- Between two neighbouring multiples of `2^q` that are finer than half a unit, the half units do not pass an
integer (R216). -/
theorem FloatSpec.half_units_between {n d : ℕ} {q : ℤ} {x : ℚ} (hE : f.expOf x - f.m = q + d + 1)
    (h1 : n * (2 : ℚ) ^ q < x) (h2 : x < (n + 1) * (2 : ℚ) ^ q) :
    (((n / 2 ^ d : ℕ) : ℤ) : ℚ) < 2 * f.units x ∧ 2 * f.units x < ((n / 2 ^ d : ℕ) : ℤ) + 1 := by
  have hq : (0 : ℚ) < 2 ^ q := by positivity
  have hx : 2 * f.units x * 2 ^ d * 2 ^ q = x := by
    calc 2 * f.units x * 2 ^ d * 2 ^ q = f.units x * 2 ^ (f.expOf x - f.m) := by
          rw [hE, zpow_add_one₀ two_ne_zero, two_zpow_add_natCast]
          ring
      _ = x := f.units_mul x
  have hlow : ((n / 2 ^ d : ℕ) : ℚ) * 2 ^ d ≤ n := by exact_mod_cast Nat.div_mul_le_self n (2 ^ d)
  have hhigh : (n : ℚ) + 1 ≤ (((n / 2 ^ d : ℕ) : ℚ) + 1) * 2 ^ d := by
    exact_mod_cast Nat.lt_mul_of_div_lt (Nat.lt_succ_self _) (by positivity)
  rw [← hx] at h1 h2
  have h1 := hlow.trans_lt (lt_of_mul_lt_mul_right h1 hq.le)
  have h2 := (lt_of_mul_lt_mul_right h2 hq.le).trans_le hhigh
  rw [Int.cast_natCast]
  exact ⟨lt_of_mul_lt_mul_right h1 (by positivity), lt_of_mul_lt_mul_right h2 (by positivity)⟩

/-- Magnitudes of one exponent whose mantissas are rounded to one are rounded to one pattern (R214, R215). -/
theorem roundAssemble_congr (cfg : Config) (rm : FloatMode) (nosub s : Bool) {x y : ℚ} (hx : x ≠ 0) (hy : y ≠ 0)
    (hlog : ilog2 x = ilog2 y) (hm : roundedMant rm (f.units x) = roundedMant rm (f.units y)) :
    roundAssemble cfg f rm nosub s x = roundAssemble cfg f rm nosub s y := by
  have hE : f.expOf x = f.expOf y := by rw [FloatSpec.expOf, hlog, FloatSpec.expOf]
  rw [roundAssemble_eq_place cfg f rm nosub s hx, roundAssemble_eq_place cfg f rm nosub s hy, hlog, hE, hm]

/-- All magnitudes strictly between two neighbouring multiples of `2^q` are rounded to one pattern, where the lower
multiple has a guard bit (R216). -/
theorem roundAssemble_eq_of_between (cfg : Config) (rm : FloatMode) (nosub s : Bool) {n : ℕ} {q : ℤ} {x y : ℚ}
    (hn : 2 ^ (f.m + 1) ≤ n) (hx1 : n * (2 : ℚ) ^ q < x) (hx2 : x < (n + 1) * (2 : ℚ) ^ q)
    (hy1 : n * (2 : ℚ) ^ q < y) (hy2 : y < (n + 1) * (2 : ℚ) ^ q) :
    roundAssemble cfg f rm nosub s x = roundAssemble cfg f rm nosub s y := by
  have hn0 : n ≠ 0 := ((Nat.two_pow_pos _).trans_le hn).ne'
  have hlogx := ilog2_of_between hn0 hx1.le hx2
  have hlogy := ilog2_of_between hn0 hy1.le hy2
  have hguard : f.m + 1 ≤ Nat.log2 n := (Nat.le_log2 hn0).mpr hn
  obtain ⟨d, hd⟩ : ∃ d : ℕ, max (Nat.log2 n + q) f.emin - f.m = q + d + 1 :=
    ⟨(max (Nat.log2 n + q) f.emin - f.m - 1 - q).toNat, by omega⟩
  obtain ⟨hux1, hux2⟩ := f.half_units_between (by rwa [FloatSpec.expOf, hlogx]) hx1 hx2
  obtain ⟨huy1, huy2⟩ := f.half_units_between (by rwa [FloatSpec.expOf, hlogy]) hy1 hy2
  have hpos : (0 : ℚ) ≤ n * 2 ^ q := by positivity
  exact roundAssemble_congr cfg rm nosub s (hpos.trans_lt hx1).ne' (hpos.trans_lt hy1).ne' (hlogx.trans hlogy.symm)
    (roundedMant_eq_of_half_units rm hux1 hux2 huy1 huy2)

/-- Settles O41: the value that the appended sticky bit stands for lies in the interval with the others. -/
theorem stickyBitIsHarmless : Obligations.StickyBitIsHarmless := by
  intro cfg f rm nosub s xm xe x _ hguard h1 h2
  lift xm to ℕ using le_trans (by positivity) hguard
  rw [Int.cast_natCast] at h1 h2 ⊢
  have hmid : (2 * xm + 1) * (2 : ℚ) ^ (xe - 1) = (xm + 1 / 2) * 2 ^ xe := by
    rw [zpow_sub_one₀ two_ne_zero]
    ring
  rw [hmid]
  exact roundAssemble_eq_of_between cfg rm nosub s (by exact_mod_cast hguard) h1 h2 (by gcongr; linarith)
    (by gcongr; norm_num)

/-! ## Finite patterns are kept (R217 (a)) -/

section
variable (a : FloatOperand)

/-- A pattern is the one built from its own fields (R73). -/
theorem FloatOperand.pattern_eq_pack (hl : a.spec.Legal) : a.pattern = a.spec.pack a.sign a.ef a.mf := by
  have hw := hl.width
  refine congrArg (Bits.mk a.spec.w) (BitVec.eq_of_getLsbD_eq fun k hk => ?_)
  refine (a.pattern_getLsbD hk).trans (.trans ?_ (FloatSpec.pack_getLsbD hl a.sign a.ef_lt a.mf_lt hk).symm)
  rw [a.testBit_mf, a.testBit_ef, a.sign_eq_testBit]
  split_ifs with hm he
  · rw [decide_eq_true hm, Bool.true_and]
  · rw [decide_eq_true (by omega), Bool.true_and, show a.spec.m + (k - a.spec.m) = k by omega]
  · rw [show a.spec.w - 1 = k by omega]

/-- The mantissa lacks its leading bit iff the exponent field is 0 (R202). -/
theorem FloatOperand.extract_mant_lt_iff : a.extract.mant < 2 ^ a.spec.m ↔ a.ef = 0 := by
  have := a.mf_lt
  simp only [FloatOperand.extract]
  split <;> omega

/-- A finite pattern is what is stored for the exponent and the mantissa of its extract record (R202, R214). -/
theorem FloatOperand.place_extract (hl : a.spec.Legal) (hfin : a.Finite) (rm : FloatMode) :
    a.spec.place rm a.sign a.extract.exp a.extract.mant = a.pattern := by
  obtain ⟨-, hmax⟩ := a.extract_exp_range hl hfin
  rw [a.pattern_eq_pack hl, FloatSpec.place]
  split_ifs with hsub hcarry hover hover
  · have he := a.extract_mant_lt_iff.mp hsub
    simp [FloatOperand.extract, he]
  · exact absurd hcarry a.extract_mant_lt.ne
  · exact absurd hcarry a.extract_mant_lt.ne
  · exact absurd hmax (not_le.mpr hover)
  · have he := mt a.extract_mant_lt_iff.mpr hsub
    simp [FloatOperand.extract, he]

end

/-- An integral number of units is kept by every mode. -/
theorem roundedMant_natCast (rm : FloatMode) (t : ℕ) : roundedMant rm t = t := by
  have hfloor : ⌊(t : ℚ)⌋.toNat = t := by rw [Int.floor_natCast, Int.toNat_natCast]
  rw [roundedMant_of_lt (by positivity) (by rw [hfloor]; linarith), hfloor]

/-- The magnitude of a mantissa under an exponent of the spec has that exponent and that many units; it lies below
`2^emin` iff the mantissa lacks its leading bit (R214). -/
theorem FloatSpec.expOf_units_of_mant {t : ℕ} {E : ℤ} (h0 : t ≠ 0) (ht : t < 2 ^ (f.m + 1)) (hE : f.emin ≤ E)
    (hlead : f.emin < E → 2 ^ f.m ≤ t) :
    f.expOf (t * 2 ^ (E - f.m)) = E ∧ f.units (t * 2 ^ (E - f.m)) = t ∧
      (ilog2 (t * 2 ^ (E - f.m)) < f.emin → t < 2 ^ f.m) := by
  have hlog : ilog2 (t * 2 ^ (E - f.m)) = Nat.log2 t + (E - f.m) :=
    ilog2_of_between h0 le_rfl (by gcongr; linarith)
  have hlt := (Nat.log2_lt h0).mpr ht
  have hle : 2 ^ f.m ≤ t ↔ f.m ≤ Nat.log2 t := (Nat.le_log2 h0).symm
  have hexp : f.expOf (t * 2 ^ (E - f.m)) = E := by
    rw [FloatSpec.expOf, hlog]
    rcases hE.eq_or_lt with rfl | hlt'
    · omega
    · have := hle.mp (hlead hlt')
      omega
  refine ⟨hexp, ?_, fun h => ?_⟩
  · rw [FloatSpec.units, hexp, mul_div_cancel_right₀ _ (by positivity)]
  · rw [← not_le, hle]
    omega

/-- Settles O42: the magnitude is an integral number of units, and the pattern is what is stored for it. -/
theorem roundAssembleKeepsPatterns : Obligations.RoundAssembleKeepsPatterns := by
  intro cfg rm nosub p hl _ hfin
  obtain ⟨hmin, -⟩ := p.extract_exp_range hl hfin
  rw [FloatOperand.abs_val hfin]
  by_cases h0 : p.extract.mant = 0
  · have he : p.ef = 0 := p.extract_mant_lt_iff.mp (h0 ▸ Nat.two_pow_pos _)
    have hm : p.mf = 0 := by simpa [FloatOperand.extract, he] using h0
    rw [h0, Nat.cast_zero, zero_mul, roundAssemble_zero, p.pattern_eq_pack hl, he, hm]
    exact (ite_self _).symm
  · obtain ⟨hexp, hunits, htiny⟩ :=
      p.spec.expOf_units_of_mant h0 p.extract_mant_lt hmin p.le_extract_mant
    have hpos : (p.extract.mant : ℚ) * 2 ^ (p.extract.exp - p.spec.m) ≠ 0 := by positivity
    have hsub : p.cls = .subnormal ↔ p.extract.mant < 2 ^ p.spec.m := by
      rw [p.extract_mant_lt_iff, FloatOperand.cls_eq_subnormal_iff]
      refine and_iff_left_of_imp fun he => ?_
      simpa [FloatOperand.extract, he] using h0
    rw [roundAssemble_eq_place cfg p.spec rm nosub p.sign hpos, hexp, hunits, roundedMant_natCast,
      p.place_extract hl hfin rm]
    refine if_congr (and_congr_right fun _ => ?_) rfl rfl
    rw [hsub, or_iff_right_of_imp fun h => htiny h.2]

/-! ## The order of the patterns stored (R217 (b), (c)) -/

/-- Rounding keeps the order of magnitudes (R217 (b)). -/
theorem roundedMant_mono (rm : FloatMode) {y z : ℚ} (hy : 0 ≤ y) (h : y ≤ z) :
    roundedMant rm y ≤ roundedMant rm z := by
  have hz : 0 ≤ z := hy.trans h
  have hfloor : ⌊y⌋.toNat ≤ ⌊z⌋.toNat := Int.toNat_le_toNat (Int.floor_le_floor h)
  have hyr := (roundedMant_range rm y).2
  have hzr := (roundedMant_range rm z).1
  rcases hfloor.lt_or_eq with hlt | heq
  · omega
  by_cases hrm : rm = .truncateTowardZero
  · rw [hrm, roundedMant_truncate, roundedMant_truncate]
    exact hfloor
  rcases lt_trichotomy y (⌊y⌋.toNat + 1 / 2) with hlow | htie | hhigh
  · rw [roundedMant_of_lt hy hlow]
    omega
  · rcases h.eq_or_lt with rfl | hlt
    · exact le_rfl
    · rw [roundedMant_of_gt hz hrm (by rw [← heq, ← htie]; exact hlt)]
      omega
  · rw [roundedMant_of_gt hz hrm (by rw [← heq]; exact hhigh.trans_le h)]
    omega

/-- A larger magnitude has no smaller exponent (R12). -/
theorem ilog2_mono {x y : ℚ} (hx : 0 < x) (h : x ≤ y) : ilog2 x ≤ ilog2 y := by
  by_contra hlt
  have hy := (lt_two_zpow_iff_ilog2_lt (hx.trans_le h) (ilog2 x)).mpr (not_le.mp hlt)
  exact absurd ((ilog2_spec hx).1.trans h) (not_le.mpr hy)

/-- The place of the mantissa `t` under the exponent `E` in the order of magnitudes, 0 having place 0: the exponents
above the least have `2^M` places each. It is the number that the pattern is without its sign (R73). -/
def FloatSpec.rank (f : FloatSpec) (E : ℤ) (t : ℕ) : ℕ := (E - f.emin).toNat * 2 ^ f.m + t

/-- The place of what R212 stores for a magnitude above `MaxFinite`: that of `Inf`, or of `MaxFinite` before it. -/
def FloatSpec.topRank (f : FloatSpec) (rm : FloatMode) : ℕ :=
  if rm = .truncateTowardZero then f.efMax * 2 ^ f.m - 1 else f.efMax * 2 ^ f.m

/-- The place of a magnitude rounded with no bound on the exponent. -/
def FloatSpec.rankOf (f : FloatSpec) (rm : FloatMode) (x : ℚ) : ℕ :=
  f.rank (f.expOf x) (roundedMant rm (f.units x))

theorem FloatSpec.rank_emin_add (f : FloatSpec) (d t : ℕ) : f.rank (f.emin + d) t = d * 2 ^ f.m + t := by
  rw [FloatSpec.rank, add_sub_cancel_left, Int.toNat_natCast]

/-- A place below that of `Inf` is not bounded. -/
theorem FloatSpec.min_topRank_of_lt (rm : FloatMode) {r k : ℕ} (hr : r < k * 2 ^ f.m) (hk : k ≤ f.efMax) :
    min r (f.topRank rm) = r := by
  have hmul : k * 2 ^ f.m ≤ f.efMax * 2 ^ f.m := Nat.mul_le_mul_right _ hk
  refine min_eq_left ?_
  unfold FloatSpec.topRank
  split <;> omega

/-- A place from that of `Inf` on is. -/
theorem FloatSpec.min_topRank_of_le (rm : FloatMode) {r k : ℕ} (hr : k * 2 ^ f.m ≤ r) (hk : f.efMax ≤ k) :
    min r (f.topRank rm) = f.topRank rm := by
  have hmul : f.efMax * 2 ^ f.m ≤ k * 2 ^ f.m := Nat.mul_le_mul_right _ hk
  refine min_eq_right ?_
  unfold FloatSpec.topRank
  split <;> omega

/-- What is stored for 0 is its sign (R76). -/
theorem FloatSpec.uint_zero (hl : f.Legal) (s : Bool) : uint (f.zero s) = s.toNat * 2 ^ (f.w - 1) :=
  (f.uint_pack hl (by positivity) (by positivity)).1.trans (by rw [Nat.zero_mul, Nat.add_zero])

/-- The pattern of an overflow is its place and its sign. -/
theorem FloatSpec.uint_overflowed (hl : f.Legal) (rm : FloatMode) (s : Bool) :
    uint (f.overflowed rm s) = s.toNat * 2 ^ (f.w - 1) + f.topRank rm := by
  have hpos : 0 < 2 ^ f.m := by positivity
  have hfield := f.efMax_lt
  obtain ⟨n, hn⟩ : ∃ n, f.efMax = n + 1 := ⟨f.efMax - 1, by have := hl.efMax_pos; omega⟩
  unfold FloatSpec.overflowed FloatSpec.topRank
  split
  · rw [FloatSpec.maxFinite, (f.uint_pack hl (by omega) (by omega)).1, hn, Nat.add_sub_cancel, Nat.succ_mul]
    omega
  · rw [FloatSpec.inf, (f.uint_pack hl hfield hpos).1, Nat.add_zero]

/-- The pattern stored for a rounded mantissa is its place, bounded by that of an overflow, and its sign
(R212, R213). -/
theorem FloatSpec.uint_place (hl : f.Legal) (rm : FloatMode) (s : Bool) {E : ℤ} {t : ℕ} (hE : f.emin ≤ E)
    (ht : f.emin < E → 2 ^ f.m ≤ t) (ht' : t ≤ 2 ^ (f.m + 1)) :
    uint (f.place rm s E t) = s.toNat * 2 ^ (f.w - 1) + min (f.rank E t) (f.topRank rm) := by
  obtain ⟨hmin, hmax, hfield, hlim⟩ := hl.exponents
  have hpos : 0 < 2 ^ f.m := by positivity
  have hpow : 2 ^ (f.m + 1) = 2 * 2 ^ f.m := pow_succ' 2 f.m
  obtain ⟨d, rfl⟩ : ∃ d : ℕ, E = f.emin + d := ⟨(E - f.emin).toNat, by omega⟩
  have hmul : ∀ k, (d + k) * 2 ^ f.m = d * 2 ^ f.m + k * 2 ^ f.m := fun k => Nat.add_mul d k _
  rw [f.rank_emin_add]
  unfold FloatSpec.place
  split_ifs with hsub hcarry hover hover
  · have hd : d = 0 := by
      by_contra hne
      exact absurd (ht (by omega)) (by omega)
    subst hd
    rw [(f.uint_pack hl (by positivity) hsub).1, min_topRank_of_lt rm (k := 1) (by omega) (by omega)]
  · have := hmul 2
    rw [f.uint_overflowed hl, min_topRank_of_le rm (k := d + 2) (by omega) (by omega)]
  · have := hmul 2
    have := hmul 3
    rw [(f.uint_pack hl (by omega) hpos).1, min_topRank_of_lt rm (k := d + 3) (by omega) (by omega),
      show (f.emin + d + 1 + f.bias).toNat = d + 2 by omega]
    omega
  · have := hmul 1
    rw [f.uint_overflowed hl, min_topRank_of_le rm (k := d + 1) (by omega) (by omega)]
  · have := hmul 1
    have := hmul 2
    rw [(f.uint_pack hl (by omega) (by omega)).1, min_topRank_of_lt rm (k := d + 2) (by omega) (by omega),
      show (f.emin + d + f.bias).toNat = d + 1 by omega]
    omega

section
variable {x y : ℚ} (hx : 0 < x)
include hx

/-- The mantissa lacks its leading bit iff the place is one of a Zero or a Subnormal. -/
theorem FloatSpec.roundedMant_lt_iff_rankOf_lt (f : FloatSpec) (rm : FloatMode) :
    roundedMant rm (f.units x) < 2 ^ f.m ↔ f.rankOf rm x < 2 ^ f.m := by
  unfold FloatSpec.rankOf FloatSpec.rank
  refine ⟨fun h => ?_, fun h => by omega⟩
  have hE : f.expOf x = f.emin := by
    by_contra hne
    have hgt : f.emin < f.expOf x := lt_of_le_of_ne (le_max_right _ _) (Ne.symm hne)
    exact absurd (f.le_roundedMant_units hx rm (f.emin_le_ilog2_of_lt_expOf hgt)) (not_le.mpr h)
  rw [hE, sub_self, Int.toNat_zero, Nat.zero_mul, Nat.zero_add]
  exact h

/-- A larger magnitude has no lower place: under one exponent its mantissa is no less, and under a larger one it lies
above the carry out of the smaller. -/
theorem FloatSpec.rankOf_mono (f : FloatSpec) (rm : FloatMode) (h : x ≤ y) : f.rankOf rm x ≤ f.rankOf rm y := by
  have hy : 0 < y := hx.trans_le h
  have hE : f.expOf x ≤ f.expOf y := max_le_max_right _ (ilog2_mono hx h)
  have hmin : f.emin ≤ f.expOf x := le_max_right _ _
  unfold FloatSpec.rankOf FloatSpec.rank
  rcases hE.eq_or_lt with heq | hlt
  · have hunits : f.units x ≤ f.units y := by
      rw [FloatSpec.units, FloatSpec.units, heq]
      gcongr
    have := roundedMant_mono rm (f.units_nonneg hx) hunits
    rw [heq]
    omega
  · have hcarry := f.roundedMant_units_le hx rm
    have hlead := f.le_roundedMant_units hy rm (f.emin_le_ilog2_of_lt_expOf (hmin.trans_lt hlt))
    have hmul : ((f.expOf x - f.emin).toNat + 1) * 2 ^ f.m ≤ (f.expOf y - f.emin).toNat * 2 ^ f.m :=
      Nat.mul_le_mul_right _ (by omega)
    rw [pow_succ'] at hcarry
    rw [Nat.succ_mul] at hmul
    omega

/-- What is stored for a positive magnitude is its place, bounded by that of an overflow, or 0 where `NOSUB` flushes it,
and its sign (R212, R213, R215). -/
theorem uint_roundAssemble (cfg : Config) (hl : f.Legal) (rm : FloatMode) (nosub s : Bool) :
    uint (roundAssemble cfg f rm nosub s x) = s.toNat * 2 ^ (f.w - 1) +
      if nosub = true ∧ (cfg.ftzRule = .beforeRounding ∧ ilog2 x < f.emin ∨ f.rankOf rm x < 2 ^ f.m) then 0
      else min (f.rankOf rm x) (f.topRank rm) := by
  simp only [roundAssemble_eq_place cfg f rm nosub s hx.ne', f.roundedMant_lt_iff_rankOf_lt hx]
  split
  · exact f.uint_zero hl s
  · exact f.uint_place hl rm s (le_max_right _ _)
      (fun h => f.le_roundedMant_units hx rm (f.emin_le_ilog2_of_lt_expOf h)) (f.roundedMant_units_le hx rm)

/-- Law (b) of R217 for positive magnitudes: a flush of the larger one is a flush of the smaller. -/
theorem uint_roundAssemble_mono (cfg : Config) (hl : f.Legal) (rm : FloatMode) (nosub : Bool) (h : x ≤ y) :
    uint (roundAssemble cfg f rm nosub false x) ≤ uint (roundAssemble cfg f rm nosub false y) := by
  have hlog := ilog2_mono hx h
  have hrank := f.rankOf_mono hx rm h
  rw [uint_roundAssemble hx cfg hl, uint_roundAssemble (hx.trans_le h) cfg hl]
  refine Nat.add_le_add_left ?_ _
  split_ifs with hfx hfy hfy
  · exact le_rfl
  · exact Nat.zero_le _
  · refine absurd ⟨hfy.1, ?_⟩ hfx
    rcases hfy.2 with ⟨hbefore, hlt⟩ | hlt
    · exact .inl ⟨hbefore, hlog.trans_lt hlt⟩
    · exact .inr (hrank.trans_lt hlt)
  · exact min_le_min_right _ hrank

end

/-- Settles O43: for a positive magnitude by its place, for 0 directly. -/
theorem roundAssembleIsMonotone : Obligations.RoundAssembleIsMonotone := by
  intro cfg f rm nosub x y hl hx h
  rcases hx.eq_or_lt with rfl | hpos
  · rw [roundAssemble_zero, roundAssemble_zero, f.uint_zero hl, f.uint_zero hl]
    simp
  · refine ⟨uint_roundAssemble_mono hpos cfg hl rm nosub h, ?_⟩
    rw [uint_roundAssemble hpos cfg hl, uint_roundAssemble hpos cfg hl]
    simp

end Sys2Proof.Machine
end

section
/-! PROOFS. The float units: each row of their special-case tables, the exact result rounded once where no row applies,
and the pattern that an addend keeps. -/

namespace Sys2Proof.Machine

/-! ## Formats PB, PT and PU (R80) -/

section
variable {s : State} {q : BitVec 3} {rm : FloatMode} {nosub : Bool}

/-- Format PB serves the operation's own result. -/
theorem serve_floatBinary {x : FloatSpec → FloatMode → Extracted → Extracted → Bits} (h : FloatReady2 s)
    (hm : floatModeOf q = some rm) :
    serve s (floatBinary s.cfg s.request q nosub x) =
      .next (s.answer (x s.request.dst.float rm (s.request.floatA.input nosub) (s.request.floatB.input nosub))) := by
  rw [floatBinary_ready nosub x h hm]
  exact serve_answer h.1.1

/-- Format PT serves the operation's own result. -/
theorem serve_floatTernary {x : FloatSpec → FloatMode → Extracted → Extracted → Extracted → Bits} (h : FloatReady3 s)
    (hm : floatModeOf q = some rm) :
    serve s (floatTernary s.cfg s.request q nosub x) =
      .next (s.answer (x s.request.dst.float rm (s.request.floatA.input nosub) (s.request.floatB.input nosub)
        (s.request.floatC.input nosub))) := by
  rw [floatTernary_ready nosub x h hm]
  exact serve_answer h.1.1.1

/-- Format PU serves the operation's own result. -/
theorem serve_floatUnary {x : FloatSpec → FloatMode → Extracted → Bits} (h : FloatReady1 s)
    (hm : floatModeOf q = some rm) :
    serve s (floatUnary s.cfg s.request q nosub x) =
      .next (s.answer (x s.request.dst.float rm (s.request.floatA.input nosub))) := by
  rw [floatUnary_ready nosub x h hm]
  exact serve_answer h.1

end

/-! ## Classes, signs and zeros -/

section
variable (x : Extracted)

@[simp] theorem Extracted.isNan_iff : x.isNan = true ↔ x.cls = .nan := decide_eq_true_iff

@[simp] theorem Extracted.isInf_iff : x.isInf = true ↔ x.cls = .infinity := decide_eq_true_iff

@[simp] theorem Extracted.isZero_iff : x.isZero = true ↔ x.cls = .zero := decide_eq_true_iff

end

/-- The sign of a sum of two zeros: their common sign, and plus where they differ (R242, R264). -/
theorem zero_sum_sign (f : FloatSpec) (s t : Bool) :
    (if s = t then some (f.zero s) else some (f.zero false)) = some (f.zero (s && t)) := by
  cases s <;> cases t <;> rfl

/-- The end of an addition, by whether the exact sum is zero (R244, R247). -/
theorem sumAssemble_rows (cfg : Config) (f : FloatSpec) (rm : FloatMode) (nosub : Bool) (x : ℚ) :
    (x = 0 → sumAssemble cfg f rm nosub x = f.zero false) ∧
    (x ≠ 0 → sumAssemble cfg f rm nosub x = roundAssemble cfg f rm nosub (x < 0) |x|) :=
  ⟨fun h => if_pos h, fun h => if_neg h⟩

/-! ## The units, row by row -/

section
variable (cfg : Config) (f : FloatSpec) (rm : FloatMode) (nosub : Bool) (a b c : Extracted)

/-- R242 and R244. -/
theorem addUnit_rows : AddRows cfg f rm nosub a b (addUnit cfg nosub f rm a b) := by
  refine ⟨fun h => ?_, fun ha hb hs => ?_, fun ha hb hs => ?_, fun ha ⟨hb, hb'⟩ => ?_, fun ⟨ha, ha'⟩ hb => ?_,
    fun ha hb => ?_, fun ⟨ha, ha'⟩ ⟨hb, hb'⟩ h0 => ?_⟩
  · simp [addUnit, addSpecial, h]
  · simp [addUnit, addSpecial, ha, hb, hs]
  · simp [addUnit, addSpecial, ha, hb, hs]
  · simp [addUnit, addSpecial, ha, hb, hb']
  · simp [addUnit, addSpecial, ha, ha', hb]
  · simp [addUnit, addSpecial, ha, hb, zero_sum_sign]
  · have hunit : addUnit cfg nosub f rm a b = sumAssemble cfg f rm nosub (a.val f + b.val f) := by
      simp [addUnit, addSpecial, ha, ha', hb, hb', h0]
    rw [hunit]
    exact sumAssemble_rows ..

/-- R250 and R252. -/
theorem mulUnit_rows : MulRows cfg f rm nosub a b (mulUnit cfg nosub f rm a b) := by
  refine ⟨fun h => ?_, fun h => ?_, fun ha hb hb0 => ?_, fun hb ha ha0 => ?_, fun ha ⟨hb, hb'⟩ => ?_,
    fun hb ⟨ha, ha'⟩ => ?_, fun ⟨ha, ha'⟩ ⟨hb, hb'⟩ ha0 hb0 => ?_⟩
  · simp [mulUnit, mulSpecial, h]
  · simp [mulUnit, mulSpecial, h]
  · simp [mulUnit, mulSpecial, ha, hb, hb0]
  · simp [mulUnit, mulSpecial, ha, ha0, hb]
  · simp [mulUnit, mulSpecial, ha, hb, hb']
  · simp [mulUnit, mulSpecial, ha, ha', hb]
  · simp [mulUnit, mulSpecial, ha, ha', ha0, hb, hb', hb0]

/-- R255, R256 and R259. -/
theorem divUnit_rows : DivRows cfg f rm nosub a b (divUnit cfg nosub f rm a b) := by
  refine ⟨fun h => ?_, fun ha hb => ?_, fun ha hb => ?_, fun ha ⟨hb, hb'⟩ => ?_, fun ⟨ha, ha'⟩ hb => ?_,
    fun ⟨ha, ha'⟩ ha0 hb => ?_, fun ha ⟨hb, hb'⟩ hb0 => ?_, fun ⟨ha, ha'⟩ ⟨hb, hb'⟩ ha0 hb0 => ?_⟩
  · simp [divUnit, divSpecial, h]
  · simp [divUnit, divSpecial, ha, hb]
  · simp [divUnit, divSpecial, ha, hb]
  · simp [divUnit, divSpecial, ha, hb, hb']
  · simp [divUnit, divSpecial, ha, ha', hb]
  · simp [divUnit, divSpecial, ha, ha', ha0, hb]
  · simp [divUnit, divSpecial, ha, hb, hb', hb0]
  · simp [divUnit, divSpecial, ha, ha', ha0, hb, hb', hb0]

/-- R264 and R267; where the product is a zero the addend's own pattern is that of its record. -/
theorem fmaUnit_rows : FmaRows cfg f rm nosub a b c (c.pattern f) (fmaUnit cfg nosub f rm a b c) := by
  refine ⟨fun h => ?_, fun h => ?_, fun ha hb ha0 hb0 hinf => ⟨fun hc hs => ?_, fun hc hs => ?_⟩,
    fun ⟨ha, ha'⟩ ⟨hb, hb'⟩ hc => ?_, fun ⟨ha, ha'⟩ ⟨hb, hb'⟩ h0 => ⟨fun hc => ?_, fun ⟨hc, hc'⟩ hc0 => ?_⟩,
    fun ⟨ha, ha'⟩ ⟨hb, hb'⟩ ⟨hc, hc'⟩ ha0 hb0 => ?_⟩
  · simp [fmaUnit, fmaSpecial, or_assoc, h]
  · simp [fmaUnit, fmaSpecial, h]
  · simp [fmaUnit, fmaSpecial, ha, hb, ha0, hb0, hinf, hc, hs]
  · simp [fmaUnit, fmaSpecial, ha, hb, ha0, hb0, hinf, hc, hs]
  · simp [fmaUnit, fmaSpecial, ha, ha', hb, hb', hc]
  · simp [fmaUnit, fmaSpecial, ha, ha', hb, hb', h0, hc, zero_sum_sign]
  · simp [fmaUnit, fmaSpecial, ha, ha', hb, hb', h0, hc, hc', hc0]
  · have hunit : fmaUnit cfg nosub f rm a b c = sumAssemble cfg f rm nosub (a.val f * b.val f + c.val f) := by
      simp [fmaUnit, fmaSpecial, ha, ha', ha0, hb, hb', hb0, hc, hc']
    rw [hunit]
    exact sumAssemble_rows ..

end

/-- Settles O46: each unit obeys its table. -/
theorem fpAddAndSubResults : Obligations.FpAddAndSubResults := fun _ _ _ _ h hm =>
  ⟨⟨_, serve_floatBinary h hm, addUnit_rows ..⟩, ⟨_, serve_floatBinary h hm, addUnit_rows ..⟩⟩

/-- Settles O48. -/
theorem fpMulResult : Obligations.FpMulResult := fun _ _ _ _ h hm =>
  ⟨_, serve_floatBinary h hm, mulUnit_rows ..⟩

/-- Settles O49. -/
theorem fpDivResult : Obligations.FpDivResult := fun _ _ _ _ h hm =>
  ⟨_, serve_floatBinary h hm, divUnit_rows ..⟩

/-! ## An operand less itself (R247) -/

section
variable {x : Extracted} (f : FloatSpec)

/-- The flush keeps the class, or makes a Zero of a Subnormal (R205). -/
theorem Extracted.flush_finite (nosub : Bool) (h : x.Finite) : (x.flush f nosub).Finite := by
  unfold Extracted.flush
  split
  · exact ⟨FpClass.noConfusion, FpClass.noConfusion⟩
  · exact h

/-- Inverting the sign keeps the class. -/
theorem Extracted.negate_cls (x : Extracted) : x.negate.cls = x.cls := by
  unfold Extracted.negate
  split <;> rfl

/-- It inverts the sign of all but a NaN (R243). -/
theorem Extracted.negate_sign (h : x.cls ≠ .nan) : x.negate.sign = !x.sign := by
  rw [Extracted.negate, if_neg (mt x.isNan_iff.mp h)]

/-- It inverts the value (R203). -/
theorem Extracted.negate_val (h : x.cls ≠ .nan) : x.negate.val f = -x.val f := by
  have hsign : signOf (!x.sign) = -signOf x.sign := by cases x.sign <;> simp [signOf]
  rw [Extracted.negate, if_neg (mt x.isNan_iff.mp h)]
  simp only [Extracted.val, hsign, neg_mul]

/-- A finite record less itself is `+0`: two zeros have opposite signs, and any other exact difference is zero. -/
theorem addUnit_negate_self (cfg : Config) (rm : FloatMode) (nosub : Bool) (h : x.Finite) :
    addUnit cfg nosub f rm x x.negate = f.zero false := by
  obtain ⟨-, -, -, -, -, hzero, hsum⟩ := addUnit_rows cfg f rm nosub x x.negate
  by_cases h0 : x.cls = .zero
  · rw [hzero h0 (x.negate_cls.trans h0), Extracted.negate_sign h.1, Bool.and_not_self]
  · have hneg : x.negate.Finite := by rwa [Extracted.Finite, x.negate_cls]
    refine (hsum h hneg fun hz => h0 hz.1).1 ?_
    rw [Extracted.negate_val f h.1, add_neg_cancel]

end

/-- Settles O47: equal patterns of one spec are one operand, and its record is finite also where it is flushed. -/
theorem subtractingItselfGivesPlusZero : Obligations.SubtractingItselfGivesPlusZero := by
  intro s q rm nosub h hm hab hfin
  have ⟨⟨_, _, _, _, _, hspec⟩, _⟩ := h
  have hB : s.request.floatB = s.request.floatA := congrArg₂ FloatOperand.mk hspec (congrArg uint hab.symm)
  have hx : (s.request.floatA.input nosub).Finite := Extracted.flush_finite _ nosub hfin
  refine (serve_floatBinary h hm).trans ?_
  rw [hB, addUnit_negate_self _ _ _ _ hx]

/-! ## The addend's own pattern (R264) -/

/-- A legal record is a spec within R9. -/
theorem SpecRecord.float_legal {rec : SpecRecord} {cfg : Config} (h : rec.FloatLegal cfg) : rec.float.Legal := by
  obtain ⟨he, hw, -⟩ := h
  simp only [FloatSpec.Legal, SpecRecord.float]
  omega

/-- The operand of a pattern of the record's width has that pattern. -/
theorem SpecRecord.floatOf_pattern {rec : SpecRecord} {p : Bits} (h : rec.Fits p) : (rec.floatOf p).pattern = p := by
  obtain ⟨w, v⟩ := p
  obtain rfl : rec.float.w = w := by
    have : (w : ℤ) = rec.w := h
    simp only [SpecRecord.float]
    omega
  exact congrArg (Bits.mk _) ((v.ofNat_toNat _).trans v.setWidth_eq)

/-- The pattern of an extract record is the operand's own (R202). -/
theorem FloatOperand.extract_pattern {a : FloatOperand} (hl : a.spec.Legal) : a.extract.pattern a.spec = a.pattern := by
  rw [a.pattern_eq_pack hl, Extracted.pattern]
  split_ifs with hlead
  · have he : a.ef ≠ 0 := fun he => absurd (a.extract_mant_lt_iff.mpr he) (not_lt.mpr hlead)
    simp [FloatOperand.extract, he]
  · have he : a.ef = 0 := a.extract_mant_lt_iff.mp (not_le.mp hlead)
    simp [FloatOperand.extract, he]

/-- An input that is not a Zero was not flushed (R205). -/
theorem FloatOperand.input_of_ne_zero {a : FloatOperand} {nosub : Bool} (h : (a.input nosub).cls ≠ .zero) :
    a.input nosub = a.extract := by
  refine Extracted.flush_of_not a.spec ?_
  rintro ⟨hsub, rfl⟩
  exact h (congrArg Extracted.cls (Extracted.flush_of_subnormal a.spec hsub))

/-- Settles O50: the unit obeys its table, and an addend that is not a Zero keeps its pattern. -/
theorem fpFmaResult : Obligations.FpFmaResult := by
  intro s q rm nosub h hm
  have ⟨⟨_, hd, hdA⟩, _, hfits, hcA⟩ := h
  have hl : s.request.dst.float.Legal := SpecRecord.float_legal hd
  have hspec : s.request.floatC.spec = s.request.dst.float := hcA.trans hdA.symm
  obtain ⟨hnan, hinvalid, hinf, haddend, hzero, hsum⟩ := fmaUnit_rows s.cfg s.request.dst.float rm nosub
    (s.request.floatA.input nosub) (s.request.floatB.input nosub) (s.request.floatC.input nosub)
  refine ⟨_, serve_floatTernary h hm, hnan, hinvalid, hinf, haddend, fun ha hb h0 => ?_, hsum⟩
  obtain ⟨hboth, hown⟩ := hzero ha hb h0
  refine ⟨hboth, fun hc hc0 => (hown hc hc0).trans ?_⟩
  rw [FloatOperand.input_of_ne_zero hc0, ← hspec, FloatOperand.extract_pattern (hspec ▸ hl)]
  exact SpecRecord.floatOf_pattern hfits

end Sys2Proof.Machine
end

section
/-! PROOFS. FP.FMA against FP.MUL and then FP.ADD: what finite patterns contribute to an exact result, the product that
is rounded down to the opposite of the addend, and the power of two that the fused sum keeps. -/

namespace Sys2Proof.Machine

variable {f : FloatSpec}

/-! ## The record of a finite pattern -/

section
variable {r : FloatOperand} {s : Bool} {t : ℕ} {q : ℤ}

/-- The value of the record of a pattern, from what the pattern shows (R203). -/
theorem FloatOperand.Shows.extract_val (h : r.Shows s t q) : r.extract.val r.spec = signOf s * (t * 2 ^ q) := by
  rw [← h.abs_val, FloatOperand.abs_val h.finite, ← h.sign, ← mul_assoc]
  rfl

/-- The value of the pattern itself (R75). -/
theorem FloatOperand.Shows.val (h : r.Shows s t q) : r.val = signOf s * (t * 2 ^ q) :=
  (FloatOperand.val_eq_extract_val h.finite).trans h.extract_val

/-- A pattern with a mantissa other than 0 is no Zero (R74). -/
theorem FloatOperand.Shows.cls_ne_zero (h : r.Shows s t q) (ht : t ≠ 0) : r.cls ≠ .zero := by
  intro hz
  have hval : |r.val| = 0 := by simp [FloatOperand.val, hz]
  rw [h.abs_val] at hval
  exact absurd hval (by positivity)

end

/-! ## Finite operands of the units -/

section
variable (cfg : Config) (rm : FloatMode) (nosub : Bool) {a b c : Extracted} (ha : a.Finite) (hb : b.Finite)
include ha hb

/-- Finite records whose values are opposite add up to `+0`, unless both are Zeros (R244, R247). -/
theorem addUnit_of_opposite (ha0 : a.cls ≠ .zero) (h : a.val f + b.val f = 0) :
    addUnit cfg nosub f rm a b = f.zero false := by
  obtain ⟨-, -, -, -, -, -, hsum⟩ := addUnit_rows cfg f rm nosub a b
  exact (hsum ha hb fun hz => ha0 hz.1).1 h

/-- The product of finite records that are no Zeros is rounded once (R252). -/
theorem mulUnit_of_finite (ha0 : a.cls ≠ .zero) (hb0 : b.cls ≠ .zero) :
    mulUnit cfg nosub f rm a b = roundAssemble cfg f rm nosub (a.sign ^^ b.sign) (|a.val f| * |b.val f|) := by
  obtain ⟨-, -, -, -, -, -, hprod⟩ := mulUnit_rows cfg f rm nosub a b
  exact hprod ha hb ha0 hb0

/-- A positive exact `a · b + c` of finite records, no factor a Zero, is rounded once (R267). -/
theorem fmaUnit_of_pos (hc : c.Finite) (ha0 : a.cls ≠ .zero) (hb0 : b.cls ≠ .zero) {x : ℚ}
    (h : a.val f * b.val f + c.val f = x) (hx : 0 < x) :
    fmaUnit cfg nosub f rm a b c = roundAssemble cfg f rm nosub false x := by
  obtain ⟨-, -, -, -, -, hsum⟩ := fmaUnit_rows cfg f rm nosub a b c
  have hres := (hsum ha hb hc ha0 hb0).2 (h ▸ hx.ne')
  rwa [h, abs_of_pos hx, decide_eq_false hx.not_gt] at hres

end

/-! ## Values about 1 -/

/-- The exponent 0 is a normal one (R73). -/
theorem FloatSpec.Legal.emin_le_zero_le_emax (hl : f.Legal) : f.emin ≤ 0 ∧ 0 ≤ f.emax ∧ 0 ≤ f.bias := by
  obtain ⟨h1, h2⟩ := hl.two_pow_e
  unfold FloatSpec.emin FloatSpec.emax FloatSpec.bias
  omega

/-- The pattern of `1 + k · 2^(−M)`, with either sign. -/
theorem FloatSpec.read_pack_bias (hl : f.Legal) (s : Bool) {k : ℕ} (hk : k < 2 ^ f.m) :
    (f.read (f.pack s f.bias.toNat k)).Shows s (2 ^ f.m + k) (-f.m) := by
  obtain ⟨hmin, hmax, -⟩ := hl.emin_le_zero_le_emax
  have hpow : 2 ^ (f.m + 1) = 2 ^ f.m + 2 ^ f.m := by ring
  have hr := f.read_pack_normal hl s (t := 2 ^ f.m + k) (by omega) (by omega) hmin hmax
  rwa [zero_add, zero_sub, Nat.add_sub_cancel_left] at hr

/-- A representable power of two is kept by every mode (R217 (a)). -/
theorem read_roundAssemble_two_zpow (cfg : Config) (hl : f.Legal) (rm : FloatMode) {n : ℤ} (h1 : f.emin - f.m ≤ n)
    (h2 : n ≤ f.emax) : (f.read (roundAssemble cfg f rm false false (2 ^ n))).val = 2 ^ n := by
  have hpos : (0 : ℚ) < 2 ^ n := by positivity
  have hlog : ilog2 (2 ^ n) = n := ilog2_eq le_rfl (two_zpow_lt_iff.mpr (by omega))
  obtain ⟨k, hk⟩ : ∃ k : ℕ, n = f.expOf (2 ^ n) - f.m + k :=
    ⟨(n + f.m - f.expOf (2 ^ n)).toNat, by rw [FloatSpec.expOf, hlog]; omega⟩
  have hval : ((2 ^ k : ℕ) : ℚ) * 2 ^ (f.expOf (2 ^ n) - f.m) = 2 ^ n := by
    rw [Nat.cast_pow, Nat.cast_ofNat, ← two_zpow_add_natCast, ← hk]
  have hunits : f.units (2 ^ n) = (2 ^ k : ℕ) := by
    rw [FloatSpec.units, div_eq_iff (by positivity), hval]
  obtain ⟨hshows, -⟩ := roundAssemble_spec cfg hl rm false hpos
  rw [hunits, roundedMant_natCast, hval, two_zpow_lt_iff] at hshows
  rw [(hshows (by omega)).val, hval, signOf, if_neg Bool.false_ne_true, one_mul]

/-- A magnitude from 1 up to 2 is rounded under the exponent 0 (R214). -/
theorem FloatSpec.expOf_eq_zero (hl : f.Legal) {x : ℚ} (h1 : 1 ≤ x) (h2 : x < 2) : f.expOf x = 0 := by
  have hlog : ilog2 x = 0 := ilog2_eq (by rwa [zpow_zero]) (by rwa [zero_add, zpow_one])
  rw [FloatSpec.expOf, hlog, max_eq_left hl.emin_le_zero_le_emax.1]

/-- Less than half a unit is dropped by every mode. -/
theorem roundedMant_natCast_add (rm : FloatMode) (n : ℕ) {d : ℚ} (h0 : 0 ≤ d) (h : d < 1 / 2) :
    roundedMant rm (n + d) = n := by
  have hfloor : ⌊(n : ℚ) + d⌋.toNat = n := by
    have hz : ⌊(n : ℚ) + d⌋ = (n : ℤ) := by
      rw [Int.floor_eq_iff, Int.cast_natCast]
      constructor <;> linarith
    rw [hz, Int.toNat_natCast]
  rw [roundedMant_of_lt (by positivity) (by rw [hfloor]; linarith), hfloor]

/-! ## The product rounded on its own (R268) -/

theorem two_pow_mul_two_zpow_neg (m : ℕ) : (2 : ℚ) ^ m * 2 ^ (-m : ℤ) = 1 := by
  rw [← zero_sub, two_pow_mul_unit, zpow_zero]

/-- `(1 + 2^(1−M))²` has `2^M + 4` units and less than half a one. -/
theorem square_units (m : ℕ) :
    ((2 ^ m + 2 : ℕ) * (2 : ℚ) ^ (-m : ℤ)) * ((2 ^ m + 2 : ℕ) * 2 ^ (-m : ℤ)) =
      ((2 ^ m + 4 : ℕ) + 4 * 2 ^ (-m : ℤ)) * 2 ^ (-m : ℤ) := by
  push_cast
  linear_combination (4 + 2 ^ m) * 2 ^ (-m : ℤ) * two_pow_mul_two_zpow_neg m

/-- It is rounded down, to `1 + 2^(2−M)`, by every mode. -/
theorem read_roundAssemble_square (cfg : Config) (hl : f.Legal) (hm : 4 ≤ f.m) (rm : FloatMode) :
    (f.read (roundAssemble cfg f rm false false
      (((2 ^ f.m + 4 : ℕ) + 4 * 2 ^ (-f.m : ℤ)) * 2 ^ (-f.m : ℤ)))).Shows false (2 ^ f.m + 4) (-f.m) := by
  have hmax := hl.emin_le_zero_le_emax.2.1
  have hu : (2 : ℚ) ^ (-f.m : ℤ) ≤ 1 / 16 :=
    (two_zpow_le_iff.mpr (show (-f.m : ℤ) ≤ -4 by omega)).trans_eq (by norm_num)
  have hnu : ((2 ^ f.m + 4 : ℕ) : ℚ) * 2 ^ (-f.m : ℤ) = 1 + 4 * 2 ^ (-f.m : ℤ) := by
    push_cast
    linear_combination two_pow_mul_two_zpow_neg f.m
  have hu0 : (0 : ℚ) < 2 ^ (-f.m : ℤ) := by positivity
  generalize hn : 2 ^ f.m + 4 = n at hnu ⊢
  set u : ℚ := 2 ^ (-f.m : ℤ) with hu_def
  have hx : (n + 4 * u) * u = 1 + (4 * u + 4 * u ^ 2) := by linear_combination hnu
  have hsq : u ^ 2 ≤ 1 / 16 * u := by nlinarith
  have hexp : f.expOf ((n + 4 * u) * u) = 0 := by
    rw [hx]
    exact FloatSpec.expOf_eq_zero hl (le_add_of_nonneg_right (by positivity)) (by linarith)
  have hunits : f.units ((n + 4 * u) * u) = n + 4 * u := by
    rw [FloatSpec.units, hexp, zero_sub, ← hu_def, mul_div_cancel_right₀ _ hu0.ne']
  obtain ⟨hshows, -⟩ := roundAssemble_spec cfg hl rm false (x := (n + 4 * u) * u) (by positivity)
  rw [hexp, hunits, roundedMant_natCast_add rm n (by positivity) (by linarith), zero_sub, ← hu_def, hnu] at hshows
  refine hshows (lt_of_lt_of_le (by linarith : 1 + 4 * u < 2) ?_)
  exact (zpow_one (2 : ℚ)).ge.trans (two_zpow_le_iff.mpr (by omega))

/-- Settles O51: the exact square is `1 + 2^(2−M)` and `2^(2−2M)`; FP.FMA keeps the second, FP.MUL rounds it off. -/
theorem fmaDiffersFromMulThenAdd : Obligations.FmaDiffersFromMulThenAdd := by
  intro cfg f hl hm hrep a c
  have hpow : 2 ^ 4 ≤ 2 ^ f.m := Nat.pow_le_pow_right two_pos hm
  have hA := f.read_pack_bias hl false (k := 2) (by omega)
  have hC := f.read_pack_bias hl true (k := 4) (by omega)
  have ha0 : a.cls ≠ .zero := hA.cls_ne_zero (by omega)
  have ha : a.val f = (2 ^ f.m + 2 : ℕ) * 2 ^ (-f.m : ℤ) := hA.extract_val.trans (one_mul _)
  have hc : c.val f = -((2 ^ f.m + 4 : ℕ) * 2 ^ (-f.m : ℤ)) := hC.extract_val.trans (neg_one_mul _)
  have hsquare : a.val f * a.val f = ((2 ^ f.m + 4 : ℕ) + 4 * 2 ^ (-f.m : ℤ)) * 2 ^ (-f.m : ℤ) := by
    rw [ha]
    exact square_units f.m
  constructor
  · have hsum : a.val f * a.val f + c.val f = 2 ^ (2 - 2 * (f.m : ℤ)) := by
      have hexp : 2 - 2 * (f.m : ℤ) = (2 : ℕ) + (-f.m) + (-f.m) := by push_cast; ring
      rw [hsquare, hc, hexp, zpow_add₀ two_ne_zero, zpow_add₀ two_ne_zero]
      rw [zpow_natCast]
      ring
    rw [fmaUnit_of_pos cfg _ false hA.finite hA.finite hC.finite ha0 ha0 hsum (by positivity)]
    exact read_roundAssemble_two_zpow cfg hl _ hrep (by have := hl.emin_le_zero_le_emax; omega)
  · have hprod : mulUnit cfg false f .roundNearestEven a a = roundAssemble cfg f .roundNearestEven false false
        (((2 ^ f.m + 4 : ℕ) + 4 * 2 ^ (-f.m : ℤ)) * 2 ^ (-f.m : ℤ)) := by
      rw [mulUnit_of_finite cfg _ false hA.finite hA.finite ha0 ha0, Bool.xor_self, ← abs_mul, hsquare,
        abs_of_nonneg (by positivity)]
    have hP := read_roundAssemble_square cfg hl hm .roundNearestEven
    rw [← hprod] at hP
    refine addUnit_of_opposite cfg _ false hP.finite hC.finite (hP.cls_ne_zero (by omega)) ?_
    have hval : (f.read (mulUnit cfg false f .roundNearestEven a a)).extract.val f =
        (2 ^ f.m + 4 : ℕ) * 2 ^ (-f.m : ℤ) := hP.extract_val.trans (one_mul _)
    rw [hval, hc, add_neg_cancel]

end Sys2Proof.Machine
end

section
/-! PROOFS. The rounded root: the truncated root of a number of squared units and the increment of the mode, why the root
of a finite operand is never a tie, and the exponent under which it is rounded. -/

namespace Sys2Proof.Machine

variable {f : FloatSpec}

/-! ## The rounded root of a number of squared units (R276) -/

/-- The truncated root: the largest integer whose square is at most `r`. -/
def rootFloor (r : ℚ) : ℕ := isqrt ⌊r⌋.toNat

/-- The guard bit of the root: it lies from the middle above the truncated root on. -/
def rootGuard (r : ℚ) : Bool := decide (((2 * rootFloor r + 1 : ℕ) : ℚ) ^ 2 ≤ 4 * r)

/-- The sticky bit of the root: neither nothing nor exactly a half is discarded. -/
def rootSticky (r : ℚ) : Bool := (rootFloor r : ℚ) ^ 2 ≠ r && ((2 * rootFloor r + 1 : ℕ) : ℚ) ^ 2 ≠ 4 * r

/-- The mantissa `rootAssemble` keeps of a root whose square is `r` squared units: truncated, and incremented as the mode
says. -/
def rootMant (rm : FloatMode) (r : ℚ) : ℕ :=
  rootFloor r + (floatRoundUp rm (rootGuard r) (rootSticky r) (lsbOf (rootFloor r))).toNat

theorem rootMant_truncate (r : ℚ) : rootMant .truncateTowardZero r = rootFloor r := rfl

/-- The increment is at most one unit. -/
theorem rootMant_range (rm : FloatMode) (r : ℚ) : rootFloor r ≤ rootMant rm r ∧ rootMant rm r ≤ rootFloor r + 1 := by
  have := Bool.toNat_le (floatRoundUp rm (rootGuard r) (rootSticky r) (lsbOf (rootFloor r)))
  unfold rootMant
  omega

/-- The squares of the truncated root and of its successor bracket `r` (R276). -/
theorem rootFloor_sq_bounds {r : ℚ} (hr : 0 ≤ r) : (rootFloor r : ℚ) ^ 2 ≤ r ∧ r < (rootFloor r + 1) ^ 2 := by
  obtain ⟨h1, h2⟩ := isqrt_spec ⌊r⌋.toNat
  obtain ⟨hfl, hfl', -⟩ := floor_toNat_bounds hr
  have h1' : (rootFloor r : ℚ) ^ 2 ≤ ⌊r⌋.toNat := by
    rw [pow_two]
    exact_mod_cast h1
  have h2' : (⌊r⌋.toNat : ℚ) + 1 ≤ (rootFloor r + 1) ^ 2 := by
    rw [pow_two]
    exact_mod_cast h2
  exact ⟨h1'.trans hfl, hfl'.trans_le h2'⟩

/-- An odd number of half units squared is never a natural number of squared units, so no root of such a number is a tie
(R277). -/
theorem odd_sq_ne_four_mul (n k : ℕ) : ((2 * n + 1 : ℕ) : ℚ) ^ 2 ≠ 4 * k := by
  intro h
  have h' : (2 * n + 1) ^ 2 = 4 * k := by exact_mod_cast h
  have hodd : (2 * n + 1) ^ 2 = 4 * (n ^ 2 + n) + 1 := by ring
  omega

/-- Where the root is no tie, every nearest mode increments by the guard bit alone (R277). -/
theorem rootMant_of_nearest {rm : FloatMode} (hrm : rm ≠ .truncateTowardZero) (k : ℕ) :
    rootMant rm k = rootFloor k + (rootGuard k).toNat := by
  have htie := odd_sq_ne_four_mul (rootFloor k) k
  cases hg : rootGuard (k : ℚ) with
  | false =>
    rw [rootMant, hg]
    cases rm <;> rfl
  | true =>
    have hge : ((2 * rootFloor (k : ℚ) + 1 : ℕ) : ℚ) ^ 2 ≤ 4 * k := of_decide_eq_true hg
    have hsq : (rootFloor (k : ℚ) : ℚ) ^ 2 ≠ k := by
      intro h
      push_cast at hge
      nlinarith [(rootFloor (k : ℚ)).cast_nonneg (α := ℚ)]
    have hs : rootSticky (k : ℚ) = true := by rw [rootSticky, decide_eq_true hsq, decide_eq_true htie, Bool.and_self]
    rw [rootMant, hg, hs]
    cases rm with
    | truncateTowardZero => exact absurd rfl hrm
    | roundNearestEven | roundNearestAwayFromZero | roundNearestOdd => rfl

/-- The real root lies between the truncated root and its successor, and above their middle iff the guard bit is set. -/
theorem rootFloor_sqrt_bounds {r : ℚ} (hr : 0 ≤ r) :
    (rootFloor r : ℝ) ≤ √r ∧ √r ≤ rootFloor r + 1 ∧ (rootGuard r = true ↔ (rootFloor r : ℝ) + 1 / 2 ≤ √r) := by
  obtain ⟨h1, h2⟩ := rootFloor_sq_bounds hr
  have h1' : (rootFloor r : ℝ) ^ 2 ≤ r := by exact_mod_cast h1
  have h2' : (r : ℝ) < (rootFloor r + 1) ^ 2 := by exact_mod_cast h2
  have hguard : rootGuard r = true ↔ ((2 * rootFloor r + 1 : ℕ) : ℝ) ^ 2 ≤ 4 * r := by
    rw [rootGuard, decide_eq_true_iff]
    exact_mod_cast Iff.rfl
  refine ⟨Real.le_sqrt_of_sq_le h1', Real.sqrt_le_iff.mpr ⟨by positivity, h2'.le⟩, ?_⟩
  rw [hguard, Real.le_sqrt' (by positivity)]
  push_cast
  constructor <;> intro h <;> linarith

/-- No value on the far side of a unit interval is nearer to the real root than the multiple of a unit that a nearest mode
keeps. -/
theorem rootMant_nearest {rm : FloatMode} (hrm : rm ≠ .truncateTowardZero) (k : ℕ) {z : ℝ}
    (hz : z ≤ rootFloor k ∨ rootFloor k + 1 ≤ z) : |√k - rootMant rm k| ≤ |√k - z| := by
  obtain ⟨h1, h2, hguard⟩ := rootFloor_sqrt_bounds (r := k) k.cast_nonneg
  rw [Rat.cast_natCast] at h1 h2 hguard
  rw [rootMant_of_nearest hrm]
  cases hg : rootGuard (k : ℚ) with
  | true =>
    have hmid := hguard.mp hg
    rw [Bool.toNat_true, Nat.cast_succ, abs_of_nonpos (by linarith)]
    rcases hz with hz | hz
    · rw [abs_of_nonneg (by linarith)]
      linarith
    · rw [abs_of_nonpos (by linarith)]
      linarith
  | false =>
    have hmid : √(k : ℝ) < rootFloor k + 1 / 2 := not_le.mp fun h => Bool.false_ne_true (hg.symm.trans (hguard.mpr h))
    rw [Bool.toNat_false, Nat.add_zero, abs_of_nonneg (by linarith)]
    rcases hz with hz | hz
    · rw [abs_of_nonneg (by linarith)]
      linarith
    · rw [abs_of_nonpos (by linarith)]
      linarith

/-! ## The exponent and the squared units of a root (R276) -/

/-- The exponent under which the root of `x` is rounded (R214, R276). -/
def FloatSpec.rootExp (f : FloatSpec) (x : ℚ) : ℤ := max (ilog2 x / 2) f.emin

/-- `x` in squared units of the last mantissa bit of its root (R276). -/
def FloatSpec.rootUnits (f : FloatSpec) (x : ℚ) : ℚ := x / 2 ^ (2 * (f.rootExp x - f.m))

/-- Without `NOSUB` the rounded root is placed (R276). -/
theorem rootAssemble_false (cfg : Config) (f : FloatSpec) (rm : FloatMode) (x : ℚ) :
    rootAssemble cfg f rm false x = f.place rm false (f.rootExp x) (rootMant rm (f.rootUnits x)) :=
  (assemble_eq_place ..).trans (if_neg fun h => Bool.false_ne_true h.1)

theorem two_zpow_two_mul (n : ℤ) : (2 : ℚ) ^ (2 * n) = (2 ^ n) ^ 2 := by
  rw [mul_comm, zpow_mul, zpow_ofNat]

theorem FloatSpec.rootUnits_mul (f : FloatSpec) (x : ℚ) : f.rootUnits x * (2 ^ (f.rootExp x - f.m)) ^ 2 = x := by
  rw [FloatSpec.rootUnits, two_zpow_two_mul]
  exact div_mul_cancel₀ _ (by positivity)

theorem FloatSpec.emin_le_of_lt_rootExp {x : ℚ} (h : f.emin < f.rootExp x) : f.emin ≤ ilog2 x / 2 := by
  unfold FloatSpec.rootExp at h
  omega

section
variable {x : ℚ} (hx : 0 < x)
include hx

theorem FloatSpec.rootUnits_nonneg : 0 ≤ f.rootUnits x := div_nonneg hx.le (by positivity)

/-! The truncated root fills the mantissa above the least exponent, and never overfills it. -/

theorem FloatSpec.rootFloor_units_lt : rootFloor (f.rootUnits x) < 2 ^ (f.m + 1) := by
  have hq : (0 : ℚ) < (2 ^ (f.rootExp x - f.m)) ^ 2 := by positivity
  have hlt : f.rootUnits x * (2 ^ (f.rootExp x - f.m)) ^ 2 < (2 ^ (f.rootExp x + 1)) ^ 2 := by
    rw [f.rootUnits_mul, ← two_zpow_two_mul, lt_two_zpow_iff_ilog2_lt hx, FloatSpec.rootExp]
    omega
  rw [← two_pow_succ_mul_unit _ f.m, mul_pow] at hlt
  have hsq := (rootFloor_sq_bounds (f.rootUnits_nonneg hx)).1.trans_lt (lt_of_mul_lt_mul_right hlt hq.le)
  exact_mod_cast lt_of_pow_lt_pow_left₀ 2 (by positivity) hsq

theorem FloatSpec.le_rootFloor_units (h : f.emin ≤ ilog2 x / 2) : 2 ^ f.m ≤ rootFloor (f.rootUnits x) := by
  have hq : (0 : ℚ) < (2 ^ (f.rootExp x - f.m)) ^ 2 := by positivity
  have hle : (2 ^ f.rootExp x) ^ 2 ≤ f.rootUnits x * (2 ^ (f.rootExp x - f.m)) ^ 2 := by
    rw [f.rootUnits_mul, ← two_zpow_two_mul, ← not_lt, lt_two_zpow_iff_ilog2_lt hx, FloatSpec.rootExp]
    omega
  rw [← two_pow_mul_unit _ f.m, mul_pow] at hle
  have hsq := (le_of_mul_le_mul_right hle hq).trans_lt (rootFloor_sq_bounds (f.rootUnits_nonneg hx)).2
  have hlt := lt_of_pow_lt_pow_left₀ 2 (by positivity) hsq
  exact Nat.lt_succ_iff.mp (by exact_mod_cast hlt)

theorem FloatSpec.rootMant_units_le (rm : FloatMode) : rootMant rm (f.rootUnits x) ≤ 2 ^ (f.m + 1) :=
  (rootMant_range rm _).2.trans (f.rootFloor_units_lt hx)

theorem FloatSpec.le_rootMant_units (rm : FloatMode) (h : f.emin ≤ ilog2 x / 2) :
    2 ^ f.m ≤ rootMant rm (f.rootUnits x) :=
  (f.le_rootFloor_units hx h).trans (rootMant_range rm _).1

end

/-! ## Finite operands -/

section
variable {p : FloatOperand} (hl : p.spec.Legal) (hp : p.Finite)
include hl hp

/-- A finite magnitude that is not 0 is no less than the least one, and its exponent no more than that of its record. -/
theorem finite_abs_val_range (h0 : 0 < |p.val|) :
    (2 : ℚ) ^ (p.spec.emin - p.spec.m) ≤ |p.val| ∧ ilog2 |p.val| ≤ p.extract.exp := by
  obtain ⟨hmin, -⟩ := p.extract_exp_range hl hp
  have hmant : (p.extract.mant : ℚ) < 2 ^ (p.spec.m + 1) := by exact_mod_cast p.extract_mant_lt
  have hlog : ilog2 |p.val| < p.extract.exp + 1 := by
    rw [← lt_two_zpow_iff_ilog2_lt h0, ← two_pow_succ_mul_unit _ p.spec.m, FloatOperand.abs_val hp]
    gcongr
  rw [FloatOperand.abs_val hp] at h0
  have hmant0 : p.extract.mant ≠ 0 := fun h => h0.ne' (by rw [h, Nat.cast_zero, zero_mul])
  refine ⟨?_, Int.lt_add_one_iff.mp hlog⟩
  calc (2 : ℚ) ^ (p.spec.emin - p.spec.m) ≤ 2 ^ (p.extract.exp - p.spec.m) := two_zpow_le_iff.mpr (by omega)
    _ ≤ p.extract.mant * 2 ^ (p.extract.exp - p.spec.m) :=
      le_mul_of_one_le_left (by positivity) (by exact_mod_cast Nat.one_le_iff_ne_zero.mpr hmant0)
    _ = |p.val| := (FloatOperand.abs_val hp).symm

/-- A finite magnitude is a natural number of squared units of its root (R277): twice the exponent of the root is no more
than that of the operand, whose mantissa has `M` places below its leading bit. -/
theorem finite_rootUnits (h0 : 0 < |p.val|) : ∃ k : ℕ, p.spec.rootUnits |p.val| = k := by
  obtain ⟨hmin, -⟩ := p.extract_exp_range hl hp
  obtain ⟨-, hlog⟩ := finite_abs_val_range hl hp h0
  have hneg := hl.emin_le_zero_le_emax.1
  obtain ⟨d, hd⟩ : ∃ d : ℕ, p.extract.exp - p.spec.m = 2 * (p.spec.rootExp |p.val| - p.spec.m) + d :=
    ⟨(p.extract.exp + p.spec.m - 2 * p.spec.rootExp |p.val|).toNat, by unfold FloatSpec.rootExp; omega⟩
  refine ⟨p.extract.mant * 2 ^ d, ?_⟩
  have hval : |p.val| = p.extract.mant * 2 ^ d * 2 ^ (2 * (p.spec.rootExp |p.val| - p.spec.m)) := by
    rw [mul_assoc, ← two_zpow_add_natCast, ← hd, ← FloatOperand.abs_val hp]
  rw [FloatSpec.rootUnits, div_eq_iff (by positivity), Nat.cast_mul, Nat.cast_pow, Nat.cast_ofNat]
  exact hval

/-- The root of a finite magnitude lies below the last power of two. -/
theorem finite_rootExp_lt (h0 : 0 < |p.val|) : p.spec.rootExp |p.val| < p.spec.emax := by
  have hlog := (lt_two_zpow_iff_ilog2_lt h0 _).mp (finite_abs_val_lt hl hp)
  have hneg := hl.emin_le_zero_le_emax.1
  have hlim := hl.emin_lt_emax
  have hbias : p.spec.emin + p.spec.emax = 1 := by
    obtain ⟨hpow, -⟩ := hl.two_pow_e
    unfold FloatSpec.emin FloatSpec.emax FloatSpec.bias
    omega
  unfold FloatSpec.rootExp
  omega

end

end Sys2Proof.Machine
end

section
/-! PROOFS. FP.SQRT: the pattern that shows the rounded root, its distance to the real root, its flush, the table of special
cases, and the agreement of the nearest modes. -/

namespace Sys2Proof.Machine

variable {f : FloatSpec}

/-! ## The pattern of the rounded root (R271, R276) -/

section
variable {x : ℚ} (hl : f.Legal) (hx : 0 < x) (hE : f.rootExp x < f.emax)
include hl hx hE

/-- The root does not overflow, and the pattern stored without a flush shows it. -/
theorem rootAssemble_shows (cfg : Config) (rm : FloatMode) :
    (f.read (rootAssemble cfg f rm false x)).Shows false (rootMant rm (f.rootUnits x)) (f.rootExp x - f.m) := by
  rw [rootAssemble_false]
  refine (f.place_spec hl rm false (le_max_right _ _)
    (fun h => f.le_rootMant_units hx rm (f.emin_le_of_lt_rootExp h)) (f.rootMant_units_le hx rm)).1 ?_
  calc (rootMant rm (f.rootUnits x) : ℚ) * 2 ^ (f.rootExp x - f.m)
      ≤ 2 ^ (f.m + 1) * 2 ^ (f.rootExp x - f.m) := by gcongr; exact_mod_cast f.rootMant_units_le hx rm
    _ = 2 ^ (f.rootExp x + 1) := two_pow_succ_mul_unit ..
    _ < 2 ^ (f.emax + 1) := two_zpow_lt_iff.mpr (by omega)

omit hE in
/-- A finite magnitude, in the units of the root, does not lie inside the unit interval that the root lies in. -/
theorem finite_abs_val_rootUnits {p : FloatOperand} (hp : p.spec = f) (hpf : p.Finite) :
    ∃ z : ℚ, |p.val| = z * 2 ^ (f.rootExp x - f.m) ∧
      (z ≤ rootFloor (f.rootUnits x) ∨ rootFloor (f.rootUnits x) + 1 ≤ z) := by
  subst hp
  have hq : (0 : ℚ) < 2 ^ (p.spec.rootExp x - p.spec.m) := by positivity
  refine ⟨|p.val| / 2 ^ (p.spec.rootExp x - p.spec.m), (div_mul_cancel₀ _ hq.ne').symm, ?_⟩
  rw [div_le_iff₀ hq, le_div_iff₀ hq]
  exact finite_abs_val_grid hl hpf (le_max_right _ _)
    fun h => p.spec.le_rootFloor_units hx (p.spec.emin_le_of_lt_rootExp h)

/-- Under TruncateTowardZero the pattern is the largest whose square is not above `x`. -/
theorem rootAssemble_truncate (cfg : Config) :
    (f.read (rootAssemble cfg f .truncateTowardZero false x)).val ^ 2 ≤ x ∧
    ∀ p : FloatOperand, p.spec = f → p.Finite → 0 ≤ p.val → p.val ^ 2 ≤ x →
      p.val ≤ (f.read (rootAssemble cfg f .truncateTowardZero false x)).val := by
  have hq : (0 : ℚ) < 2 ^ (f.rootExp x - f.m) := by positivity
  obtain ⟨hfl, hfl'⟩ := rootFloor_sq_bounds (f.rootUnits_nonneg hx)
  have hval := (rootAssemble_shows hl hx hE cfg .truncateTowardZero).val
  rw [signOf, if_neg Bool.false_ne_true, one_mul, rootMant_truncate] at hval
  rw [hval]
  constructor
  · rw [mul_pow]
    exact (mul_le_mul_of_nonneg_right hfl (by positivity)).trans_eq (f.rootUnits_mul x)
  · intro p hp hpf hp0 hle
    obtain ⟨z, hz, hside⟩ := finite_abs_val_rootUnits hl hx hp hpf
    rw [abs_of_nonneg hp0] at hz
    rw [hz] at hle ⊢
    rcases hside with h | h
    · gcongr
    · rw [mul_pow] at hle
      have hsq := le_of_mul_le_mul_right (hle.trans_eq (f.rootUnits_mul x).symm) (by positivity)
      exact absurd (hfl'.trans_le (by gcongr)) (not_lt.mpr hsq)

/-- Under a nearest mode no finite value is nearer to the real root, which is no tie. -/
theorem rootAssemble_nearest (cfg : Config) {rm : FloatMode} (hrm : rm ≠ .truncateTowardZero) {k : ℕ}
    (hk : f.rootUnits x = k) {p : FloatOperand} (hp : p.spec = f) (hpf : p.Finite) :
    |√x - (f.read (rootAssemble cfg f rm false x)).val| ≤ |√x - p.val| := by
  obtain ⟨z, hz, hside⟩ := finite_abs_val_rootUnits hl hx hp hpf
  have hval := (rootAssemble_shows hl hx hE cfg rm).val
  have hroot := f.rootUnits_mul x
  generalize hq : (2 : ℚ) ^ (f.rootExp x - f.m) = q at hz hval hroot
  have hq0 : (0 : ℝ) < q := by
    rw [← hq]
    positivity
  rw [signOf, if_neg Bool.false_ne_true, one_mul] at hval
  rw [hk] at hval hroot hside
  have hsqrt : √(x : ℝ) = √k * q := by
    rw [← hroot, Rat.cast_mul, Rat.cast_natCast, Rat.cast_pow, Real.sqrt_mul k.cast_nonneg, Real.sqrt_sq hq0.le]
  have hnear : |√k - rootMant rm k| ≤ |√k - z| := rootMant_nearest hrm k (by exact_mod_cast hside)
  have hsign : |(√x - |(p.val : ℝ)|)| ≤ |√x - p.val| := by
    have h := abs_abs_sub_abs_le (√x) (p.val : ℝ)
    rwa [abs_of_nonneg (Real.sqrt_nonneg _)] at h
  refine le_trans ?_ hsign
  rw [← Rat.cast_abs, hz, hval, hsqrt]
  push_cast
  rw [← sub_mul, ← sub_mul, abs_mul, abs_mul]
  gcongr

/-- The pattern stored without a flush is the root correctly rounded. -/
theorem rootAssemble_rounded (cfg : Config) (rm : FloatMode) {k : ℕ} (hk : f.rootUnits x = k) :
    RootRounded f rm x (rootAssemble cfg f rm false x) := by
  have hshows := rootAssemble_shows hl hx hE cfg rm
  refine ⟨rootAssemble_width .., hshows.finite, hshows.sign, ?_, fun hrm p hp hpf => ?_⟩
  · rintro rfl
    exact rootAssemble_truncate hl hx hE cfg
  · exact rootAssemble_nearest hl hx hE cfg hrm hk hp hpf

end

/-! ## The flush of the root (R215) -/

/-- What `assemble` makes of a rounded mantissa is the flush of the pattern placed, where only a magnitude below `2^emin`
lacks its leading bit. -/
theorem FloatSpec.flush_place (cfg : Config) (hl : f.Legal) (rm : FloatMode) (nosub s : Bool) {E : ℤ} {t : ℕ}
    {tiny : Prop} [Decidable tiny] (hE : f.emin ≤ E) (ht : t ≤ 2 ^ (f.m + 1)) (hlead : ¬ tiny → 2 ^ f.m ≤ t) :
    (if nosub = true ∧ (cfg.ftzRule = .beforeRounding ∧ tiny ∨ t < 2 ^ f.m) then f.zero s else f.place rm s E t) =
      flushOutput cfg f nosub s tiny (f.place rm s E t) := by
  have hsub := f.read_place_subnormal_iff hl rm s hE ht
  cases nosub with
  | false => simp [flushOutput]
  | true =>
    cases hftz : cfg.ftzRule with
    | afterRounding =>
      rw [flushOutput_afterRounding hftz, if_congr hsub rfl rfl]
      by_cases h0 : t = 0
      · have hz : f.place rm s E 0 = f.zero s := if_pos (by positivity)
        rw [h0, hz, ite_self, ite_self]
      · simp [h0]
    | beforeRounding =>
      rw [flushOutput_beforeRounding hftz]
      refine if_congr ⟨fun ⟨_, h⟩ => h.elim And.right fun hlt => ?_, fun h => ⟨rfl, .inl ⟨rfl, h⟩⟩⟩ rfl rfl
      by_contra hbig
      exact absurd (hlead hbig) (not_le.mpr hlt)

/-- The root lies below `2^emin` iff its square lies below `2^(2·emin)`. -/
theorem FloatSpec.root_tiny_iff (f : FloatSpec) {x : ℚ} (hx : 0 < x) :
    ilog2 x / 2 < f.emin ↔ x < 2 ^ (2 * f.emin) := by
  rw [lt_two_zpow_iff_ilog2_lt hx]
  omega

section
variable {x : ℚ} (cfg : Config) (rm : FloatMode) (nosub : Bool) (hx : 0 < x)
include hx

/-- `rootAssemble` flushes, or places the rounded root (R215, R276). -/
theorem rootAssemble_eq_place :
    rootAssemble cfg f rm nosub x =
      if nosub = true ∧ (cfg.ftzRule = .beforeRounding ∧ x < 2 ^ (2 * f.emin) ∨ rootMant rm (f.rootUnits x) < 2 ^ f.m)
      then f.zero false
      else f.place rm false (f.rootExp x) (rootMant rm (f.rootUnits x)) :=
  (assemble_eq_place ..).trans <| if_congr
    (and_congr_right fun _ => or_congr_left (and_congr_right fun _ => f.root_tiny_iff hx)) rfl rfl

/-- The mantissa of a root not below `2^emin` has its leading bit (R271). -/
theorem FloatSpec.le_rootMant_of_le (hbig : 2 ^ (2 * f.emin) ≤ x) : 2 ^ f.m ≤ rootMant rm (f.rootUnits x) :=
  f.le_rootMant_units hx rm (not_lt.mp (mt (f.root_tiny_iff hx).mp (not_lt.mpr hbig)))

variable (hl : f.Legal)
include hl

/-- The root is the flush of what is stored without `NOSUB`. -/
theorem rootAssemble_flush :
    rootAssemble cfg f rm nosub x =
      flushOutput cfg f nosub false (x < 2 ^ (2 * f.emin)) (rootAssemble cfg f rm false x) := by
  rw [rootAssemble_false, rootAssemble_eq_place cfg rm nosub hx]
  exact f.flush_place cfg hl rm nosub false (le_max_right _ _) (f.rootMant_units_le hx rm)
    fun h => f.le_rootMant_of_le rm hx (not_lt.mp h)

/-- A root not below `2^emin` is Normal, and nothing is flushed (R271). -/
theorem rootAssemble_normal (hE : f.rootExp x < f.emax) (hbig : 2 ^ (2 * f.emin) ≤ x) :
    (f.read (rootAssemble cfg f rm false x)).cls = .normal ∧
      rootAssemble cfg f rm nosub x = rootAssemble cfg f rm false x := by
  have hlead := f.le_rootMant_of_le rm hx hbig
  have hshows := rootAssemble_shows hl hx hE cfg rm
  constructor
  · have hzero := hshows.cls_ne_zero ((Nat.two_pow_pos _).trans_le hlead).ne'
    have hsub : (f.read (rootAssemble cfg f rm false x)).cls ≠ .subnormal := by
      rw [rootAssemble_false]
      refine mt (f.read_place_subnormal_iff hl rm false (le_max_right _ _) (f.rootMant_units_le hx rm)).mp ?_
      exact fun h => absurd hlead (not_le.mpr h.1)
    obtain ⟨hnan, hinf⟩ := hshows.finite
    cases hc : (f.read (rootAssemble cfg f rm false x)).cls with
    | zero => exact absurd hc hzero
    | subnormal => exact absurd hc hsub
    | normal => rfl
    | infinity => exact absurd hc hinf
    | nan => exact absurd hc hnan
  · rw [rootAssemble_false, rootAssemble_eq_place cfg rm nosub hx, if_neg]
    rintro ⟨-, ⟨-, htiny⟩ | hlt⟩
    · exact absurd hbig (not_le.mpr htiny)
    · exact absurd hlead (not_le.mpr hlt)

end

/-! ## FP.SQRT (R270, R274) -/

/-- The table of R270, and the root rounded where no row applies. -/
theorem sqrtUnit_rows (cfg : Config) (f : FloatSpec) (rm : FloatMode) (nosub : Bool) (a : Extracted) :
    (a.cls = .nan → sqrtUnit cfg nosub f rm a = nanResult cfg f [a]) ∧
    (a.cls = .zero → sqrtUnit cfg nosub f rm a = f.zero a.sign) ∧
    (a.cls ≠ .nan → a.cls ≠ .zero → a.sign = true → sqrtUnit cfg nosub f rm a = nanResult cfg f [a]) ∧
    (a.cls = .infinity → a.sign = false → sqrtUnit cfg nosub f rm a = f.inf false) ∧
    (a.Finite → a.cls ≠ .zero → a.sign = false →
      sqrtUnit cfg nosub f rm a = rootAssemble cfg f rm nosub (a.val f)) := by
  refine ⟨fun h => ?_, fun h => ?_, fun h h0 hs => ?_, fun h hs => ?_, fun ⟨h, h'⟩ h0 hs => ?_⟩
  · simp [sqrtUnit, sqrtSpecial, h]
  · simp [sqrtUnit, sqrtSpecial, h]
  · simp [sqrtUnit, sqrtSpecial, h, h0, hs]
  · simp [sqrtUnit, sqrtSpecial, h, hs]
  · simp [sqrtUnit, sqrtSpecial, h, h', h0, hs]

/-- A pattern with a value that is no Zero has a magnitude above 0 (R75). -/
theorem FloatOperand.abs_val_pos {p : FloatOperand} (hp : p.Finite) (h0 : p.cls ≠ .zero) : 0 < |p.val| := by
  rw [FloatOperand.abs_val hp]
  have hmant : p.extract.mant ≠ 0 := by
    intro hm
    have he : p.ef = 0 := p.extract_mant_lt_iff.mp (hm ▸ Nat.two_pow_pos _)
    refine h0 (FloatOperand.cls_eq_zero_iff.mpr ⟨he, ?_⟩)
    simpa [FloatOperand.extract, he] using hm
  positivity

section
variable {p : FloatOperand} {nosub : Bool} (ha : (p.input nosub).Finite) (h0 : (p.input nosub).cls ≠ .zero)
  (hs : (p.input nosub).sign = false)
include ha h0 hs

/-- A finite positive input was not flushed, and its value is the magnitude of the operand (R203, R205). -/
theorem FloatOperand.input_positive : p.Finite ∧ 0 < |p.val| ∧ (p.input nosub).val p.spec = |p.val| := by
  have hin := FloatOperand.input_of_ne_zero h0
  rw [hin] at ha h0 hs ⊢
  have hsign : signOf p.extract.sign = 1 := by rw [hs]; rfl
  refine ⟨ha, FloatOperand.abs_val_pos ha h0, ?_⟩
  rw [FloatOperand.abs_val ha, Extracted.val, hsign, one_mul]

variable (cfg : Config) (hl : p.spec.Legal)
include hl

/-- The root of a finite positive input is rounded correctly and flushed as any result is; where `emin + M ≤ 0` no operand
is small enough for a root below `2^emin` (R271, R274). -/
theorem sqrtUnit_positive (rm : FloatMode) :
    ∃ u, RootRounded p.spec rm ((p.input nosub).val p.spec) u ∧
      sqrtUnit cfg nosub p.spec rm (p.input nosub) =
        flushOutput cfg p.spec nosub false ((p.input nosub).val p.spec < 2 ^ (2 * p.spec.emin)) u ∧
      (p.spec.emin + p.spec.m ≤ 0 →
        (p.spec.read (sqrtUnit cfg nosub p.spec rm (p.input nosub))).cls = .normal ∧
          sqrtUnit cfg nosub p.spec rm (p.input nosub) = u) := by
  obtain ⟨-, -, -, -, hroot⟩ := sqrtUnit_rows cfg p.spec rm nosub (p.input nosub)
  obtain ⟨hp, hpos, hval⟩ := FloatOperand.input_positive ha h0 hs
  obtain ⟨k, hk⟩ := finite_rootUnits hl hp hpos
  obtain ⟨hleast, -⟩ := finite_abs_val_range hl hp hpos
  have hE := finite_rootExp_lt hl hp hpos
  simp only [hroot ha h0 hs, hval]
  refine ⟨_, rootAssemble_rounded hl hpos hE cfg rm hk, rootAssemble_flush cfg rm nosub hpos hl, fun hem => ?_⟩
  have hbig : 2 ^ (2 * p.spec.emin) ≤ |p.val| := (two_zpow_le_iff.mpr (by omega)).trans hleast
  obtain ⟨hnormal, hsame⟩ := rootAssemble_normal cfg rm nosub hpos hl hE hbig
  exact ⟨hsame ▸ hnormal, hsame⟩

/-- Two nearest modes round the root of a finite positive input alike (R277). -/
theorem sqrtUnit_positive_nearest {rm rm' : FloatMode} (hrm : rm ≠ .truncateTowardZero)
    (hrm' : rm' ≠ .truncateTowardZero) :
    sqrtUnit cfg nosub p.spec rm (p.input nosub) = sqrtUnit cfg nosub p.spec rm' (p.input nosub) := by
  obtain ⟨-, -, -, -, hroot⟩ := sqrtUnit_rows cfg p.spec rm nosub (p.input nosub)
  obtain ⟨-, -, -, -, hroot'⟩ := sqrtUnit_rows cfg p.spec rm' nosub (p.input nosub)
  obtain ⟨hp, hpos, hval⟩ := FloatOperand.input_positive ha h0 hs
  obtain ⟨k, hk⟩ := finite_rootUnits hl hp hpos
  have hplace : ∀ E t, p.spec.place rm false E t = p.spec.place rm' false E t := fun E t => by
    simp only [FloatSpec.place, FloatSpec.overflowed, if_neg hrm, if_neg hrm']
  rw [hroot ha h0 hs, hroot' ha h0 hs, hval, rootAssemble_eq_place cfg rm nosub hpos,
    rootAssemble_eq_place cfg rm' nosub hpos, hk, rootMant_of_nearest hrm, rootMant_of_nearest hrm', hplace]

end

/-- Settles O52: the table, and the root of the magnitude of a positive operand. -/
theorem fpSqrtResult : Obligations.FpSqrtResult := by
  intro s q rm nosub h hm f a
  have ⟨_, _, _, hd, hspec⟩ := h
  obtain ⟨hnan, hzero, hneg, hinf, -⟩ := sqrtUnit_rows s.cfg f rm nosub a
  refine ⟨_, serve_floatUnary h hm, hnan, hzero, hneg, hinf, fun ha h0 hs => ?_⟩
  have hf : s.request.floatA.spec = f := hspec.symm
  have hpos := sqrtUnit_positive ha h0 hs s.cfg (hf ▸ SpecRecord.float_legal hd) rm
  rwa [hf] at hpos

/-! ## The nearest modes (R277) -/

/-- They agree on every input: where a row of the table applies no mode is read. -/
theorem sqrtUnit_nearest (cfg : Config) (nosub : Bool) {p : FloatOperand} (hl : p.spec.Legal) {rm rm' : FloatMode}
    (hrm : rm ≠ .truncateTowardZero) (hrm' : rm' ≠ .truncateTowardZero) :
    sqrtUnit cfg nosub p.spec rm (p.input nosub) = sqrtUnit cfg nosub p.spec rm' (p.input nosub) := by
  obtain ⟨hnan, hzero, hneg, hinf, -⟩ := sqrtUnit_rows cfg p.spec rm nosub (p.input nosub)
  obtain ⟨hnan', hzero', hneg', hinf', -⟩ := sqrtUnit_rows cfg p.spec rm' nosub (p.input nosub)
  by_cases hn : (p.input nosub).cls = .nan
  · rw [hnan hn, hnan' hn]
  by_cases h0 : (p.input nosub).cls = .zero
  · rw [hzero h0, hzero' h0]
  cases hs : (p.input nosub).sign with
  | true => rw [hneg hn h0 hs, hneg' hn h0 hs]
  | false =>
    by_cases hi : (p.input nosub).cls = .infinity
    · rw [hinf hi hs, hinf' hi hs]
    · exact sqrtUnit_positive_nearest ⟨hn, hi⟩ h0 hs cfg hl hrm hrm'

/-- A request of format PU that is not ready is malformed, or the block is halted, whatever its field `Q` (R373, R375). -/
theorem serve_floatUnary_of_not_ready {s : State} (h : ¬ FloatReady1 s) (q q' : BitVec 3) (nosub : Bool)
    (x : FloatSpec → FloatMode → Extracted → Bits) :
    serve s (floatUnary s.cfg s.request q nosub x) = serve s (floatUnary s.cfg s.request q' nosub x) := by
  cases hh : s.halted with
  | true => rw [serve_of_halted hh, serve_of_halted hh]
  | false =>
    refine congrArg (serve s) ?_
    by_cases ha : s.request.srcA.FloatLegal s.cfg ∧ s.request.srcA.Fits s.request.a
    · by_cases hd : s.request.dst.FloatLegal s.cfg
      · have hne : ¬ s.request.srcA.float = s.request.dst.float := fun he => h ⟨hh, ha.1, ha.2, hd, he.symm⟩
        simp only [floatUnary, floatOperand_of_legal ha.1 ha.2, floatSpec_of_legal hd, bind_ok, sameSpec,
          SpecRecord.floatOf, decide_eq_false hne, require_false, bind_error]
      · simp only [floatUnary, floatOperand_of_legal ha.1 ha.2, floatSpec_of_not_legal hd, bind_ok, bind_error]
    · simp only [floatUnary, floatOperand_of_not ha, bind_error]

/-- Any two nearest modes serve FP.SQRT alike. -/
theorem execFpSqrt_nearest (s : State) (nosub : Bool) {q q' : BitVec 3} {rm rm' : FloatMode}
    (hm : floatModeOf q = some rm) (hm' : floatModeOf q' = some rm') (hrm : rm ≠ .truncateTowardZero)
    (hrm' : rm' ≠ .truncateTowardZero) : exec (.fpSqrt q nosub) s = exec (.fpSqrt q' nosub) s := by
  by_cases h : FloatReady1 s
  · have ⟨_, _, _, hd, hspec⟩ := h
    have hf : s.request.dst.float = s.request.floatA.spec := hspec
    have hl : s.request.floatA.spec.Legal := hf ▸ SpecRecord.float_legal hd
    refine (serve_floatUnary h hm).trans (.trans ?_ (serve_floatUnary h hm').symm)
    rw [hf, sqrtUnit_nearest s.cfg nosub hl hrm hrm']
  · exact serve_floatUnary_of_not_ready h q q' nosub _

/-- Settles O53. -/
theorem sqrtNearestModesAgree : Obligations.SqrtNearestModesAgree := fun s nosub =>
  ⟨execFpSqrt_nearest s nosub (rm := .roundNearestAwayFromZero) (rm' := .roundNearestEven) rfl rfl nofun nofun,
    execFpSqrt_nearest s nosub (rm := .roundNearestOdd) (rm' := .roundNearestEven) rfl rfl nofun nofun⟩

end Sys2Proof.Machine
end

section
/-! PROOFS. The float comparisons: the magnitudes of a spec in the order of their unsigned patterns, the signed order of
the extract records, the line with the two Infinities, and what the six operations answer. -/

namespace Sys2Proof.Machine

variable {a b : FloatOperand}

/-! ## Format PC (R80) -/

/-- Format PC serves the comparison of the two operands. -/
theorem serve_floatCompare {s : State} (p : FloatOperand → FloatOperand → Bool) (h : FloatReadyPair s) :
    serve s (floatCompare s.cfg s.request p) =
      .next (s.answer (bitOf (p s.request.floatA s.request.floatB))) := by
  rw [floatCompare_ready p h]
  exact serve_answer h.1

/-! ## Magnitudes and unsigned patterns (R301) -/

/-- The pattern without its sign is the exponent field above the mantissa field (R73, R301). -/
theorem FloatOperand.mag_eq_fields (hl : a.spec.Legal) : a.mag = a.ef * 2 ^ a.spec.m + a.mf := by
  rw [FloatOperand.mag, show a.spec.w - 1 = a.spec.m + a.spec.e by have := hl.width; omega, pow_add, Nat.mod_mul,
    FloatOperand.ef, FloatOperand.mf]
  ring

/-- A pattern is its sign bit above the rest (R301). -/
theorem FloatOperand.pattern_eq_sign_mag (hl : a.spec.Legal) (hp : a.p < 2 ^ a.spec.w) :
    a.p = a.sign.toNat * 2 ^ (a.spec.w - 1) + a.mag := by
  have hdiv : a.p / 2 ^ (a.spec.w - 1) < 2 := by
    rw [Nat.div_lt_iff_lt_mul (by positivity), ← pow_succ', show a.spec.w - 1 + 1 = a.spec.w by have := hl.2; omega]
    exact hp
  have hsign : a.sign.toNat = a.p / 2 ^ (a.spec.w - 1) := by
    unfold FloatOperand.sign
    interval_cases a.p / 2 ^ (a.spec.w - 1) <;> rfl
  rw [hsign, FloatOperand.mag, Nat.div_add_mod']

/-- The magnitude of the extract record, which for an Infinity continues the line of the finite ones (R203). -/
def FloatOperand.size (a : FloatOperand) : ℚ := a.extract.mant * 2 ^ (a.extract.exp - a.spec.m)

theorem FloatOperand.size_nonneg (a : FloatOperand) : 0 ≤ a.size := by
  unfold FloatOperand.size
  positivity

/-- The record of a pattern has that magnitude and the sign of the pattern (R203). -/
theorem FloatOperand.extract_val_eq (a : FloatOperand) : a.extract.val a.spec = signOf a.sign * a.size :=
  mul_assoc ..

/-- A magnitude is one under a lower exponent, or one of a lower mantissa under the same exponent, if its unsigned pattern
is lower (R73). -/
theorem FloatOperand.extract_lt_of_mag_lt (hl : a.spec.Legal) (hs : b.spec = a.spec) (h : a.mag < b.mag) :
    a.extract.exp = b.extract.exp ∧ a.extract.mant < b.extract.mant ∨
      a.extract.exp < b.extract.exp ∧ 2 ^ a.spec.m ≤ b.extract.mant := by
  have hfields : a.ef < b.ef ∨ a.ef = b.ef ∧ a.mf < b.mf := by
    have hmb := hs ▸ b.mf_lt
    rw [FloatOperand.mag_eq_fields hl, FloatOperand.mag_eq_fields (hs ▸ hl), hs] at h
    rcases lt_trichotomy a.ef b.ef with he | he | he
    · exact .inl he
    · exact .inr ⟨he, by rw [he] at h; omega⟩
    · have : (b.ef + 1) * 2 ^ a.spec.m ≤ a.ef * 2 ^ a.spec.m := Nat.mul_le_mul_right _ he
      rw [add_mul] at this
      omega
  have hma := a.mf_lt
  have hmin : a.spec.emin = 1 - a.spec.bias := rfl
  simp only [FloatOperand.extract, hs]
  split_ifs <;> omega

/-- A lower unsigned pattern is a lower magnitude (R301, R302). -/
theorem FloatOperand.size_lt_of_mag_lt (hl : a.spec.Legal) (hs : b.spec = a.spec) (h : a.mag < b.mag) :
    a.size < b.size := by
  unfold FloatOperand.size
  rw [hs]
  rcases a.extract_lt_of_mag_lt hl hs h with ⟨he, hm⟩ | ⟨he, hm⟩
  · rw [he]
    gcongr
  · have hma : (a.extract.mant : ℚ) < 2 ^ (a.spec.m + 1) := by exact_mod_cast a.extract_mant_lt
    have hmb : (2 : ℚ) ^ a.spec.m ≤ b.extract.mant := by exact_mod_cast hm
    calc (a.extract.mant : ℚ) * 2 ^ (a.extract.exp - a.spec.m)
        < 2 ^ (a.spec.m + 1) * 2 ^ (a.extract.exp - a.spec.m) := by gcongr
      _ = 2 ^ (a.extract.exp + 1) := two_pow_succ_mul_unit ..
      _ ≤ 2 ^ b.extract.exp := two_zpow_le_iff.mpr he
      _ = 2 ^ a.spec.m * 2 ^ (b.extract.exp - a.spec.m) := (two_pow_mul_unit ..).symm
      _ ≤ b.extract.mant * 2 ^ (b.extract.exp - a.spec.m) := by gcongr

/-- Equal unsigned patterns have equal fields, so one magnitude (R301). -/
theorem FloatOperand.size_eq_of_mag_eq (hl : a.spec.Legal) (hs : b.spec = a.spec) (h : a.mag = b.mag) :
    a.size = b.size := by
  have hef : a.ef = b.ef := by
    rw [FloatOperand.mag_eq_fields hl, FloatOperand.mag_eq_fields (hs ▸ hl), hs] at h
    have hdiv := congrArg (· / 2 ^ a.spec.m) h
    have ha := a.mf_lt
    have hb := hs ▸ b.mf_lt
    simpa [Nat.add_comm, Nat.add_mul_div_right, Nat.div_eq_of_lt ha, Nat.div_eq_of_lt hb] using hdiv
  have hmf : a.mf = b.mf := by
    rw [FloatOperand.mag_eq_fields hl, FloatOperand.mag_eq_fields (hs ▸ hl), hs, hef] at h
    exact Nat.add_left_cancel h
  simp only [FloatOperand.size, FloatOperand.extract, hs, hef, hmf]

/-- The magnitudes of one spec are in the order of their unsigned patterns (R301). -/
theorem FloatOperand.mag_lt_iff (hl : a.spec.Legal) (hs : b.spec = a.spec) : a.mag < b.mag ↔ a.size < b.size := by
  refine ⟨size_lt_of_mag_lt hl hs, fun h => ?_⟩
  by_contra hge
  rcases (not_lt.mp hge).eq_or_lt with he | hgt
  · exact h.ne (size_eq_of_mag_eq hl hs he.symm)
  · exact h.not_gt (size_lt_of_mag_lt (hs ▸ hl) hs.symm hgt)

theorem FloatOperand.mag_eq_iff (hl : a.spec.Legal) (hs : b.spec = a.spec) : a.mag = b.mag ↔ a.size = b.size := by
  have hlt := FloatOperand.mag_lt_iff hl hs
  have hgt := FloatOperand.mag_lt_iff (hs ▸ hl) hs.symm
  rw [le_antisymm_iff, le_antisymm_iff, ← not_lt, ← not_lt, ← not_lt, ← not_lt, hlt, hgt]

/-- The Zeros are the patterns of magnitude 0 (R74). -/
theorem FloatOperand.cls_eq_zero_iff_size : a.cls = .zero ↔ a.size = 0 := by
  have hunit : (2 : ℚ) ^ (a.extract.exp - a.spec.m) ≠ 0 := by positivity
  refine ⟨fun h => by simp [FloatOperand.size, a.extract_mant_of_zero h], fun h => ?_⟩
  have hm : a.extract.mant = 0 := by simpa [FloatOperand.size, hunit] using h
  have he : a.ef = 0 := a.extract_mant_lt_iff.mp (hm ▸ Nat.two_pow_pos _)
  exact cls_eq_zero_iff.mpr ⟨he, by simpa [FloatOperand.extract, he] using hm⟩

/-! ## The predicates of R302 -/

section
variable {s t : Bool} {x y : ℚ} (hx : 0 ≤ x) (hy : 0 ≤ y)
include hx hy

/-- The order of signed magnitudes: a minus below a plus unless both are zero, and below a minus the larger magnitude. -/
theorem signed_lt_iff :
    signOf s * x < signOf t * y ↔
      ¬(x = 0 ∧ y = 0) ∧ (s = true ∧ t = false ∨ s = false ∧ t = false ∧ x < y ∨ s = true ∧ t = true ∧ y < x) := by
  have hzero : ¬(x = 0 ∧ y = 0) ↔ 0 < x + y := by
    rw [← add_eq_zero_iff_of_nonneg hx hy]
    exact (add_nonneg hx hy).lt_iff_ne'.symm
  rw [hzero]
  cases s <;> cases t <;> simp [signOf]
  · exact fun h => by linarith
  · linarith
  · exact ⟨fun h => by linarith, fun h => by linarith⟩
  · exact fun h => by linarith

/-- Signed magnitudes are equal with one sign, or as zeros of either sign. -/
theorem signed_eq_iff : signOf s * x = signOf t * y ↔ s = t ∧ x = y ∨ x = 0 ∧ y = 0 := by
  rw [← add_eq_zero_iff_of_nonneg hx hy]
  cases s <;> cases t <;> simp [signOf]
  · exact fun h => by linarith
  · exact ⟨fun h => by linarith, fun h => by linarith⟩
  · exact ⟨fun h => by linarith, fun h => by linarith⟩
  · exact fun h => by linarith

end

section
variable (hl : a.spec.Legal) (hs : b.spec = a.spec)
include hl hs

/-- The predicate `lt` is the order of the records' values, where neither operand is a NaN (R302). -/
theorem floatLt_iff :
    floatLt a b = true ↔ (a.cls ≠ .nan ∧ b.cls ≠ .nan) ∧ a.extract.val a.spec < b.extract.val b.spec := by
  rw [a.extract_val_eq, b.extract_val_eq, signed_lt_iff a.size_nonneg b.size_nonneg, ← a.cls_eq_zero_iff_size,
    ← b.cls_eq_zero_iff_size, ← FloatOperand.mag_lt_iff hl hs, ← FloatOperand.mag_lt_iff (hs ▸ hl) hs.symm]
  simp [floatLt, and_assoc, or_assoc, ← Bool.decide_and]

/-- Patterns of one width are equal iff their signs and magnitudes are (R301). -/
theorem FloatOperand.p_eq_iff (ha : a.p < 2 ^ a.spec.w) (hb : b.p < 2 ^ b.spec.w) :
    a.p = b.p ↔ a.sign = b.sign ∧ a.mag = b.mag := by
  refine ⟨fun h => ?_, fun ⟨hsign, hmag⟩ => ?_⟩
  · simp only [FloatOperand.sign, FloatOperand.mag, hs, h, and_self]
  · rw [a.pattern_eq_sign_mag hl ha, b.pattern_eq_sign_mag (hs ▸ hl) hb, hsign, hmag, hs]

/-- The predicate `eq` is the equality of the records' values, where neither operand is a NaN (R302). -/
theorem floatEq_iff (ha : a.p < 2 ^ a.spec.w) (hb : b.p < 2 ^ b.spec.w) :
    floatEq a b = true ↔ (a.cls ≠ .nan ∧ b.cls ≠ .nan) ∧ a.extract.val a.spec = b.extract.val b.spec := by
  rw [a.extract_val_eq, b.extract_val_eq, signed_eq_iff a.size_nonneg b.size_nonneg, ← a.cls_eq_zero_iff_size,
    ← b.cls_eq_zero_iff_size, ← FloatOperand.mag_eq_iff hl hs, ← FloatOperand.p_eq_iff hl hs ha hb]
  simp [floatEq]

end

/-- The predicate `eq` is symmetric (R302). -/
theorem floatEq_comm (a b : FloatOperand) : floatEq a b = floatEq b a := by
  simp only [floatEq, eq_comm (a := a.p), Bool.and_comm]

/-! ## The line with the two Infinities (R310) -/

/-- The record of an Infinity has the magnitude that follows the last finite binade (R73, R202). -/
theorem FloatOperand.size_of_infinity (hl : a.spec.Legal) (h : a.cls = .infinity) :
    a.size = 2 ^ (a.spec.emax + 1) := by
  have hfields : a.ef = a.spec.efMax ∧ a.mf = 0 := by
    unfold FloatOperand.cls at h
    split_ifs at h with h0 h1 h2 h3
    exact ⟨h2, h3⟩
  have hbias := a.spec.cast_efMax
  have hpos := hl.efMax_pos.ne'
  obtain ⟨hef, hmf⟩ := hfields
  simp only [FloatOperand.size, FloatOperand.extract, hef, hmf, if_pos hpos, hbias, add_zero]
  rw [show a.spec.emax + a.spec.bias + 1 - a.spec.bias = a.spec.emax + 1 by ring, Nat.cast_pow, Nat.cast_ofNat,
    two_pow_mul_unit]

/-- Where a pattern that is no NaN lies on the extended line, and the value of its record there: an Infinity stands one
binade beyond the finite values (R203, R310). -/
theorem FloatOperand.extVal_cases (hl : a.spec.Legal) (h : a.cls ≠ .nan) :
    a.extVal = ⊥ ∧ a.extract.val a.spec = -2 ^ (a.spec.emax + 1) ∨
    a.extVal = ((⊤ : WithTop ℚ) : WithBot (WithTop ℚ)) ∧ a.extract.val a.spec = 2 ^ (a.spec.emax + 1) ∨
    a.extVal = ((a.extract.val a.spec : WithTop ℚ) : WithBot (WithTop ℚ)) ∧
      -2 ^ (a.spec.emax + 1) < a.extract.val a.spec ∧ a.extract.val a.spec < 2 ^ (a.spec.emax + 1) := by
  by_cases hi : a.cls = .infinity
  · rw [a.extract_val_eq, a.size_of_infinity hl hi, FloatOperand.extVal, if_pos hi]
    cases a.sign with
    | true => exact .inl ⟨if_pos rfl, neg_one_mul _⟩
    | false => exact .inr (.inl ⟨if_neg Bool.false_ne_true, one_mul _⟩)
  · rw [← a.val_eq_extract_val ⟨h, hi⟩, FloatOperand.extVal, if_neg hi]
    exact .inr (.inr ⟨rfl, abs_lt.mp (finite_abs_val_lt hl ⟨h, hi⟩)⟩)

section
variable (hl : a.spec.Legal) (hs : b.spec = a.spec) (ha : a.cls ≠ .nan) (hb : b.cls ≠ .nan)
include hl hs ha hb

/-- The extended order of two patterns that are no NaNs is that of their records (R310). -/
theorem FloatOperand.extVal_lt_iff : a.extVal < b.extVal ↔ a.extract.val a.spec < b.extract.val b.spec := by
  have hpos : (0 : ℚ) < 2 ^ (a.spec.emax + 1) := by positivity
  have hcb := b.extVal_cases (hs ▸ hl) hb
  rw [hs] at hcb ⊢
  rcases a.extVal_cases hl ha with ⟨hea, hxa⟩ | ⟨hea, hxa⟩ | ⟨hea, hlow, hhigh⟩
  · rw [hea, hxa]
    rcases hcb with ⟨heb, hxb⟩ | ⟨heb, hxb⟩ | ⟨heb, hlow, -⟩
    · rw [heb, hxb]
      exact iff_of_false (lt_irrefl _) (lt_irrefl _)
    · rw [heb, hxb]
      exact iff_of_true (WithBot.bot_lt_coe _) (by linarith)
    · rw [heb]
      exact iff_of_true (WithBot.bot_lt_coe _) hlow
  · have hxb : b.extract.val a.spec ≤ 2 ^ (a.spec.emax + 1) := by
      rcases hcb with ⟨-, hxb⟩ | ⟨-, hxb⟩ | ⟨-, -, hhigh⟩ <;> linarith
    rw [hea, hxa]
    exact iff_of_false not_top_lt hxb.not_gt
  · rw [hea]
    rcases hcb with ⟨heb, hxb⟩ | ⟨heb, hxb⟩ | ⟨heb, -, -⟩
    · rw [heb, hxb]
      exact iff_of_false not_lt_bot hlow.not_gt
    · rw [heb, hxb]
      exact iff_of_true (WithBot.coe_lt_coe.mpr (WithTop.coe_lt_top _)) hhigh
    · rw [heb]
      exact WithBot.coe_lt_coe.trans WithTop.coe_lt_coe

theorem FloatOperand.extVal_eq_iff : a.extVal = b.extVal ↔ a.extract.val a.spec = b.extract.val b.spec := by
  have hlt := FloatOperand.extVal_lt_iff hl hs ha hb
  have hgt := FloatOperand.extVal_lt_iff (hs ▸ hl) hs.symm hb ha
  rw [le_antisymm_iff, le_antisymm_iff, ← not_lt, ← not_lt, ← not_lt, ← not_lt, hlt, hgt]

end

/-! ## The six comparisons (R303 to R309) -/

section
variable (hl : a.spec.Legal) (hs : b.spec = a.spec)
include hl hs

theorem floatLt_iff_extVal :
    floatLt a b = true ↔ (a.cls ≠ .nan ∧ b.cls ≠ .nan) ∧ a.extVal < b.extVal := by
  rw [floatLt_iff hl hs]
  exact and_congr_right fun ⟨ha, hb⟩ => (FloatOperand.extVal_lt_iff hl hs ha hb).symm

variable (ha : a.p < 2 ^ a.spec.w) (hb : b.p < 2 ^ b.spec.w)
include ha hb

theorem floatEq_iff_extVal :
    floatEq a b = true ↔ (a.cls ≠ .nan ∧ b.cls ≠ .nan) ∧ a.extVal = b.extVal := by
  rw [floatEq_iff hl hs ha hb]
  exact and_congr_right fun ⟨ha, hb⟩ => (FloatOperand.extVal_eq_iff hl hs ha hb).symm

theorem floatLt_or_floatEq_iff_extVal :
    (floatLt a b || floatEq a b) = true ↔ (a.cls ≠ .nan ∧ b.cls ≠ .nan) ∧ a.extVal ≤ b.extVal := by
  rw [Bool.or_eq_true, floatLt_iff_extVal hl hs, floatEq_iff_extVal hl hs ha hb, ← and_or_left, le_iff_lt_or_eq]

/-- With a NaN FP.NE is 1, or 0 under the switch (R304, D20). -/
theorem floatNe_iff_extVal (cfg : Config) :
    floatNe cfg a b = true ↔
      (a.cls ≠ .nan ∧ b.cls ≠ .nan) ∧ a.extVal ≠ b.extVal ∨
        ¬(a.cls ≠ .nan ∧ b.cls ≠ .nan) ∧ cfg.neFalseOnNan = false := by
  have heq := floatEq_iff_extVal hl hs ha hb
  by_cases hord : a.cls ≠ .nan ∧ b.cls ≠ .nan
  · have hne : floatNe cfg a b = !floatEq a b := by simp [floatNe, hord]
    rw [hne, Bool.not_eq_true', ← Bool.not_eq_true, heq]
    simp [hord]
  · have hnan : a.cls = .nan ∨ b.cls = .nan := by simpa [or_iff_not_imp_left] using hord
    have hne : floatEq a b = false := by rw [← Bool.not_eq_true, heq]; exact fun h => hord h.1
    simp [floatNe, hne, hnan, hord]

end

/-- The pattern of an operand has the width of its spec. -/
theorem SpecRecord.floatOf_p_lt {rec : SpecRecord} {p : Bits} (h : rec.Fits p) :
    (rec.floatOf p).p < 2 ^ (rec.floatOf p).spec.w := by
  have hw : rec.float.w = p.width := by
    have : (p.width : ℤ) = rec.w := h
    simp only [SpecRecord.float]
    omega
  exact hw ▸ p.val.isLt

/-- Settles O54: each predicate is the one on the extended values, and a NaN makes it false. -/
theorem fpComparisonResults : Obligations.FpComparisonResults := by
  intro s h a b ordered answers
  have ⟨_, hd, hpa, _, hpb, hs⟩ := h
  have hl : a.spec.Legal := SpecRecord.float_legal hd
  have hs : b.spec = a.spec := hs
  have ha : a.p < 2 ^ a.spec.w := SpecRecord.floatOf_p_lt hpa
  have hb : b.p < 2 ^ b.spec.w := SpecRecord.floatOf_p_lt hpb
  have hl' : b.spec.Legal := hs ▸ hl
  have hswap : ∀ p : Prop, (b.cls ≠ .nan ∧ a.cls ≠ .nan) ∧ p ↔ ordered ∧ p := fun p => and_congr_left' and_comm
  exact ⟨⟨_, serve_floatCompare _ h, floatEq_iff_extVal hl hs ha hb⟩,
    ⟨_, serve_floatCompare _ h, floatNe_iff_extVal hl hs ha hb s.cfg⟩,
    ⟨_, serve_floatCompare _ h, floatLt_iff_extVal hl hs⟩,
    ⟨_, serve_floatCompare _ h, floatLt_or_floatEq_iff_extVal hl hs ha hb⟩,
    ⟨_, serve_floatCompare _ h, (floatLt_iff_extVal hl' hs.symm).trans (hswap _)⟩,
    ⟨_, serve_floatCompare _ h, floatEq_comm a b ▸ (floatLt_or_floatEq_iff_extVal hl' hs.symm hb ha).trans (hswap _)⟩⟩

end Sys2Proof.Machine
end

section
/-! PROOFS. The integral helpers: the rows of R311, the two forms of the functions of R316 and R317, why their integers are
representable, and the value and the sign of the result. -/

namespace Sys2Proof.Machine

/-! ## The rows of R311 -/

/-- Format PI serves the operation's own result. -/
theorem serve_floatIntegral {s : State} (fn : ℚ → ℤ) (h : FloatReady1 s) :
    serve s (floatIntegral s.cfg s.request fn) = .next (s.answer (integralOf s.cfg fn s.request.floatA)) := by
  rw [floatIntegral_ready fn h]
  exact serve_answer h.1

theorem nanResult_canonical {cfg : Config} (f : FloatSpec) (xs : List Extracted) (h : cfg.nanPolicy = .canonical) :
    nanResult cfg f xs = f.qnan := by
  rw [nanResult, h]

section
variable (cfg : Config) (fn : ℚ → ℤ) {a : FloatOperand}

theorem integralOf_nan (h : a.cls = .nan) : integralOf cfg fn a = nanResult cfg a.spec [a.extract] := by
  simp only [integralOf, h]

/-- An Infinity or a Zero comes back (R311). -/
theorem integralOf_pattern (h : a.cls = .infinity ∨ a.cls = .zero) : integralOf cfg fn a = a.pattern := by
  rcases h with h | h <;> simp only [integralOf, h]

/-- Any other operand gives the integer of its value, with its sign (R311). -/
theorem integralOf_finite (h : a.cls = .subnormal ∨ a.cls = .normal) :
    integralOf cfg fn a =
      if fn a.val = 0 then a.spec.zero a.sign
      else roundAssemble cfg a.spec .roundNearestEven false a.sign |(fn a.val : ℚ)| := by
  rcases h with h | h <;> simp only [integralOf, h]

end

/-- The integer of a shifted magnitude, with the sign of the value, is a floor or a ceiling (R316, R317). -/
theorem withSignOf_floor_abs (x c : ℚ) :
    withSignOf x ⌊|x| + c⌋ = if 0 ≤ x then ⌊x + c⌋ else ⌈x - c⌉ := by
  by_cases hx : 0 ≤ x
  · rw [withSignOf, if_neg hx.not_gt, if_pos hx, abs_of_nonneg hx]
  · have hneg : x < 0 := not_le.mp hx
    rw [withSignOf, if_pos hneg, if_neg hx, abs_of_neg hneg, ← Int.ceil_neg]
    congr 1
    ring

/-- Settles O55: the rows of R311, with the function of each operation. -/
theorem fpIntegralResults : Obligations.FpIntegralResults := by
  intro s h a f answers
  have ⟨_, _, hfits, _, hspec⟩ := h
  have hf : a.spec = f := hspec.symm
  have hpat : a.pattern = s.request.a := SpecRecord.floatOf_pattern hfits
  have hrows : ∀ (i : Instr) (fn : ℚ → ℤ), exec i s = serve s (floatIntegral s.cfg s.request fn) →
      answers i (fn a.val) := by
    intro i fn hi
    refine ⟨_, hi.trans (serve_floatIntegral fn h), fun hn hc => ?_, fun hn => ?_, fun hp => ?_, fun hx => ⟨?_, ?_⟩⟩
    · rw [integralOf_nan _ _ hn, nanResult_canonical _ _ hc]
      exact congrArg _ hf
    · rw [integralOf_nan _ _ hn]
      exact congrArg (nanResult _ · _) hf
    · exact (integralOf_pattern _ _ hp).trans hpat
    · intro h0
      rw [integralOf_finite _ _ hx, if_pos h0, ← hf]
    · intro h0
      rw [integralOf_finite _ _ hx, if_neg h0, ← hf]
  have htrunc := withSignOf_floor_abs a.val 0
  rw [add_zero, add_zero, sub_zero] at htrunc
  exact ⟨hrows _ _ rfl, hrows _ _ rfl, htrunc ▸ hrows .fpTrunc _ rfl,
    withSignOf_floor_abs a.val (1 / 2) ▸ hrows .fpRound _ rfl⟩

/-! ## The integers of the helpers -/

/-- The function gives one of the two integers about its argument. -/
def AdjacentInteger (fn : ℚ → ℤ) : Prop := ∀ x, ⌊x⌋ ≤ fn x ∧ fn x ≤ ⌈x⌉

/-- A function of the magnitude that gives an adjacent integer of it does so with the sign of the value put back. -/
theorem adjacentInteger_withSignOf {fn : ℚ → ℤ} (h : AdjacentInteger fn) :
    AdjacentInteger fun x => withSignOf x (fn |x|) := by
  intro x
  obtain ⟨hlow, hhigh⟩ := h |x|
  simp only [withSignOf]
  split
  case isTrue hx =>
    rw [abs_of_neg hx] at *
    rw [Int.floor_neg] at hlow
    rw [Int.ceil_neg] at hhigh
    omega
  case isFalse hx =>
    rw [abs_of_nonneg (not_lt.mp hx)] at *
    exact ⟨hlow, hhigh⟩

theorem adjacentInteger_ceil : AdjacentInteger fun x => ⌈x⌉ := fun x => ⟨Int.floor_le_ceil x, le_rfl⟩

theorem adjacentInteger_floor : AdjacentInteger fun x => ⌊x⌋ := fun x => ⟨le_rfl, Int.floor_le_ceil x⟩

theorem adjacentInteger_floor_half : AdjacentInteger fun x => ⌊x + 1 / 2⌋ := fun x =>
  ⟨Int.floor_mono (by linarith), by
    have := Int.le_ceil x
    exact Int.lt_add_one_iff.mp (Int.floor_lt.mpr (by push_cast; linarith))⟩

/-- The four functions of R314 to R317 give an adjacent integer. -/
theorem adjacentInteger_of_mem {fn : ℚ → ℤ} (h : fn ∈ [fun x => ⌈x⌉, fun x => ⌊x⌋, fun x => withSignOf x ⌊|x|⌋,
    fun x => withSignOf x ⌊|x| + 1 / 2⌋]) : AdjacentInteger fn := by
  simp only [List.mem_cons, List.not_mem_nil, or_false] at h
  rcases h with rfl | rfl | rfl | rfl
  · exact adjacentInteger_ceil
  · exact adjacentInteger_floor
  · exact adjacentInteger_withSignOf adjacentInteger_floor
  · exact adjacentInteger_withSignOf adjacentInteger_floor_half

section
variable {fn : ℚ → ℤ} (h : AdjacentInteger fn)
include h

theorem AdjacentInteger.intCast (k : ℤ) : fn k = k := by
  obtain ⟨hlow, hhigh⟩ := h k
  rw [Int.floor_intCast] at hlow
  rw [Int.ceil_intCast] at hhigh
  exact le_antisymm hhigh hlow

theorem AdjacentInteger.abs_le_natCast {x : ℚ} {n : ℕ} (hx : |x| ≤ n) : |fn x| ≤ n := by
  obtain ⟨hlow, hhigh⟩ := h x
  obtain ⟨hx1, hx2⟩ := abs_le.mp hx
  have h1 : -(n : ℤ) ≤ ⌊x⌋ := Int.le_floor.mpr (by push_cast; exact hx1)
  have h2 : ⌈x⌉ ≤ n := Int.ceil_le.mpr (by push_cast; exact hx2)
  exact abs_le.mpr ⟨h1.trans hlow, hhigh.trans h2⟩

/-- The integer has the sign of the value (R311). -/
theorem AdjacentInteger.sign_mul_abs {s : Bool} {x y : ℚ} (hx : x = signOf s * y) (hy : 0 ≤ y) :
    signOf s * |(fn x : ℚ)| = fn x := by
  obtain ⟨hlow, hhigh⟩ := h x
  cases s with
  | true =>
    have hneg : x ≤ 0 := by rw [hx]; simpa [signOf] using hy
    have hfn : (fn x : ℚ) ≤ 0 := by exact_mod_cast hhigh.trans (Int.ceil_le.mpr (by simpa using hneg))
    rw [abs_of_nonpos hfn]
    simp [signOf]
  | false =>
    have hpos : 0 ≤ x := by rw [hx]; simpa [signOf] using hy
    have hfn : (0 : ℚ) ≤ fn x := by exact_mod_cast (Int.floor_nonneg.mpr hpos).trans hlow
    rw [abs_of_nonneg hfn]
    simp [signOf]

end

/-! ## Representable integers (R318) -/

variable {f : FloatSpec}

/-- A magnitude of an integral number of units is kept exactly by every mode (R214). -/
theorem roundAssemble_exact (cfg : Config) (hl : f.Legal) (rm : FloatMode) (s : Bool) {x : ℚ} {t : ℕ} (hx : 0 < x)
    (ht : f.units x = t) (hlt : x < 2 ^ (f.emax + 1)) :
    (f.read (roundAssemble cfg f rm false s x)).Finite ∧
      (f.read (roundAssemble cfg f rm false s x)).val = signOf s * x := by
  have hval : (t : ℚ) * 2 ^ (f.expOf x - f.m) = x := by rw [← ht, f.units_mul]
  obtain ⟨hshows, -⟩ := roundAssemble_spec cfg hl rm s hx
  rw [ht, roundedMant_natCast, hval] at hshows
  exact ⟨(hshows hlt).finite, by rw [(hshows hlt).val, hval]⟩

/-- An integer up to `2^M` is an integral number of units. -/
theorem FloatSpec.units_natCast (hl : f.Legal) {n : ℕ} (h0 : n ≠ 0) (hn : n ≤ 2 ^ f.m) : ∃ t : ℕ, f.units n = t := by
  have hpos : (0 : ℚ) < n := by positivity
  obtain ⟨hmin, -⟩ := hl.emin_le_zero_le_emax
  have hlog : ilog2 n ≤ f.m := Int.lt_add_one_iff.mp ((lt_two_zpow_iff_ilog2_lt hpos _).mp ?_)
  · obtain ⟨d, hd⟩ : ∃ d : ℕ, f.expOf n - f.m = -d := ⟨(f.m - f.expOf n).toNat, by unfold FloatSpec.expOf; omega⟩
    refine ⟨n * 2 ^ d, ?_⟩
    rw [FloatSpec.units, hd, zpow_neg, div_inv_eq_mul, zpow_natCast]
    push_cast
    rfl
  · calc (n : ℚ) ≤ 2 ^ f.m := by exact_mod_cast hn
      _ < 2 ^ (f.m + 1) := pow_lt_pow_right₀ one_lt_two (Nat.lt_succ_self _)
      _ = 2 ^ ((f.m : ℤ) + 1) := by norm_cast

/-- A finite magnitude other than 0 is an integral number of its own units. -/
theorem finite_abs_val_own_units {a : FloatOperand} (hl : a.spec.Legal) (hfin : a.Finite) (h0 : 0 < |a.val|) :
    ∃ t : ℕ, a.spec.units |a.val| = t := by
  obtain ⟨hmin, -⟩ := a.extract_exp_range hl hfin
  rw [FloatOperand.abs_val hfin] at h0 ⊢
  have hm : a.extract.mant ≠ 0 := by rintro hm; simp [hm] at h0
  exact ⟨_, (a.spec.expOf_units_of_mant hm a.extract_mant_lt hmin a.le_extract_mant).2.1⟩

/-- A finite value with a weight of at least 1 is an integer, and any other lies within `2^M` (R318). -/
theorem finite_val_integer_or_le {a : FloatOperand} (hfin : a.Finite) :
    (∃ k : ℤ, a.val = k) ∨ |a.val| ≤ (2 ^ a.spec.m : ℕ) := by
  rcases le_or_gt (a.spec.m : ℤ) a.extract.exp with hexp | hexp
  · left
    obtain ⟨d, hd⟩ := Int.eq_ofNat_of_zero_le (sub_nonneg.mpr hexp)
    refine ⟨(if a.sign then -1 else 1) * a.extract.mant * 2 ^ d, ?_⟩
    rw [a.val_eq_extract_val hfin, Extracted.val, hd, zpow_natCast, signOf]
    push_cast
    rfl
  · right
    have hmant : (a.extract.mant : ℚ) ≤ 2 ^ (a.spec.m + 1) := by exact_mod_cast a.extract_mant_lt.le
    calc |a.val| = a.extract.mant * 2 ^ (a.extract.exp - a.spec.m) := FloatOperand.abs_val hfin
      _ ≤ 2 ^ (a.spec.m + 1) * 2 ^ (a.extract.exp - a.spec.m) := by gcongr
      _ = 2 ^ (a.extract.exp + 1) := two_pow_succ_mul_unit ..
      _ ≤ 2 ^ (a.spec.m : ℤ) := two_zpow_le_iff.mpr hexp
      _ = (2 ^ a.spec.m : ℕ) := by norm_cast

/-- An adjacent integer of a finite value is an integral number of units (R318). -/
theorem AdjacentInteger.units {fn : ℚ → ℤ} (h : AdjacentInteger fn) {a : FloatOperand} (hl : a.spec.Legal)
    (hfin : a.Finite) (h0 : fn a.val ≠ 0) : ∃ t : ℕ, a.spec.units |(fn a.val : ℚ)| = t := by
  rcases finite_val_integer_or_le hfin with ⟨k, hk⟩ | hle
  · have hfn : (fn a.val : ℚ) = a.val := by rw [hk, h.intCast]
    have hpos : 0 < |a.val| := by rw [← hfn]; positivity
    rw [hfn]
    exact finite_abs_val_own_units hl hfin hpos
  · have hn := h.abs_le_natCast hle
    rw [Int.abs_eq_natAbs] at hn
    rw [← Int.cast_abs, Int.abs_eq_natAbs, Int.cast_natCast]
    exact a.spec.units_natCast hl (Int.natAbs_ne_zero.mpr h0) (Int.ofNat_le.mp hn)

/-- Settles O56: the integer is representable, so the one rounding is exact, and zeros carry the operand's sign. -/
theorem integralHelpersAreExact : Obligations.IntegralHelpersAreExact := by
  intro cfg a hl hcls fn hfn r
  have hadj := adjacentInteger_of_mem hfn
  have hfin : a.Finite := by rcases hcls with h | h <;> simp [FloatOperand.Finite, h]
  have hr : r = a.spec.read (integralOf cfg fn a) := rfl
  rw [integralOf_finite cfg fn hcls] at hr
  by_cases h0 : fn a.val = 0
  · have hz := a.spec.read_zero_shows hl a.sign
    rw [if_pos h0] at hr
    rw [hr, h0]
    exact ⟨hz.sign, fun _ => ⟨hz.finite, by simp [hz.val]⟩⟩
  · have hpos : (0 : ℚ) < |(fn a.val : ℚ)| := by positivity
    have hmax := a.spec.read_maxFinite_shows hl false
    obtain ⟨t, ht⟩ := hadj.units hl hfin h0
    rw [if_neg h0] at hr
    rw [hr]
    refine ⟨roundAssemble_sign cfg hl _ _ hpos.le, fun hle => ?_⟩
    have hlt : |(fn a.val : ℚ)| < 2 ^ (a.spec.emax + 1) :=
      (hle.trans (le_abs_self _)).trans_lt (finite_abs_val_lt (p := a.spec.read _) hl hmax.finite)
    obtain ⟨hrfin, hrval⟩ := roundAssemble_exact cfg hl .roundNearestEven a.sign hpos ht hlt
    refine ⟨hrfin, hrval.trans (hadj.sign_mul_abs ?_ a.size_nonneg)⟩
    rw [a.val_eq_extract_val hfin, a.extract_val_eq]

end Sys2Proof.Machine
end

section
/-! PROOFS. The conversions: what the three formats of CV.* serve, the magnitudes that a spec represents whatever spec
they come from, and the two round trips. -/

namespace Sys2Proof.Machine

/-! ## The formats of the conversions (R80) -/

section
variable {s : State} {q : BitVec 3}

/-- CV.FX2F serves the conversion of the operand's value (R333). -/
theorem serve_fx2f {rm : FloatMode} (nosub : Bool) (hh : s.halted = false)
    (ha : s.request.srcA.FixedLegal s.cfg) (pa : s.request.srcA.Fits s.request.a)
    (hd : s.request.dst.FloatLegal s.cfg) (hm : floatModeOf q = some rm) :
    serve s (fx2fResult q nosub s.cfg s.request) =
      .next (s.answer (fixedToFloat s.cfg s.request.dst.float rm nosub (fxVal s.request.srcA.fixed s.request.a))) := by
  simp only [fx2fResult, fixedOperand_of_legal ha pa, floatSpec_of_legal hd, needFloatMode_of_some hm, bind_ok]
  exact serve_answer hh

/-- CV.F2F serves the conversion of the operand's input record (R351). -/
theorem serve_f2f {rm : FloatMode} (nosub : Bool) (hh : s.halted = false)
    (ha : s.request.srcA.FloatLegal s.cfg) (pa : s.request.srcA.Fits s.request.a)
    (hd : s.request.dst.FloatLegal s.cfg) (hm : floatModeOf q = some rm) :
    serve s (f2fResult q nosub s.cfg s.request) =
      .next (s.answer (floatToFloat s.cfg s.request.floatA.spec s.request.dst.float rm nosub
        (s.request.floatA.input nosub))) := by
  simp only [f2fResult, floatOperand_of_legal ha pa, floatSpec_of_legal hd, needFloatMode_of_some hm, bind_ok]
  exact serve_answer hh

/-- CV.F2FX of a legal request, by whether its operand has a value (R341, R342). -/
theorem f2fxResult_ready {m : FixedMode} (o : OverflowMode) (mapinf : Bool)
    (ha : s.request.srcA.FloatLegal s.cfg) (pa : s.request.srcA.Fits s.request.a)
    (hd : s.request.dst.FixedLegal s.cfg) (hm : fixedModeOf q = some m) :
    f2fxResult q o mapinf s.cfg s.request =
      if s.request.floatA.Finite then .ok (.ofR (quantize s.cfg s.request.floatA.val s.request.dst.fixed m o))
      else if mapinf = true then .ok (.ofR (mapNonFinite s.request.dst.fixed o s.request.floatA.sign))
      else .error .nonFiniteToFixed := by
  simp only [f2fxResult, floatOperand_of_legal ha pa, fixedSpec_of_legal hd, needFixedMode_of_some hm, bind_ok]
  by_cases hfin : s.request.floatA.Finite
  · rw [if_pos hfin]
    exact if_neg (not_or.mpr hfin)
  · rw [if_neg hfin]
    refine (if_pos (or_iff_not_and_not.mpr hfin)).trans ?_
    cases mapinf <;> rfl

end

/-! ## The results, case by case -/

section
variable (cfg : Config) (f g : FloatSpec) (rm : FloatMode) (nosub : Bool)

theorem fixedToFloat_zero : fixedToFloat cfg f rm nosub 0 = f.zero false := if_pos rfl

theorem fixedToFloat_of_ne_zero {x : ℚ} (h : x ≠ 0) :
    fixedToFloat cfg f rm nosub x = roundAssemble cfg f rm nosub (decide (x < 0)) |x| := if_neg h

variable {x : Extracted}

theorem floatToFloat_nan (h : x.cls = .nan) : floatToFloat cfg f g rm nosub x = g.qnan := by
  simp only [floatToFloat, h]

theorem floatToFloat_infinity (h : x.cls = .infinity) : floatToFloat cfg f g rm nosub x = g.inf x.sign := by
  simp only [floatToFloat, h]

theorem floatToFloat_zero (h : x.cls = .zero) : floatToFloat cfg f g rm nosub x = g.zero x.sign := by
  simp only [floatToFloat, h]

/-- A record with a value other than 0 is rounded once (R351). -/
theorem floatToFloat_finite (h : x.Finite) (h0 : x.cls ≠ .zero) :
    floatToFloat cfg f g rm nosub x = roundAssemble cfg g rm nosub x.sign |x.val f| := by
  obtain ⟨hnan, hinf⟩ := h
  cases hc : x.cls with
  | zero => exact absurd hc h0
  | subnormal | normal => simp only [floatToFloat, hc]
  | infinity => exact absurd hc hinf
  | nan => exact absurd hc hnan

/-- A pattern with a value other than 0 is rounded once (R351). -/
theorem floatToFloat_extract {a : FloatOperand} (h : a.Finite) (h0 : a.cls ≠ .zero) :
    floatToFloat cfg a.spec g rm nosub a.extract = roundAssemble cfg g rm nosub a.sign |a.val| := by
  rw [a.val_eq_extract_val h]
  exact floatToFloat_finite cfg a.spec g rm nosub h h0

end

/-- Settles O57: the branches of the two converters; an input that is not a Zero was not flushed. -/
theorem cvFx2fAndF2fResults : Obligations.CvFx2fAndF2fResults := by
  intro s q rm nosub hh hd hm d
  refine ⟨fun ha pa => ?_, fun ha pa => ⟨_, serve_f2f nosub hh ha pa hd hm, floatToFloat_nan _ _ _ _ _,
    floatToFloat_infinity _ _ _ _ _, floatToFloat_zero _ _ _ _ _, fun hx h0 => ?_⟩⟩
  · intro x
    have hserve : exec (.cvFx2f q nosub) s = .next (s.answer (fixedToFloat s.cfg d rm nosub x)) :=
      serve_fx2f nosub hh ha pa hd hm
    rw [hserve]
    exact ⟨fun h0 => by rw [h0, fixedToFloat_zero], fun h0 => by rw [fixedToFloat_of_ne_zero _ _ _ _ h0]⟩
  · have hin : s.request.floatA.input nosub = s.request.floatA.extract := FloatOperand.input_of_ne_zero h0
    rw [hin] at hx h0 ⊢
    exact floatToFloat_extract s.cfg d rm nosub hx h0

/-- The integer that the sign of a non-finite source picks (R343). -/
theorem mapNonFinite_eq (d : FixedSpec) (o : OverflowMode) (s : Bool) :
    mapNonFinite d o s = bitsOf d.w (if s = false then d.kmax
      else if d.s = true ∧ o = .saturateSymmetric then d.kmin + 1 else d.kmin) := by
  cases s with
  | false => rfl
  | true =>
    refine congrArg (bitsOf d.w) ?_
    by_cases ho : o = .saturateSymmetric <;> simp [ho, FixedSpec.symmetricMin]

/-- Settles O58: the three branches of the conversion. -/
theorem cvF2fxResult : Obligations.CvF2fxResult := by
  intro s q m o mapinf hh ha pa hd hm a d
  have hready := congrArg (serve s) (f2fxResult_ready o mapinf ha pa hd hm)
  refine ⟨fun hfin => ?_, fun hfin hmap => ?_, fun hfin hmap => ?_⟩
  · rw [if_pos hfin] at hready
    exact hready.trans (serve_answer hh)
  · rw [if_neg hfin, if_neg (by simp [hmap])] at hready
    exact hready.trans (serve_error hh _)
  · rw [if_neg hfin, if_pos hmap, mapNonFinite_eq] at hready
    exact hready.trans (serve_answer hh)

/-! ## From fixed to float and back (R355 (c)) -/

/-- A number is its magnitude with its sign. -/
theorem signOf_mul_abs (x : ℚ) : signOf (decide (x < 0)) * |x| = x := by
  rcases lt_or_ge x 0 with h | h
  · simp [signOf, h, abs_of_neg h]
  · simp [signOf, h.not_gt, abs_of_nonneg h]

/-- A fixed value that the float spec represents is converted exactly, by every mode (R333). -/
theorem read_fixedToFloat_exact (cfg : Config) (rm : FloatMode) {y : FloatOperand} (hl : y.spec.Legal) (hy : y.Finite) :
    (y.spec.read (fixedToFloat cfg y.spec rm false y.val)).val = y.val := by
  by_cases h0 : y.val = 0
  · rw [h0, fixedToFloat_zero, (y.spec.read_zero_shows hl false).val]
    simp
  · have hpos : 0 < |y.val| := abs_pos.mpr h0
    obtain ⟨t, ht⟩ := finite_abs_val_own_units hl hy hpos
    obtain ⟨-, hval⟩ := roundAssemble_exact cfg hl rm (decide (y.val < 0)) hpos ht (finite_abs_val_lt hl hy)
    rw [fixedToFloat_of_ne_zero _ _ _ _ h0, hval, signOf_mul_abs]

/-- The excluded integer is stored as the next one (R122). -/
theorem quantize_own_spec_excluded (cfg : Config) {d : FixedSpec} {m : FixedMode} {o : OverflowMode} {p : Bits}
    (hp : p.width = d.w) (hex : d.Excludes o (fixedInt d.s p)) :
    quantize cfg (fxVal d p) d m o = bitsOf d.w (d.kmin + 1) := by
  have hx := fxVal_mul_zpow d p (fd := d.f) (n := 0) (sub_self _)
  rw [pow_zero, mul_one] at hx
  obtain ⟨h1, h2⟩ := fixedInt_range p hp
  rw [quantize, roundRat_of_int cfg m hx, fitBits, fitInt_of_range h1 h2]
  exact congrArg (bitsOf d.w) (if_pos hex)

/-- Settles O59: the first step keeps the value, and the second quantizes a value of its own spec. -/
theorem fixedToFloatAndBack : Obligations.FixedToFloatAndBack := by
  intro cfg d p f rm m o _ hp hl ⟨y, hspec, hy, hval⟩
  subst hspec
  rw [← hval, read_fixedToFloat_exact cfg rm hl hy, hval]
  split_ifs with hex
  · exact quantize_own_spec_excluded cfg hp hex
  · exact quantize_own_spec cfg hp hex

/-! ## From float to float and back (R355 (b)) -/

section
variable {f g : FloatSpec}

/-- A mantissa of at most `M + 1` bits, at a weight no finer than that of the least exponent, is an integral number of
units (R214). -/
theorem FloatSpec.units_of_mant {t : ℕ} {q : ℤ} (h0 : t ≠ 0) (ht : t < 2 ^ (g.m + 1)) (hq : g.emin - g.m ≤ q) :
    ∃ n : ℕ, g.units (t * 2 ^ q) = n := by
  have hlog : ilog2 (t * 2 ^ q) = Nat.log2 t + q := ilog2_of_between h0 le_rfl (by gcongr; linarith)
  have hbits : Nat.log2 t < g.m + 1 := (Nat.log2_lt h0).mpr ht
  obtain ⟨d, hd⟩ : ∃ d : ℕ, q = g.expOf (t * 2 ^ q) - g.m + d := by
    rw [FloatSpec.expOf, hlog]
    exact ⟨(q - (max (Nat.log2 t + q) g.emin - g.m)).toNat, by omega⟩
  have hval : ((t * 2 ^ d : ℕ) : ℚ) * 2 ^ (g.expOf (t * 2 ^ q) - g.m) = t * 2 ^ q := by
    conv_rhs => rw [hd, two_zpow_add_natCast]
    push_cast
    ring
  exact ⟨t * 2 ^ d, by rw [FloatSpec.units, div_eq_iff (by positivity), hval]⟩

variable {a : FloatOperand}

/-- Into a spec that represents every finite value of the source, a value other than 0 is converted exactly and keeps
its sign, by every mode (R351). -/
theorem read_roundAssemble_wider (cfg : Config) (rm : FloatMode) (hg : g.Legal) (hl : a.spec.Legal)
    (hm : a.spec.m ≤ g.m) (hmin : g.emin - g.m ≤ a.spec.emin - a.spec.m) (hmax : a.spec.emax ≤ g.emax)
    (ha : a.Finite) (h0 : a.cls ≠ .zero) :
    let b := g.read (roundAssemble cfg g rm false a.sign |a.val|)
    b.Finite ∧ b.cls ≠ .zero ∧ b.sign = a.sign ∧ |b.val| = |a.val| := by
  intro b
  have hpos : 0 < |a.val| := FloatOperand.abs_val_pos ha h0
  have hlt : |a.val| < 2 ^ (g.emax + 1) := (finite_abs_val_lt hl ha).trans_le (two_zpow_le_iff.mpr (by omega))
  have hunits : ∃ n : ℕ, g.units |a.val| = n := by
    have hexp := (a.extract_exp_range hl ha).1
    have hmant : a.extract.mant < 2 ^ (g.m + 1) :=
      a.extract_mant_lt.trans_le (Nat.pow_le_pow_right (by norm_num) (by omega))
    rw [FloatOperand.abs_val ha] at hpos ⊢
    exact FloatSpec.units_of_mant (by intro hz; simp [hz] at hpos) hmant (by omega)
  obtain ⟨n, hn⟩ := hunits
  obtain ⟨hfin, hval⟩ := roundAssemble_exact cfg hg rm a.sign hpos hn hlt
  have habs : |b.val| = |a.val| := by rw [hval, abs_mul, abs_signOf, one_mul, abs_abs]
  refine ⟨hfin, fun hz => hpos.ne' ?_, roundAssemble_sign cfg hg rm a.sign hpos.le, habs⟩
  rw [← habs, FloatOperand.val, hz, abs_zero]

/-- An Infinity has the exponent field all ones and a mantissa that is zero (R74). -/
theorem FloatOperand.cls_eq_infinity_iff (hl : a.spec.Legal) :
    a.cls = .infinity ↔ a.ef = a.spec.efMax ∧ a.mf = 0 := by
  have h0 := hl.efMax_pos.ne'
  unfold FloatOperand.cls
  split_ifs <;> simp_all [eq_comm]

/-- The pattern of an Infinity is that of its sign (R76). -/
theorem FloatOperand.pattern_of_infinity (hl : a.spec.Legal) (h : a.cls = .infinity) :
    a.pattern = a.spec.inf a.sign := by
  obtain ⟨he, hm⟩ := (a.cls_eq_infinity_iff hl).mp h
  rw [a.pattern_eq_pack hl, he, hm, FloatSpec.inf]

/-- The pattern of a Zero is that of its sign (R76). -/
theorem FloatOperand.pattern_of_zero (hl : a.spec.Legal) (h : a.cls = .zero) : a.pattern = a.spec.zero a.sign := by
  obtain ⟨he, hm⟩ := cls_eq_zero_iff.mp h
  rw [a.pattern_eq_pack hl, he, hm, FloatSpec.zero]

/-- An Infinity reads back as one (R74, R76). -/
theorem FloatSpec.read_inf_cls (hl : g.Legal) (s : Bool) : (g.read (g.inf s)).cls = .infinity :=
  (FloatOperand.cls_eq_infinity_iff hl).mpr (g.read_pack hl g.efMax_lt (by positivity)).2

/-- A Zero reads back as one (R74, R76). -/
theorem FloatSpec.read_zero_cls (hl : g.Legal) (s : Bool) : (g.read (g.zero s)).cls = .zero :=
  FloatOperand.cls_eq_zero_iff.mpr (g.read_pack hl (by positivity) (by positivity)).2

end

/-- Settles O60: an Infinity and a Zero keep their sign both ways; any other pattern keeps sign and magnitude on the way
there, and on the way back rounding keeps the pattern. -/
theorem floatWideningAndBack : Obligations.FloatWideningAndBack := by
  intro cfg f g rm rm' a hl hg hm hmin hmax hspec hp hnan
  subst hspec
  by_cases hinf : a.cls = .infinity
  · have hthere : floatToFloat cfg a.spec g rm false a.extract = g.inf a.sign := floatToFloat_infinity _ _ _ _ _ hinf
    rw [hthere, a.pattern_of_infinity hl hinf]
    exact (floatToFloat_infinity _ _ _ _ _ (g.read_inf_cls hg _)).trans (congrArg _ (g.read_inf_sign hg _))
  by_cases h0 : a.cls = .zero
  · have hthere : floatToFloat cfg a.spec g rm false a.extract = g.zero a.sign := floatToFloat_zero _ _ _ _ _ h0
    rw [hthere, a.pattern_of_zero hl h0]
    exact (floatToFloat_zero _ _ _ _ _ (g.read_zero_cls hg _)).trans (congrArg _ (g.read_zero_shows hg _).sign)
  have ha : a.Finite := ⟨hnan, hinf⟩
  obtain ⟨hbfin, hb0, hbsign, hbval⟩ := read_roundAssemble_wider cfg rm hg hl hm hmin hmax ha h0
  have hkeep := roundAssembleKeepsPatterns cfg rm' false a hl hp ha
  rw [if_neg (by simp)] at hkeep
  rw [floatToFloat_extract cfg g rm false ha h0]
  refine (floatToFloat_extract cfg a.spec rm' false hbfin hb0).trans ?_
  rw [hbsign, hbval, hkeep]

end Sys2Proof.Machine
end

section
/-! PROOFS. Contract violations: what a halted block does, step by step and along a run, and the order in which the
checks of a request are made (60_exceptions.md). -/

namespace Sys2Proof.Machine

/-! ## The halted block (R375, R376) -/

section
variable {s : State} {r : Request} {rest : List HostInput}

/-- A halted block answers the request it takes with `Halted`, and does no more (R375). -/
theorem step_request_of_halted (hh : s.halted = true) (h : s.inbox = .request r :: rest) :
    step s = .next (((s.withInbox rest).present r).deliver .halted) := by
  obtain ⟨f, hf⟩ := step_request
  have hh' : ((s.withInbox rest).present r).halted = true := hh
  rw [hf s r rest h, serve_of_halted hh']

/-- A violation taken by a block that is not halted halts it, records the cause and changes nothing else (R375). -/
theorem State.raise_of_not_halted (hh : s.halted = false) (c : Cause) :
    s.raise c = { s with halted := true, haltCause := c.code, delivered := s.delivered ++ [.contractViolation c] } := by
  simp [State.raise, hh]

end

/-- Settles O12, by induction on the steps: a step from a halted state takes one request, if one is presented, and
leaves the block halted with the cause it had. -/
theorem haltedRunServesNothing : Obligations.HaltedRunServesNothing := by
  intro n
  induction n with
  | zero => exact fun s hh _ => ⟨s, rfl, hh, rfl, rfl, by simp⟩
  | succ n ih =>
    intro s hh hreq
    match hin : s.inbox with
    | [] =>
      obtain ⟨t, hrun, ht, hc, hbox, hdel⟩ := ih s hh hreq
      rw [run_succ n (step_nil hin)]
      exact ⟨t, hrun, ht, hc, by simpa [hin] using hbox, by simpa [hin] using hdel⟩
    | x :: rest =>
      rw [hin] at hreq
      obtain ⟨⟨r, rfl⟩, hrest⟩ := List.forall_mem_cons.mp hreq
      obtain ⟨t, hrun, ht, hc, hbox, hdel⟩ := ih (((s.withInbox rest).present r).deliver .halted) hh hrest
      rw [run_succ n (step_request_of_halted hh hin)]
      refine ⟨t, hrun, ht, hc, hbox, hdel.trans ?_⟩
      simp [List.replicate_succ, Nat.add_min_add_right]

/-- Settles O8: the step serves one outcome, and each kind of outcome changes what its case names. -/
theorem servingDeliversOrHalts : Obligations.ServingDeliversOrHalts := by
  intro s r rest h
  refine ⟨fun hh => step_request_of_halted hh h, fun hh => ?_⟩
  obtain ⟨f, hf⟩ := step_request
  have hh' : ((s.withInbox rest).present r).halted = false := hh
  rw [hf s r rest h]
  cases f s.cfg r with
  | ok resp => exact .inl ⟨resp, serve_ok hh' resp⟩
  | error c => exact .inr ⟨c, by rw [serve_error hh', State.raise_of_not_halted hh']; rfl⟩

/-! ## The order of the checks (R373) -/

/-- The conditions of R372 on a record and a pattern read as a fixed operand: (a), (c) and (i). -/
abbrev SpecRecord.HoldsFixed (rec : SpecRecord) (cfg : Config) (p : Bits) : Prop := rec.FixedLegal cfg ∧ rec.Fits p

/-- The conditions of R372 on a record and a pattern read as a float operand: (b), (c) and (i). -/
abbrev SpecRecord.HoldsFloat (rec : SpecRecord) (cfg : Config) (p : Bits) : Prop := rec.FloatLegal cfg ∧ rec.Fits p

/-- As `SpecRecord.HoldsFloat`, and its spec is `f` (d). -/
abbrev SpecRecord.HoldsFloatOf (rec : SpecRecord) (cfg : Config) (p : Bits) (f : FloatSpec) : Prop :=
  rec.FloatLegal cfg ∧ rec.Fits p ∧ rec.float = f

/-- The outcome `res` is that of stages 2 to 4 of R373, made in this order: the conditions `specs` on the specs, the
rounding mode, and the conditions `operands` on the operands, whose violation has the cause `c`. -/
structure ChecksInOrder (specs : Prop) (mode : Bool) (operands : Prop) (c : Cause) (res : Except Cause Response) :
    Prop where
  malformed : ¬ specs → res = .error .malformedSpec
  unsupported : specs → mode = false → res = .error .unsupportedRoundingMode
  violation : specs → mode = true → ¬ operands → res = .error c

section
variable {specs specs' p operands : Prop} {mode : Bool} {c : Cause} {res : Except Cause Response}

/-- Within stage 2 neither the order nor the grouping of the conditions matters: all have one cause. -/
theorem ChecksInOrder.congr (h : ChecksInOrder specs mode operands c res) (hiff : specs ↔ specs') :
    ChecksInOrder specs' mode operands c res := propext hiff ▸ h

/-- A check of stage 2 comes before all that follows it. -/
theorem ChecksInOrder.bind {α : Type} {x : Except Cause α} {a : α} {f : α → Except Cause Response}
    (hok : p → x = .ok a) (hbad : ¬ p → x = .error .malformedSpec)
    (h : p → ChecksInOrder specs mode operands c (f a)) :
    ChecksInOrder (p ∧ specs) mode operands c (x >>= f) := by
  by_cases hp : p
  · rw [hok hp, bind_ok]
    exact (h hp).congr (and_iff_right hp).symm
  · rw [hbad hp, bind_error]
    exact ⟨fun _ => rfl, fun hs => absurd hs.1 hp, fun hs => absurd hs.1 hp⟩

/-- A format that reads no mode goes from stage 2 to the operation's own check. -/
theorem ChecksInOrder.noMode (h : ¬ operands → res = .error c) : ChecksInOrder True true operands c res :=
  ⟨fun hs => absurd trivial hs, fun _ => nofun, fun _ _ => h⟩

/-- An operation of such a format without a check of its own. -/
theorem ChecksInOrder.pure {resp : Response} : ChecksInOrder True true True c (Pure.pure resp) :=
  .noMode fun h => absurd trivial h

/-- Stage 3 comes after the conditions on the specs and before the operation's own check. -/
theorem ChecksInOrder.bindMode {α : Type} {x : Except Cause α} {f : α → Except Cause Response}
    (hok : mode = true → ∃ a, x = .ok a) (hbad : mode = false → x = .error .unsupportedRoundingMode)
    (h : ∀ a, ¬ operands → f a = .error c) : ChecksInOrder True mode operands c (x >>= f) := by
  refine ⟨fun hs => absurd trivial hs, fun _ hq => ?_, fun _ hq ho => ?_⟩
  · rw [hbad hq, bind_error]
  · obtain ⟨a, ha⟩ := hok hq
    rw [ha, bind_ok, h a ho]

variable {cfg : Config} {rec : SpecRecord} {pat : Bits}

/-- Stage 2 on a fixed operand (R372 (a), (c), (i)). -/
theorem ChecksInOrder.fixedOperand {f : FixedOperand → Except Cause Response}
    (h : rec.FixedLegal cfg → ChecksInOrder specs mode operands c (f (rec.fixedOf pat))) :
    ChecksInOrder (rec.HoldsFixed cfg pat ∧ specs) mode operands c
      (fixedOperand cfg rec pat >>= f) :=
  .bind (fun hp => fixedOperand_of_legal hp.1 hp.2) fixedOperand_of_not fun hp => h hp.1

/-- Stage 2 on a fixed spec (R372 (a), (c)). -/
theorem ChecksInOrder.fixedSpec {f : FixedSpec → Except Cause Response}
    (h : rec.FixedLegal cfg → ChecksInOrder specs mode operands c (f rec.fixed)) :
    ChecksInOrder (rec.FixedLegal cfg ∧ specs) mode operands c (fixedSpec cfg rec >>= f) :=
  .bind fixedSpec_of_legal fixedSpec_of_not_legal h

/-- Stage 2 on a float operand (R372 (b), (c), (i)). -/
theorem ChecksInOrder.floatOperand {f : FloatOperand → Except Cause Response}
    (h : ChecksInOrder specs mode operands c (f (rec.floatOf pat))) :
    ChecksInOrder (rec.HoldsFloat cfg pat ∧ specs) mode operands c
      (floatOperand cfg rec pat >>= f) :=
  .bind (fun hp => floatOperand_of_legal hp.1 hp.2) floatOperand_of_not fun _ => h

/-- Stage 2 on a float spec (R372 (b), (c)). -/
theorem ChecksInOrder.floatSpec {f : FloatSpec → Except Cause Response}
    (h : ChecksInOrder specs mode operands c (f rec.float)) :
    ChecksInOrder (rec.FloatLegal cfg ∧ specs) mode operands c (floatSpec cfg rec >>= f) :=
  .bind floatSpec_of_legal floatSpec_of_not_legal fun _ => h

/-- A condition of stage 2 on the fields read. -/
theorem ChecksInOrder.require {b : Bool} {f : Unit → Except Cause Response} (hb : b = true ↔ p)
    (h : ChecksInOrder specs mode operands c (f ())) :
    ChecksInOrder (p ∧ specs) mode operands c (require b .malformedSpec >>= f) :=
  .bind (fun hp => by rw [hb.mpr hp, require_true])
    (fun hp => by rw [Bool.eq_false_iff.mpr (mt hb.mp hp), require_false]) fun _ => h

/-- Stage 2 on two float specs that are to be equal (R372 (d)). -/
theorem ChecksInOrder.sameSpec {d e : FloatSpec} {f : Unit → Except Cause Response}
    (h : ChecksInOrder specs mode operands c (f ())) :
    ChecksInOrder (e = d ∧ specs) mode operands c (sameSpec d e >>= f) :=
  .require (decide_eq_true_iff.trans eq_comm) h

variable {q : BitVec 3}

/-- Stage 3 of a fixed-mode format (R82). -/
theorem ChecksInOrder.fixedMode {f : FixedMode → Except Cause Response}
    (h : ∀ m, ¬ operands → f m = .error c) :
    ChecksInOrder True (fixedModeCode q) operands c (needFixedMode q >>= f) :=
  .bindMode (fun hq => (exists_fixedMode hq).imp fun _ => needFixedMode_of_some)
    (fun hq => needFixedMode_of_none (by simpa using (fixedModeOf_isSome q).trans hq)) h

/-- Stage 3 of a float-mode format (R84). -/
theorem ChecksInOrder.floatMode {f : FloatMode → Except Cause Response}
    (h : ∀ rm, ¬ operands → f rm = .error c) :
    ChecksInOrder True (floatModeCode q) operands c (needFloatMode q >>= f) :=
  .bindMode (fun hq => (exists_floatMode hq).imp fun _ => needFloatMode_of_some)
    (fun hq => needFloatMode_of_none (by simpa using (floatModeOf_isSome q).trans hq)) h

/-- A block that is not halted takes the violation of the first stage that fails (R375). -/
theorem ChecksInOrder.serve {s : State} (h : ChecksInOrder specs mode operands c res) (hh : s.halted = false) :
    (¬ specs → serve s res = .next (s.raise .malformedSpec)) ∧
      (specs → mode = false → serve s res = .next (s.raise .unsupportedRoundingMode)) ∧
      (specs → mode = true → ¬ operands → serve s res = .next (s.raise c)) := by
  refine ⟨fun hs => ?_, fun hs hm => ?_, fun hs hm ho => ?_⟩
  · rw [h.malformed hs, serve_error hh]
  · rw [h.unsupported hs hm, serve_error hh]
  · rw [h.violation hs hm ho, serve_error hh]

end

/-- A condition that fails is the outcome. -/
theorem require_bind_error {b : Bool} {c : Cause} {f : Unit → Except Cause Response} (hb : b = false) :
    (require b c >>= f) = .error c := by rw [hb, require_false, bind_error]

/-! ### The formats (R80) -/

section
variable {cfg : Config} {r : Request} {q : BitVec 3} {o : OverflowMode} {nosub : Bool} {c : Cause}

/-- Format XB: stage 4 is the operation's own. -/
theorem fixedBinary_checks {operands : Prop} {x : FixedOperand → FixedOperand → Except Cause ℚ}
    (hx : ¬ operands → x r.fixedA r.fixedB = .error c) :
    ChecksInOrder (r.srcA.HoldsFixed cfg r.a ∧ r.srcB.HoldsFixed cfg r.b ∧ r.dst.FixedLegal cfg)
      (fixedModeCode q) operands c (fixedBinary cfg r q o x) :=
  .congr (.fixedOperand fun _ => .fixedOperand fun _ => .fixedSpec fun _ => .fixedMode fun _ ho =>
    (congrArg (· >>= _) (hx ho)).trans (bind_error c _)) (by simp only [and_true])

/-- Format XU with modes: the operation's own condition on the specs is the last of stage 2 (R372 (e)). -/
theorem fixedUnary_checks {p : Prop} {extra : FixedOperand → FixedSpec → Bool} {x : FixedOperand → ℚ}
    (hx : r.srcA.FixedLegal cfg → (extra r.fixedA r.dst.fixed = true ↔ p)) :
    ChecksInOrder (r.srcA.HoldsFixed cfg r.a ∧ r.dst.FixedLegal cfg ∧ p) (fixedModeCode q) True c
      (fixedUnary cfg r q o extra x) :=
  .congr (.fixedOperand fun ha => .fixedSpec fun _ => .require (hx ha) <| .fixedMode fun _ ho =>
    absurd trivial ho) (by simp only [and_true])

/-- Format XU with modes, where the operation has no condition of its own. -/
theorem fixedUnary_plain_checks {x : FixedOperand → ℚ} :
    ChecksInOrder (r.srcA.HoldsFixed cfg r.a ∧ r.dst.FixedLegal cfg) (fixedModeCode q) True c
      (fixedUnary cfg r q o (fun _ _ => true) x) :=
  .congr (fixedUnary_checks fun _ => iff_of_true rfl trivial) (by simp only [and_true])

/-- Format XN: the shift amount is the last of stage 2 (R372 (f)). -/
theorem fixedShift_checks {x : FixedOperand → ℤ → ℚ} :
    ChecksInOrder (r.srcA.HoldsFixed cfg r.a ∧ r.dst.FixedLegal cfg ∧ 0 ≤ r.n) (fixedModeCode q) True c
      (fixedShift cfg r q o x) :=
  .congr (.fixedOperand fun _ => .fixedSpec fun _ => .require decide_eq_true_iff <| .fixedMode fun _ ho =>
    absurd trivial ho) (by simp only [and_true])

/-- Format XC. -/
theorem fixedCompare_checks {p : ℤ → ℤ → Bool} :
    ChecksInOrder (r.srcA.HoldsFixed cfg r.a ∧ r.srcB.HoldsFixed cfg r.b) true True c (fixedCompare cfg r p) :=
  .congr (.fixedOperand fun _ => .fixedOperand fun _ => .pure) (by simp only [and_true])

/-- Format PB. -/
theorem floatBinary_checks {x : FloatSpec → FloatMode → Extracted → Extracted → Bits} :
    ChecksInOrder (r.srcA.HoldsFloat cfg r.a ∧ r.srcB.HoldsFloatOf cfg r.b r.srcA.float ∧ r.dst.FloatLegal cfg ∧
      r.dst.float = r.srcA.float) (floatModeCode q) True c (floatBinary cfg r q nosub x) :=
  .congr (.floatOperand <| .floatOperand <| .floatSpec <| .sameSpec <| .sameSpec <| .floatMode fun _ ho =>
    absurd trivial ho) (by simp only [SpecRecord.floatOf]; tauto)

/-- Format PT. -/
theorem floatTernary_checks {x : FloatSpec → FloatMode → Extracted → Extracted → Extracted → Bits} :
    ChecksInOrder (r.srcA.HoldsFloat cfg r.a ∧ r.srcB.HoldsFloatOf cfg r.b r.srcA.float ∧
      r.srcC.HoldsFloatOf cfg r.c r.srcA.float ∧ r.dst.FloatLegal cfg ∧ r.dst.float = r.srcA.float)
      (floatModeCode q) True c (floatTernary cfg r q nosub x) :=
  .congr (.floatOperand <| .floatOperand <| .floatOperand <| .floatSpec <| .sameSpec <| .sameSpec <| .sameSpec <|
    .floatMode fun _ ho => absurd trivial ho) (by simp only [SpecRecord.floatOf]; tauto)

/-- Format PU. -/
theorem floatUnary_checks {x : FloatSpec → FloatMode → Extracted → Bits} :
    ChecksInOrder (r.srcA.HoldsFloat cfg r.a ∧ r.dst.FloatLegal cfg ∧ r.dst.float = r.srcA.float)
      (floatModeCode q) True c (floatUnary cfg r q nosub x) :=
  .congr (.floatOperand <| .floatSpec <| .sameSpec <| .floatMode fun _ ho => absurd trivial ho)
    (by simp only [and_true, SpecRecord.floatOf])

/-- Format PC. -/
theorem floatCompare_checks {p : FloatOperand → FloatOperand → Bool} :
    ChecksInOrder (r.srcA.HoldsFloat cfg r.a ∧ r.srcB.HoldsFloatOf cfg r.b r.srcA.float) true True c
      (floatCompare cfg r p) :=
  .congr (.floatOperand <| .floatOperand <| .sameSpec .pure)
    (by simp only [and_true, and_assoc, SpecRecord.floatOf])

/-- Format PI. -/
theorem floatIntegral_checks {fn : ℚ → ℤ} :
    ChecksInOrder (r.srcA.HoldsFloat cfg r.a ∧ r.dst.FloatLegal cfg ∧ r.dst.float = r.srcA.float)
      true True c (floatIntegral cfg r fn) :=
  .congr (.floatOperand <| .floatSpec <| .sameSpec .pure) (by simp only [and_true, SpecRecord.floatOf])

end

/-! ### The operations with a format of their own (R80) -/

section
variable {cfg : Config} {r : Request} {q : BitVec 3} {o : OverflowMode} {nosub norm mapinf : Bool} {c : Cause}

/-- FXQ.CVT. -/
theorem cvtResult_checks :
    ChecksInOrder (r.srcA.HoldsFixed cfg r.a ∧ r.dst.FixedLegal cfg) (fixedModeCode q) True c (cvtResult q o cfg r) :=
  .congr (.fixedOperand fun _ => .fixedSpec fun _ => .fixedMode fun _ ho => absurd trivial ho)
    (by simp only [and_true])

/-- FXQ.RND. -/
theorem rndResult_checks :
    ChecksInOrder (r.srcA.HoldsFixed cfg r.a ∧ r.dst.FixedLegal cfg) (fixedModeCode q) True c (rndResult q cfg r) :=
  .congr (.fixedOperand fun _ => .fixedSpec fun _ => .fixedMode fun _ ho => absurd trivial ho)
    (by simp only [and_true])

/-- FXQ.OVF. -/
theorem ovfResult_checks : ChecksInOrder (r.dst.FixedLegal cfg) true True c (ovfResult o cfg r) :=
  .congr (.fixedSpec fun _ => .pure) (by simp only [and_true])

/-- FX.SLC: stage 4 is the range rule (R178). -/
theorem slcResult_checks :
    ChecksInOrder (r.srcA.HoldsFixed cfg r.a) true (0 ≤ r.lsb ∧ 1 ≤ r.n ∧ r.lsb + r.n ≤ r.srcA.w)
      .sliceOutOfRange (slcResult cfg r) :=
  .congr (.fixedOperand fun ha => .noMode fun hr => require_bind_error (sliceInRange_of_not ha hr))
    (by simp only [and_true])

/-- FX.SETSLC: the width of `B` is the last of stage 2 (R372 (g)), and stage 4 is the range rule (R178). -/
theorem setslcResult_checks :
    ChecksInOrder (r.srcA.HoldsFixed cfg r.a ∧ r.srcB.HoldsFixed cfg r.b ∧ r.srcB.w = r.n) true
      (0 ≤ r.lsb ∧ 1 ≤ r.n ∧ r.lsb + r.n ≤ r.srcA.w) .sliceOutOfRange (setslcResult cfg r) :=
  .congr (.fixedOperand fun ha => .fixedOperand fun hb =>
    .require (decide_eq_true_iff.trans (Eq.congr_left (SpecRecord.fixed_w hb))) <|
    .noMode fun hr => require_bind_error (sliceInRange_of_not ha hr)) (by simp only [and_true])

/-- FX.TOINT: that the destination is an integer spec is the last of stage 2 (R372 (e)). -/
theorem tointResult_checks :
    ChecksInOrder (r.srcA.HoldsFixed cfg r.a ∧ r.dst.FixedLegal cfg ∧ r.dst.i = r.dst.w) true True c
      (tointResult cfg r) :=
  .congr (.fixedOperand fun _ => .fixedSpec fun hd =>
    .require (p := r.dst.i = r.dst.w) (decide_eq_true_iff.trans (Eq.congr_right (SpecRecord.fixed_w hd))) .pure)
    (by simp only [and_true])

/-- FP.EXTRACT. -/
theorem extractResult_checks :
    ChecksInOrder (r.srcA.HoldsFloat cfg r.a) true True c (extractResult nosub norm cfg r) :=
  .congr (.floatOperand .pure) (by simp only [and_true])

/-- FP.RNDASM: stage 4 is condition (h) of R372. -/
theorem rndasmResult_checks :
    ChecksInOrder (r.dst.FloatLegal cfg) (floatModeCode q)
      (0 ≤ r.xm ∧ (r.xk = true → 2 ^ (r.dst.float.m + 1) ≤ r.xm)) .malformedSpec (rndasmResult q nosub cfg r) :=
  .congr (.floatSpec <| .floatMode fun _ hx =>
    require_bind_error (Bool.eq_false_iff.mpr (mt rndasmLegal_iff.mp hx))) (by simp only [and_true])

/-- CV.FX2F. -/
theorem fx2fResult_checks :
    ChecksInOrder (r.srcA.HoldsFixed cfg r.a ∧ r.dst.FloatLegal cfg) (floatModeCode q) True c
      (fx2fResult q nosub cfg r) :=
  .congr (.fixedOperand fun _ => .floatSpec <| .floatMode fun _ ho => absurd trivial ho) (by simp only [and_true])

/-- CV.F2FX: stage 4 is a source without a value where `MAPINF` is not set (R342). -/
theorem f2fxResult_checks :
    ChecksInOrder (r.srcA.HoldsFloat cfg r.a ∧ r.dst.FixedLegal cfg) (fixedModeCode q)
      (mapinf = true ∨ (r.floatA.cls ≠ .nan ∧ r.floatA.cls ≠ .infinity)) .nonFiniteToFixed
      (f2fxResult q o mapinf cfg r) := by
  refine .congr (.floatOperand <| .fixedSpec fun _ => .fixedMode fun _ hx => ?_) (by simp only [and_true])
  obtain ⟨hmap, hfin⟩ := not_or.mp hx
  exact (if_pos (or_iff_not_and_not.mpr hfin)).trans (require_bind_error (Bool.eq_false_iff.mpr hmap))

/-- CV.F2F. -/
theorem f2fResult_checks :
    ChecksInOrder (r.srcA.HoldsFloat cfg r.a ∧ r.dst.FloatLegal cfg) (floatModeCode q) True c
      (f2fResult q nosub cfg r) :=
  .congr (.floatOperand <| .floatSpec <| .floatMode fun _ ho => absurd trivial ho) (by simp only [and_true])

end

/-! ### Every operation -/

/-- FX.DIV has the violation of a zero divisor (R158). -/
theorem div_of_zero {r : Request} (h : ¬ fixedInt r.srcB.s r.b ≠ 0) :
    (if r.fixedB.val = 0 then .error .fixedDivideByZero else .ok (r.fixedA.val / r.fixedB.val) : Except Cause ℚ) =
      .error .fixedDivideByZero :=
  if_pos (by rw [FixedOperand.val, show r.fixedB.k = 0 from not_not.mp h, Int.cast_zero, zero_mul])

/-- Every operation makes the checks of its request in the order of R373, by the lemma of its format. -/
theorem exec_checksInOrder (i : Instr) (s : State) :
    ∃ res, exec i s = serve s res ∧
      ChecksInOrder (SpecsLegal i s.cfg s.request) (WellFormed i) (OperandsLegal i s.request) (operandCause i) res := by
  cases i with
  | fxqCvt q o => exact ⟨_, rfl, cvtResult_checks⟩
  | fxqRnd q => exact ⟨_, rfl, rndResult_checks⟩
  | fxqOvf o => exact ⟨_, rfl, ovfResult_checks⟩
  | fxAdd q o | fxSub q o | fxMul q o | fxAnd q o | fxOr q o | fxXor q o =>
    exact ⟨_, rfl, fixedBinary_checks fun ho => absurd trivial ho⟩
  | fxDiv q o => exact ⟨_, rfl, fixedBinary_checks div_of_zero⟩
  | fxShl q o | fxShr q o => exact ⟨_, rfl, fixedShift_checks⟩
  | fxNeg q o | fxNot q o | fxInc q o | fxDec q o => exact ⟨_, rfl, fixedUnary_plain_checks⟩
  | fxEq | fxNe | fxLt | fxLe | fxGt | fxGe => exact ⟨_, rfl, fixedCompare_checks⟩
  | fxSlc => exact ⟨_, rfl, slcResult_checks⟩
  | fxSetslc => exact ⟨_, rfl, setslcResult_checks⟩
  | fxToint => exact ⟨_, rfl, tointResult_checks⟩
  | fxFromint q o =>
    exact ⟨_, rfl, fixedUnary_checks fun ha => decide_eq_true_iff.trans (Eq.congr_right (SpecRecord.fixed_w ha))⟩
  | fpExtract nosub norm => exact ⟨_, rfl, extractResult_checks⟩
  | fpRndasm q nosub => exact ⟨_, rfl, rndasmResult_checks⟩
  | fpAdd q nosub | fpSub q nosub | fpMul q nosub | fpDiv q nosub => exact ⟨_, rfl, floatBinary_checks⟩
  | fpFma q nosub => exact ⟨_, rfl, floatTernary_checks⟩
  | fpSqrt q nosub => exact ⟨_, rfl, floatUnary_checks⟩
  | fpEq | fpNe | fpLt | fpLe | fpGt | fpGe => exact ⟨_, rfl, floatCompare_checks⟩
  | fpCeil | fpFloor | fpTrunc | fpRound => exact ⟨_, rfl, floatIntegral_checks⟩
  | cvFx2f q nosub => exact ⟨_, rfl, fx2fResult_checks⟩
  | cvF2fx q o mapinf => exact ⟨_, rfl, f2fxResult_checks⟩
  | cvF2f q nosub => exact ⟨_, rfl, f2fResult_checks⟩

/-- Settles O17: a word that names no operation is refused before any field is looked at, and an operation makes the
other checks in order. -/
theorem checksAreMadeInOrder : Obligations.ChecksAreMadeInOrder := by
  intro s r rest hh h
  have hh' : ((s.withInbox rest).present r).halted = false := hh
  refine ⟨fun ⟨e, he⟩ => ?_, fun i hi => ?_⟩
  · rw [step, fetch_illegal h he]
    exact serve_error hh' _
  · obtain ⟨res, hres, hchecks⟩ := exec_checksInOrder i ((s.withInbox rest).present r)
    rw [stepRunsTheDecodedInstruction s r rest i h hi, hres]
    exact hchecks.serve hh'

end Sys2Proof.Machine
end

section
/-! PROOFS. Reset and the halt (70_reset_and_hazards.md): reset leaves the halt, and nothing else the host can present
does. -/

namespace Sys2Proof.Machine

/-- A block that is halted stays halted on a step that takes no reset: one that takes nothing changes nothing, and one
that takes a request answers it with `Halted` (R375, R376). -/
theorem step_keeps_halted {s t : State} (hh : s.halted = true) (ht : step s = .next t)
    (hreset : ∀ p rest, s.inbox ≠ .reset p :: rest) : t.halted = true := by
  rcases step_cases s with ⟨-, h⟩ | ⟨p, rest, hin, -⟩ | ⟨r, rest, -, hin, -⟩
  · cases h.symm.trans ht
    exact hh
  · exact absurd hin (hreset p rest)
  · cases (step_request_of_halted hh hin).symm.trans ht
    exact hh

/-- Settles O7: a step on reset is `assertReset` whether or not a request comes with it, and a step that leaves the halt
takes a reset, since every other step keeps it. -/
theorem resetIsTheOnlyWayOutOfTheHalt : Obligations.ResetIsTheOnlyWayOutOfTheHalt := by
  refine ⟨fun s p rest h => step_reset h, fun s t hh ht hout => ?_⟩
  by_contra hno
  have hkept : t.halted = true := step_keeps_halted hh ht fun p rest hin => hno ⟨p, rest, hin⟩
  exact Bool.false_ne_true (hout.symm.trans hkept)

end Sys2Proof.Machine
end
